-- ==== Sys2Proof/Word.lean ====
section
/-! DEFINITION. The words, bytes and address ranges of the LZW core (`00_scope.md` R11, R12; `20_memory.md` R79). -/

namespace Sys2Proof

/-- A register or command word: every register is 32 bits wide (R25). -/
abbrev Word := BitVec 32

/-- A byte, 0..255 (R12). -/
abbrev Byte := BitVec 8

/-- A byte string: a finite sequence of bytes, never null-terminated (R12). -/
abbrev Bytes := List Byte

/-- The size of system memory, 2^32 bytes (R70). -/
abbrev addressSpace : Nat := 4294967296

/-- The addresses `lo ≤ addr < hi`, computed on unbounded integers (R79). -/
structure Region where
  lo : Nat
  hi : Nat
  deriving DecidableEq, Repr

/-- The two kinds of access on the memory port (R70). -/
inductive AccessKind where
  | read
  | write
  deriving DecidableEq, Repr

end Sys2Proof
end

