-- ==== Sys2Proof/Syntax.lean ====
section
/-! DEFINITION. The commands of the LZW core, one constructor per row of `opcode_table.json` (`30_encoding.md` R91). A command
carries no operand fields (R94): its operands are the registers latched when it starts (R24). -/

namespace Sys2Proof

/-- The seven commands of R91. -/
inductive Instr where
  /-- NOP, R210. -/
  | nop
  /-- TRIE_INIT, R110. -/
  | trieInit
  /-- TRIE_PUT, R115. -/
  | triePut
  /-- TRIE_GET, R125. -/
  | trieGet
  /-- TRIE_DESTROY, R130. -/
  | trieDestroy
  /-- COMPRESS, R140. -/
  | compress
  /-- DECOMPRESS, R170. -/
  | decompress
  deriving DecidableEq, Repr

end Sys2Proof
end

