-- ==== Sys2Proof/Decode.lean ====
section
/-! DEFINITION. Decoding and encoding of command words (`30_encoding.md` R90 to R93). Decoding is total on all 2^32 words: a
word equal to a row's match is that command, every other word is rejected by name. -/

namespace Sys2Proof

/-- Why a word is illegal (R93). -/
inductive DecodeError where
  /-- RSV ≠ 0: bits [31:8] are not all zero. -/
  | reservedBits
  /-- RSV = 0 and OPC is in no row: 0x05–0x0F or 0x12–0xFF. -/
  | unassignedOpcode
  deriving DecidableEq, Repr

/-- The field OPC = bits [7:0] of a command word (R90). -/
def opcField (w : Word) : BitVec 8 := w.extractLsb' 0 8

/-- The field RSV = bits [31:8] of a command word (R90). -/
def rsvField (w : Word) : BitVec 24 := w.extractLsb' 8 24

/-- The opcode map (R91), by the number OPC. -/
def decodeOpc (opc : Nat) : Option Instr :=
  match opc with
  | 0x00 => some .nop
  | 0x01 => some .trieInit
  | 0x02 => some .triePut
  | 0x03 => some .trieGet
  | 0x04 => some .trieDestroy
  | 0x10 => some .compress
  | 0x11 => some .decompress
  | _ => none

/-- The decoder: all 32 bits count (R91, R92). -/
def decodeWord (w : Word) : Except DecodeError Instr :=
  if rsvField w ≠ 0 then .error .reservedBits
  else match decodeOpc (opcField w).toNat with
    | some i => .ok i
    | none => .error .unassignedOpcode

/-- The command word of each command: the "match" column of R91. -/
def encode (i : Instr) : Word :=
  match i with
  | .nop => 0x00000000
  | .trieInit => 0x00000001
  | .triePut => 0x00000002
  | .trieGet => 0x00000003
  | .trieDestroy => 0x00000004
  | .compress => 0x00000010
  | .decompress => 0x00000011

/-- The command the decoder reads from a table row's bits. A command word has exactly 32 bits and arrives in one register write
(R90), so bits above `nbits` are 0 and a number of 2^32 or more is no command word. -/
def decodeTableWord (nbits w : Nat) : Option Instr :=
  if nbits ≤ 32 ∧ w < 2 ^ nbits then
    match decodeWord (BitVec.ofNat 32 w) with
    | .ok i => some i
    | .error _ => none
  else none

end Sys2Proof
end

