-- ==== Sys2Proof/Config.lean ====
section
/-! DEFINITION. What an implementation or its platform fixes (`00_scope.md` R8; `93_implementation_defined.md` section 4), and
the free values: the values the spec leaves unspecified, as opaque constants (section 1 of that file, rows U2, U3, U4, U6). -/

namespace Sys2Proof

/-- The implementation parameters of R8. State carries them, so that a statement holds for every instance (log 1). -/
structure Params where
  /-- W, CW_WIDTH: codeword width in bits. -/
  w : Nat
  /-- E, ELEM_BYTES: bytes per stream element. -/
  e : Nat
  /-- NODE_CAP: capacity of the trie store, in nodes, the root included. -/
  nodeCap : Nat
  deriving DecidableEq, Repr

/-- The defaults of R8. -/
def Params.default : Params := ⟨16, 4, 65536⟩

/-- A range of system-memory addresses that answers with a bus error, for reads, for writes or for both (R70). -/
structure BusHole where
  region : Region
  onRead : Bool
  onWrite : Bool
  deriving DecidableEq, Repr

/-- What the platform fixes: REG_BASE (R25, D44), the map `bus_ok` as the list of ranges that answer with a bus error (R70, D45;
log 2), and the ranges of system memory that are not ordinary memory (R71, R283; log 4). -/
structure Platform where
  regBase : Nat
  busErrors : List BusHole
  devices : List Region
  deriving DecidableEq, Repr

/-- The platform of `State.reset`: window at address 0, no bus errors, no devices. DESIGN CHOICE (log 2, 3, 4). -/
def Platform.default : Platform := ⟨0, [], []⟩

/-- Free value: the byte that draw `k` leaves at an address whose content the spec calls unspecified (R236, R272; log 10).
"Each byte independently either its old value or any other value" is any value at all. -/
opaque Config.freeByte : Nat → Nat → Byte

/-- Free value: whether draw `k` reports BUS rather than the bus-free error (R238; log 11). -/
opaque Config.busWins : Nat → Bool

/-- Free value: what STATUS.TRIE_LIVE reads while BUSY (R36; log 12). -/
opaque Config.busyTrieLive : Nat → Bool

/-- Free value: what NEXT_CW reads while BUSY (R45; log 12). -/
opaque Config.busyNextCw : Nat → Word

/-- Free value: what NODE_COUNT reads while BUSY (R46; log 12). -/
opaque Config.busyNodeCount : Nat → Word

end Sys2Proof
end

