-- ==== Sys2Proof/Machine/State.lean ====
section
/-! DEFINITION. The state of the machine, as plain data: the core's registers and stores (`10_state.md`), system memory
(`20_memory.md` R70), the platform's constants, and what the host will do next. -/

namespace Sys2Proof.Machine

/-- The engine's sequencer state (R23). -/
inductive Mode where
  | idle
  | busy
  deriving DecidableEq, Repr

/-- The error codes of R230. Codes 0x0C to 0xFF are never reported: they have no constructor. -/
inductive ErrCode where
  | ok
  | illegalCmd
  | range
  | overlap
  | dstCap
  | lenTooLarge
  | bus
  | corrupt
  | length
  | trieNotLive
  | trieFull
  | keyLen
  deriving DecidableEq, Repr

/-- The sixteen register offsets of the window (R25); the last three are reserved (R26). -/
inductive Reg where
  | id
  | param
  | nodeCap
  | cmd
  | status
  | irqEn
  | srcAddr
  | srcLen
  | dstAddr
  | dstCap
  | result
  | nextCw
  | nodeCount
  | reserved34
  | reserved38
  | reserved3C
  deriving DecidableEq, Repr

/-- What a CMD write that starts a command latches (R24). R24 names `op = CMD[7:0]`; the whole word is kept because R92 compares
all 32 bits (DEDUCED, log 7). -/
structure Latch where
  word : Word
  a : Word
  n : Word
  d : Word
  cap : Word
  deriving DecidableEq, Repr

/-- The trie store T (R50 to R53): the set T.nodes of strings, without repeats and newest first; the map T.cw as the list of complete
entries with their codewords, newest first (a string that is not listed has codeword 0); and the counter T.next (log 20). -/
structure Trie where
  live : Bool
  nodes : List Bytes
  codes : List (Bytes × Nat)
  next : Nat
  deriving DecidableEq, Repr

/-- The encoder's working state while a COMPRESS runs (R60), with the trie it uses (R141). It has no value outside a running
command (R65) and no host access reaches it (R23): it lives inside the engine's step (log 8). -/
structure EncoderWork where
  trie : Trie
  cand : Bytes
  out : List Nat
  dictFull : Bool
  deriving DecidableEq, Repr

/-- The decoder's working state while a DECOMPRESS runs (R58, R59): the dictionary D as (codeword, string) pairs, newest first;
`output` is what has been emitted, so the spec's `out` is its length. It has no value outside a running command (R65, log 8). -/
structure DecoderWork where
  dict : List (Nat × Bytes)
  nextFree : Nat
  prev : Nat
  last : Nat
  output : Bytes
  dictFull : Bool
  deriving DecidableEq, Repr

/-- System memory: the listed bytes, by strictly rising address, none equal to what an unlisted address reads as. -/
structure Memory where
  cells : List Host.Cell
  deriving DecidableEq, Repr

/-- Whose turn a step is. -/
inductive Turn where
  | host
  | engine
  deriving DecidableEq, Repr

/-- One operation of the outside world. Register accesses name a platform address and a width in bits (R21, R25, R218). -/
inductive HostOp where
  /-- A register-port write (R214). -/
  | write (addr bits : Nat) (v : Word)
  /-- A register-port read (R217). -/
  | read (addr bits : Nat)
  /-- WAIT: read STATUS until BUSY is 0 (R96). -/
  | wait
  /-- The host writes system memory by its own means (R71, R95). -/
  | memWrite (addr : Nat) (bytes : Bytes)
  /-- The host reads system memory by its own means (R71). -/
  | memRead (addr n : Nat)
  /-- `rst` is asserted (R270). -/
  | assertRst
  /-- `rst` is deasserted (R270, R271). -/
  | deassertRst
  deriving DecidableEq, Repr

/-- What a host read returned (R95: "the program records the value read"). -/
inductive Observation where
  | reg (r : Reg) (v : Word)
  | mem (addr : Nat) (bytes : Bytes)
  deriving DecidableEq, Repr

/-- The machine: the core, system memory, the platform's constants, the outside world's operations still to come, and the model's
own counter of free values. -/
structure State where
  params : Params
  platform : Platform
  mode : Mode
  latch : Latch
  done : Bool
  err : Bool
  dictFull : Bool
  ovr : Bool
  errcode : ErrCode
  doneIe : Bool
  srcAddr : Word
  srcLen : Word
  dstAddr : Word
  dstCap : Word
  result : Word
  trie : Trie
  rst : Bool
  mem : Memory
  program : List HostOp
  observed : List Observation
  schedule : List Turn
  draws : Nat
  deriving DecidableEq, Repr

/-- The one fault. No command faults: a command's errors are completions (R232). -/
inductive Fault where
  /-- Raised by a host memory operation that names an address outside the 2^32 bytes of system memory (R70). Safe: the address
  does not exist. -/
  | noSuchAddress
  deriving DecidableEq, Repr

/-- The refusals: host behaviour the spec puts outside the model. No command is refused. -/
inductive Refusal where
  /-- Raised by `exec` for a command that has no meaning yet (none is left). Safe. -/
  | notModelled (mnemonic : String)
  /-- Raised by a register-port access other than a 32-bit one at a multiple of 4 in the window (R218, H1). Safe. -/
  | badRegisterAccess
  /-- Raised by a register transaction while `rst` is asserted (R273, H2). Safe. -/
  | accessInReset
  /-- Raised by a host access to a running command's regions that R82 and R281 forbid (H3). Unsafe for a host that breaks the
  duty: the device would go on, with unspecified contents (log 15). -/
  | hostTouchesRegion
  /-- Raised where a command's region, or a host access, meets a platform range that is not ordinary memory (R283, H4). Unsafe for
  a host that breaks the duty (log 4). -/
  | deviceRegion
  deriving DecidableEq, Repr

/-- The three outcomes of a step or of a meaning. -/
abbrev Result := Host.Outcome State Fault Refusal

/-- The latch of `State.reset`: the spec gives the latched operands no reset value. DESIGN CHOICE (log 6). -/
def Latch.reset : Latch := ⟨0, 0, 0, 0, 0⟩

/-- The trie when it is not live: no nodes, no codewords, counter 1 (R51, R53, R65). -/
def Trie.destroyed : Trie := ⟨false, [], [], 1⟩

/-- Memory with nothing listed. -/
def Memory.empty : Memory := ⟨[]⟩

/-- The machine right after reset (R65, R271), with the default parameters (R8) and platform, an empty memory and an idle outside
world (log 1 to 6, 9, 13, 14). -/
def State.reset : State where
  params := Params.default
  platform := Platform.default
  mode := .idle
  latch := Latch.reset
  done := false
  err := false
  dictFull := false
  ovr := false
  errcode := .ok
  doneIe := false
  srcAddr := 0
  srcLen := 0
  dstAddr := 0
  dstCap := 0
  result := 0
  trie := Trie.destroyed
  rst := false
  mem := Memory.empty
  program := []
  observed := []
  schedule := []
  draws := 0

end Sys2Proof.Machine
end

