-- ==== Sys2Proof/Machine/Operands.lean ====
section
/-! DEFINITION. What a command works on: the derived constants (R9), register numbers (R25), regions and the checks on them (R79),
bus errors (R70), and the bytes of an element (R74). -/

namespace Sys2Proof.Machine

/-- CW_MAX = 2^W − 1, the largest codeword (R9). -/
def cwMax (p : Params) : Nat := 2 ^ p.w - 1

/-- ELEM_MAX = 2^(8·E) − 1, the largest element value (R9). -/
def elemMax (p : Params) : Nat := 2 ^ (8 * p.e) - 1

/-- SEED_COUNT (R9). -/
def seedCount : Nat := 256

/-- FIRST_DYN, the first codeword that is not a seed's (R9). -/
def firstDyn : Nat := 257

/-- A region with no address in it (R79). -/
def emptyRegion : Region := ⟨0, 0⟩

/-- The region of `len` bytes from `base` (R79). -/
def regionAt (base len : Nat) : Region := ⟨base, base + len⟩

/-- The region ends at or below 2^32 (R79). -/
def inRange (r : Region) : Bool := r.hi ≤ addressSpace

/-- Both regions are nonempty and meet (R79). -/
def overlaps (r s : Region) : Bool :=
  r.lo < r.hi && s.lo < s.hi && r.lo < s.hi && s.lo < r.hi

/-- `x` is an address of the region. -/
def inRegion (r : Region) (x : Nat) : Bool := r.lo ≤ x && x < r.hi

/-- The source region of a command with its latched operands (the table of R79). -/
def srcRegion (p : Params) (i : Instr) (l : Latch) : Region :=
  match i with
  | .nop => emptyRegion
  | .trieInit => emptyRegion
  | .triePut => regionAt l.a.toNat l.n.toNat
  | .trieGet => regionAt l.a.toNat l.n.toNat
  | .trieDestroy => emptyRegion
  | .compress => regionAt l.a.toNat l.n.toNat
  | .decompress => regionAt l.a.toNat (l.n.toNat * p.e)

/-- The destination region of a command with its latched operands (the table of R79). -/
def dstRegion (p : Params) (i : Instr) (l : Latch) : Region :=
  match i with
  | .nop => emptyRegion
  | .trieInit => emptyRegion
  | .triePut => emptyRegion
  | .trieGet => emptyRegion
  | .trieDestroy => emptyRegion
  | .compress => regionAt l.d.toNat (l.cap.toNat * p.e)
  | .decompress => regionAt l.d.toNat l.cap.toNat

/-- The source region of the latched word: an illegal word has none (R212). -/
def latchSrc (p : Params) (l : Latch) : Region :=
  match decodeWord l.word with
  | .ok i => srcRegion p i l
  | .error _ => emptyRegion

/-- The destination region of the latched word: an illegal word has none (R212). -/
def latchDst (p : Params) (l : Latch) : Region :=
  match decodeWord l.word with
  | .ok i => dstRegion p i l
  | .error _ => emptyRegion

/-- The hole answers accesses of this kind with a bus error. -/
def holeCovers (h : BusHole) (k : AccessKind) : Bool :=
  match k with
  | .read => h.onRead
  | .write => h.onWrite

/-- `bus_ok` (R70): the access answers normally. -/
def busOk (pf : Platform) (k : AccessKind) (x : Nat) : Bool :=
  pf.busErrors.all fun h => !(holeCovers h k && inRegion h.region x)

/-- Every access of this kind in the region answers normally. -/
def regionOk (pf : Platform) (k : AccessKind) (r : Region) : Bool :=
  pf.busErrors.all fun h => !(holeCovers h k && overlaps h.region r)

/-- The region meets a range that is not ordinary memory (R283). -/
def touchesDevice (pf : Platform) (r : Region) : Bool :=
  pf.devices.any fun x => overlaps x r

/-- The offset of a register in the window (R25). -/
def regOffset (r : Reg) : Nat :=
  match r with
  | .id => 0x00
  | .param => 0x04
  | .nodeCap => 0x08
  | .cmd => 0x0C
  | .status => 0x10
  | .irqEn => 0x14
  | .srcAddr => 0x18
  | .srcLen => 0x1C
  | .dstAddr => 0x20
  | .dstCap => 0x24
  | .result => 0x28
  | .nextCw => 0x2C
  | .nodeCount => 0x30
  | .reserved34 => 0x34
  | .reserved38 => 0x38
  | .reserved3C => 0x3C

/-- The register at an offset of the window (R25); no register at any other number (R218). -/
def regOfOffset (offset : Nat) : Option Reg :=
  match offset with
  | 0x00 => some .id
  | 0x04 => some .param
  | 0x08 => some .nodeCap
  | 0x0C => some .cmd
  | 0x10 => some .status
  | 0x14 => some .irqEn
  | 0x18 => some .srcAddr
  | 0x1C => some .srcLen
  | 0x20 => some .dstAddr
  | 0x24 => some .dstCap
  | 0x28 => some .result
  | 0x2C => some .nextCw
  | 0x30 => some .nodeCount
  | 0x34 => some .reserved34
  | 0x38 => some .reserved38
  | 0x3C => some .reserved3C
  | _ => none

/-- The register a port access reaches: 32 bits wide, at REG_BASE plus an offset of the window (R25, R218). -/
def regOfAccess (pf : Platform) (addr bits : Nat) : Option Reg :=
  if bits = 32 ∧ pf.regBase ≤ addr then regOfOffset (addr - pf.regBase) else none

/-- The value of bytes in address order, least significant first (R13, R74). -/
def leVal (bs : Bytes) : Nat :=
  match bs with
  | [] => 0
  | b :: rest => b.toNat + 256 * leVal rest

/-- The `k` bytes of a value, least significant first (R74: byte (v >> 8j) & 0xFF at position j). -/
def leBytes (k v : Nat) : Bytes :=
  match k with
  | 0 => []
  | k + 1 => BitVec.ofNat 8 v :: leBytes k (v / 256)

/-- The bytes of a stream of elements, each E bytes wide (R73, R75). -/
def streamBytes (p : Params) (elems : List Nat) : Bytes := elems.flatMap (leBytes p.e)

end Sys2Proof.Machine
end

