-- ==== Sys2Proof/Machine/Flags.lean ====
section
/-! DEFINITION. STATUS and its flags, the interrupt, and the value of every register (`10_state.md` R26 to R46,
`43_control.md` R216, `60_exceptions.md` R230, R240). -/

namespace Sys2Proof.Machine

/-- The code of an error (R230). -/
def errByte (c : ErrCode) : BitVec 8 :=
  match c with
  | .ok => 0x00
  | .illegalCmd => 0x01
  | .range => 0x02
  | .overlap => 0x03
  | .dstCap => 0x04
  | .lenTooLarge => 0x05
  | .bus => 0x06
  | .corrupt => 0x07
  | .length => 0x08
  | .trieNotLive => 0x09
  | .trieFull => 0x0A
  | .keyLen => 0x0B

/-- STATUS.BUSY (R32). -/
def busyBit (s : State) : Bool := s.mode == .busy

/-- STATUS.TRIE_LIVE (R36): T.live in IDLE, a free value while BUSY. -/
def trieLiveBit (s : State) : Bool :=
  match s.mode with
  | .idle => s.trie.live
  | .busy => Config.busyTrieLive s.draws

/-- The word STATUS reads as (R32 to R38): ERRCODE in [15:8], OVR 5, TRIE_LIVE 4, DICT_FULL 3, ERR 2, DONE 1, BUSY 0, the rest 0. -/
def statusWord (s : State) : Word :=
  0#16 ++ errByte s.errcode ++ 0#2 ++ BitVec.ofBool s.ovr ++ BitVec.ofBool (trieLiveBit s) ++ BitVec.ofBool s.dictFull
    ++ BitVec.ofBool s.err ++ BitVec.ofBool s.done ++ BitVec.ofBool (busyBit s)

/-- The word PARAM reads as (R29): W in [4:0], E in [10:8], the rest 0. -/
def paramWord (p : Params) : Word :=
  0#21 ++ BitVec.ofNat 3 p.e ++ 0#3 ++ BitVec.ofNat 5 p.w

/-- The interrupt output (R240). -/
def irq (s : State) : Bool := s.done && s.doneIe

/-- The word NEXT_CW reads as (R45). -/
def nextCwWord (s : State) : Word :=
  match s.mode with
  | .idle => BitVec.ofNat 32 s.trie.next
  | .busy => Config.busyNextCw s.draws

/-- The word NODE_COUNT reads as (R46). -/
def nodeCountWord (s : State) : Word :=
  match s.mode with
  | .idle => BitVec.ofNat 32 s.trie.nodes.length
  | .busy => Config.busyNodeCount s.draws

/-- The value a host read of a register returns (R26 to R46, R217). -/
def readReg (s : State) (r : Reg) : Word :=
  match r with
  | .id => 0x4C5A5701
  | .param => paramWord s.params
  | .nodeCap => BitVec.ofNat 32 s.params.nodeCap
  | .cmd => 0
  | .status => statusWord s
  | .irqEn => BitVec.setWidth 32 (BitVec.ofBool s.doneIe)
  | .srcAddr => s.srcAddr
  | .srcLen => s.srcLen
  | .dstAddr => s.dstAddr
  | .dstCap => s.dstCap
  | .result => s.result
  | .nextCw => nextCwWord s
  | .nodeCount => nodeCountWord s
  | .reserved34 => 0
  | .reserved38 => 0
  | .reserved3C => 0

/-- A host write of `v` to STATUS (R216): bit 1 clears DONE, bit 5 clears OVR, every other bit is ignored. -/
def writeStatus (s : State) (v : Word) : State :=
  { s with done := s.done && !(v.getLsbD 1), ovr := s.ovr && !(v.getLsbD 5) }

end Sys2Proof.Machine
end

