-- ==== Sys2Proof/Machine/Ops.lean ====
section
/-! DEFINITION. The named operations: system memory (`20_memory.md` R70 to R74), starting a command (`43_control.md` R213),
completing one with success or with an error (`60_exceptions.md` R233 to R236), and the bus-error rule (R238). The core takes no
exceptions: an error is a completion (R232), and `raiseError` is the one operation that makes it. -/

namespace Sys2Proof.Machine

/-! ### System memory -/

/-- What a byte that nothing has written reads as. DESIGN CHOICE (log 5). -/
def unlistedByte : Byte := 0

/-- The byte the list gives an address. -/
def readCells (cs : List Host.Cell) (x : Nat) : Byte :=
  match cs with
  | [] => unlistedByte
  | c :: rest => if c.1 = x then c.2 else readCells rest x

/-- The list with one byte changed, kept in canonical form. -/
def writeCells (cs : List Host.Cell) (x : Nat) (v : Byte) : List Host.Cell :=
  match cs with
  | [] => if v = unlistedByte then [] else [(x, v)]
  | c :: rest =>
    if x < c.1 then (if v = unlistedByte then c :: rest else (x, v) :: c :: rest)
    else if c.1 = x then (if v = unlistedByte then rest else (x, v) :: rest)
    else c :: writeCells rest x v

/-- The canonical form of memory: addresses below 2^32, strictly rising, and no entry equal to what an unlisted address reads. -/
abbrev Memory.wf (m : Memory) : Prop :=
  m.cells.Pairwise (fun c d => c.1 < d.1) ∧ ∀ c ∈ m.cells, c.1 < addressSpace ∧ c.2 ≠ unlistedByte

/-- `MemRead(x, 1)` (R13). -/
def Memory.read (m : Memory) (x : Nat) : Byte := readCells m.cells x

/-- `MemWrite(x, 1, v)` (R13). No byte exists at 2^32 or above, and RANGE keeps every command below (log 22). -/
def Memory.write (m : Memory) (x : Nat) (v : Byte) : Memory :=
  if x < addressSpace then ⟨writeCells m.cells x v⟩ else m

/-- `MemReadBytes(x, n)` (R13). -/
def Memory.readBytes (m : Memory) (x n : Nat) : Bytes :=
  match n with
  | 0 => []
  | n + 1 => m.read x :: m.readBytes (x + 1) n

/-- `MemWriteBytes(x, bs)` (R13). -/
def Memory.writeBytes (m : Memory) (x : Nat) (bs : Bytes) : Memory :=
  match bs with
  | [] => m
  | b :: rest => (m.write x b).writeBytes (x + 1) rest

/-- `Elem(base, i)` (R74). -/
def Memory.elem (m : Memory) (p : Params) (base i : Nat) : Nat :=
  leVal (m.readBytes (base + i * p.e) p.e)

/-- `n` bytes from `x` take free values of draw `k`, but for those in `keep` (R236, R272; log 10). -/
def Memory.scramble (m : Memory) (k : Nat) (keep : Region) (x n : Nat) : Memory :=
  match n with
  | 0 => m
  | n + 1 =>
    Memory.scramble (if inRegion keep x then m else m.write x (Config.freeByte k x)) k keep (x + 1) n

/-- Every byte of the region `dst`, but for those in `keep`, takes a free value of draw `k`. -/
def Memory.scrambleRegion (m : Memory) (k : Nat) (keep dst : Region) : Memory :=
  m.scramble k keep dst.lo (min dst.hi addressSpace - dst.lo)

/-! ### Starting and completing a command -/

/-- A CMD write in IDLE (R213, R24): the operands are latched, DONE, ERR, DICT_FULL and ERRCODE are cleared, OVR and RESULT kept,
and the mode becomes BUSY. -/
def startCommand (s : State) (w : Word) : State :=
  { s with
    mode := .busy
    latch := ⟨w, s.srcAddr, s.srcLen, s.dstAddr, s.dstCap⟩
    done := false
    err := false
    dictFull := false
    errcode := .ok }

/-- `finish(v)` (R233, R234). -/
def finish (s : State) (v : Nat) (full : Bool) : State :=
  { s with
    mode := .idle
    done := true
    err := false
    dictFull := full
    errcode := .ok
    result := BitVec.ofNat 32 v }

/-- `raise Error(c)` (R233, R235). -/
def raiseError (s : State) (c : ErrCode) : State :=
  { s with
    mode := .idle
    done := true
    err := true
    dictFull := false
    errcode := c
    result := 0 }

/-- How a command ends: `finish(v)` with its dict_full flag, or `raise Error(c)`; `touched` says that R236 leaves the destination
region unspecified after this error. -/
inductive Verdict where
  | finish (v : Nat) (full : Bool)
  | error (c : ErrCode) (touched : Bool)
  deriving DecidableEq, Repr

/-- A command's run with every memory access answering normally: how it ends, the regions of R79, how many bytes of the source it
read, the bytes it wrote from the destination's start (R80), and the trie after a success and after an error. -/
structure Run where
  verdict : Verdict
  src : Region
  dst : Region
  readLen : Nat
  written : Bytes
  trieOk : Trie
  trieErr : Trie
  deriving DecidableEq, Repr

/-- Every byte access the run makes answers normally (R238). -/
def accessesOk (pf : Platform) (r : Run) : Bool :=
  regionOk pf .read (regionAt r.src.lo r.readLen) && regionOk pf .write (regionAt r.dst.lo r.written.length)

/-- The outcome with bus errors (R238): the run's own when every access answers normally; else BUS after a success, and either
after an error, by a free draw. -/
def busVerdict (s : State) (r : Run) : Verdict :=
  if accessesOk s.platform r then r.verdict
  else match r.verdict with
    | .finish _ _ => .error .bus true
    | .error c touched => if Config.busWins s.draws then .error .bus true else .error c touched

/-- The completion of a run, as one atomic update (R233 to R236). -/
def conclude (s : State) (r : Run) : State :=
  match busVerdict s r with
  | .finish v full =>
    finish { s with mem := s.mem.writeBytes r.dst.lo r.written, trie := r.trieOk, draws := s.draws + 1 } v full
  | .error c touched =>
    raiseError
      { s with
        mem := if touched then s.mem.scrambleRegion s.draws r.src r.dst else s.mem
        trie := r.trieErr
        draws := s.draws + 1 } c

/-- A run that ends at an operand check: no memory access at all (R142, R171, R236). -/
def stopRun (c : ErrCode) (src dst : Region) (t : Trie) : Run :=
  ⟨.error c false, src, dst, 0, [], t, t⟩

end Sys2Proof.Machine
end

