-- ==== Sys2Proof/Machine/Control.lean ====
section
/-! DEFINITION. NOP and illegal command words (`43_control.md` R210, R212). -/

namespace Sys2Proof.Machine

/-- NOP (R210). -/
def execNop (s : State) : Result := .next (finish s 0 false)

/-- An illegal command word completes with ILLEGAL_CMD and changes nothing else (R93, R212). -/
def execIllegal (s : State) : Result := .next (raiseError s .illegalCmd)

end Sys2Proof.Machine
end

