-- ==== Sys2Proof/Machine/Decoder.lean ====
section
/-! DEFINITION. The decoder and DECOMPRESS (`42_decoder.md`). -/

namespace Sys2Proof.Machine

/-- `D[k]` (R58); nothing where D has no such entry. -/
def dictGet (dict : List (Nat × Bytes)) (k : Nat) : Bytes :=
  match dict with
  | [] => []
  | e :: rest => if e.1 = k then e.2 else dictGet rest k

/-- The seeded dictionary: D[k] <- [k − 1] for k = 1..256 (R170 step 1, R176). -/
def seedDict : List (Nat × Bytes) := (List.range seedCount).foldl (fun dict v => (v + 1, [BitVec.ofNat 8 v]) :: dict) []

/-- `first(s)` (R12). -/
def firstByte (s : Bytes) : Byte := s.headD 0

/-- `Emit(s)` (R184, R186): LENGTH before any byte of a string that would pass the header. -/
def emit (h : Nat) (w : DecoderWork) (s : Bytes) : Except ErrCode DecoderWork :=
  if w.output.length + s.length > h then .error .length
  else .ok { w with output := w.output ++ s }

/-- The string a subsequent codeword stands for, the pending new entry and the new `last`: the known case (R180), the unknown case
(R181), or CORRUPT (R179, R182). -/
def resolve (p : Params) (w : DecoderWork) (cw : Nat) : Except ErrCode (Bytes × Bytes × Nat) :=
  if cw = 0 ∨ cw > cwMax p then .error .corrupt
  else if cw < w.nextFree then
    .ok (dictGet w.dict cw, dictGet w.dict w.prev ++ [firstByte (dictGet w.dict cw)], cw)
  else if cw = w.nextFree then
    .ok (dictGet w.dict w.last ++ [firstByte (dictGet w.dict w.last)],
      dictGet w.dict w.last ++ [firstByte (dictGet w.dict w.last)], w.nextFree)
  else .error .corrupt

/-- The append of the pending entry, or its suppression when the dictionary is frozen (R183). -/
def appendEntry (p : Params) (w : DecoderWork) (pending : Bytes) : DecoderWork :=
  if w.nextFree ≤ cwMax p then { w with dict := (w.nextFree, pending) :: w.dict, nextFree := w.nextFree + 1 }
  else { w with dictFull := true }

/-- One subsequent codeword (R170 step 4). An error leaves what was written before it. -/
def decoderElem (p : Params) (h : Nat) (w : DecoderWork) (cw : Nat) : Except ErrCode DecoderWork :=
  match resolve p w cw with
  | .error c => .error c
  | .ok (s, pending, last) =>
    match emit h { w with last := last } s with
    | .error c => .error c
    | .ok w' => .ok { appendEntry p w' pending with prev := cw }

/-- How the decoding ends: its verdict, how many elements it read and what it wrote. -/
structure Decoded where
  verdict : Verdict
  elemsRead : Nat
  output : Bytes
  deriving DecidableEq, Repr

/-- Steps 4 and 5 (R170, R178, R185): `k` elements from element `i` on, then the check of the length. -/
def decoderLoop (p : Params) (h : Nat) (elem : Nat → Nat) (k i : Nat) (w : DecoderWork) : Decoded :=
  match k with
  | 0 =>
    if w.output.length ≠ h then ⟨.error .length true, i, w.output⟩
    else ⟨.finish w.output.length w.dictFull, i, w.output⟩
  | k + 1 =>
    match decoderElem p h w (elem i) with
    | .error c => ⟨.error c true, i + 1, w.output⟩
    | .ok w' => decoderLoop p h elem k (i + 1) w'

/-- The decoder before its first codeword (R170 step 1, R176). -/
def decoderStart : DecoderWork := ⟨seedDict, firstDyn, 0, 0, [], false⟩

/-- Step 3 (R177): the first codeword must be a seed; it is output and no entry is added for it. -/
def decoderFirst (h : Nat) (c1 : Nat) : Except ErrCode DecoderWork :=
  if c1 = 0 ∨ c1 > seedCount then .error .corrupt
  else match emit h decoderStart (dictGet decoderStart.dict c1) with
    | .error c => .error c
    | .ok w => .ok { w with prev := c1, last := c1 }

/-- Step 3 and on: the first codeword, then the subsequent ones. -/
def decoderBody (p : Params) (h : Nat) (elem : Nat → Nat) (n : Nat) : Decoded :=
  match decoderFirst h (elem 1) with
  | .error c => ⟨.error c true, 2, []⟩
  | .ok w => decoderLoop p h elem (n - 2) 2 w

/-- The decoding of a stream of `n ≥ 1` elements into `cap` bytes, from the header on (R170, R173 to R175). -/
def decodeStream (p : Params) (cap : Nat) (elem : Nat → Nat) (n : Nat) : Decoded :=
  let h := elem 0
  if h > cap then ⟨.error .dstCap false, 1, []⟩
  else if n = 1 then (if h = 0 then ⟨.finish 0 false, 1, []⟩ else ⟨.error .length true, 1, []⟩)
  else if h = 0 ∧ n = 2 ∧ elem 1 = 0 then ⟨.finish 0 false, 2, []⟩
  else decoderBody p h elem n

/-- The run of DECOMPRESS (R170 to R172). The trie is neither read nor changed (R192). -/
def decompressRun (p : Params) (t : Trie) (l : Latch) (m : Memory) : Run :=
  let src := srcRegion p .decompress l
  let dst := dstRegion p .decompress l
  if !inRange src || !inRange dst then stopRun .range src dst t
  else if overlaps src dst then stopRun .overlap src dst t
  else if l.n.toNat = 0 then stopRun .corrupt src dst t
  else
    let r := decodeStream p l.cap.toNat (m.elem p l.a.toNat) l.n.toNat
    ⟨r.verdict, src, dst, r.elemsRead * p.e, r.output, t, t⟩

/-- DECOMPRESS (R170). -/
def execDecompress (s : State) : Result :=
  .next (conclude s (decompressRun s.params s.trie s.latch s.mem))

end Sys2Proof.Machine
end

