-- ==== Sys2Proof/Machine/Trie.lean ====
section
/-! DEFINITION. The prefix trie and its four commands (`40_trie.md`). -/

namespace Sys2Proof.Machine

/-- The codeword a list of entries gives a string, 0 where it has none. -/
def cwIn (codes : List (Bytes × Nat)) (k : Bytes) : Nat :=
  match codes with
  | [] => 0
  | e :: rest => if e.1 = k then e.2 else cwIn rest k

/-- `T.cw(k)`, and so `TrieLookup(k)` (R52, R108). -/
def Trie.cw (t : Trie) (k : Bytes) : Nat := cwIn t.codes k

/-- `k ∈ T.nodes` (R51). -/
def Trie.hasNode (t : Trie) (k : Bytes) : Bool := t.nodes.any fun q => q = k

/-- The nonempty beginnings of a string, shortest first. -/
def beginnings (k : Bytes) : List Bytes := (List.range k.length).map fun i => k.take (i + 1)

/-- The nodes the path of `k` still lacks (R109). -/
def Trie.missing (t : Trie) (k : Bytes) : List Bytes := (beginnings k).filter fun q => !t.hasNode q

/-- The four outcomes of `TrieInsert` (R109). -/
inductive InsertOutcome where
  | present (c : Nat)
  | suppressed
  | noSpace
  | assigned (c : Nat)
  deriving DecidableEq, Repr

/-- `TrieInsert(k)` (R109): the outcome and the trie after it. -/
def trieInsert (p : Params) (t : Trie) (k : Bytes) : InsertOutcome × Trie :=
  if t.cw k ≠ 0 then (.present (t.cw k), t)
  else if t.next > cwMax p then (.suppressed, t)
  else if t.nodes.length + (t.missing k).length > p.nodeCap then (.noSpace, t)
  else
    (.assigned t.next,
      { t with
        nodes := t.missing k ++ t.nodes
        codes := (k, t.next) :: t.codes
        next := t.next + 1 })

/-- The fresh trie: live, only the root, no codeword, counter 1 (R110). -/
def Trie.fresh : Trie := ⟨true, [[]], [], 1⟩

/-- TRIE_INIT (R110, R111). -/
def execTrieInit (s : State) : Result :=
  .next (finish { s with trie := Trie.fresh } 0 false)

/-- TRIE_DESTROY (R130). -/
def execTrieDestroy (s : State) : Result :=
  .next (finish { s with trie := Trie.destroyed } 0 false)

/-- The run of TRIE_PUT (R115 to R122). -/
def triePutRun (p : Params) (t : Trie) (l : Latch) (m : Memory) : Run :=
  let src := srcRegion p .triePut l
  if !t.live then stopRun .trieNotLive src emptyRegion t
  else if l.n.toNat = 0 then stopRun .keyLen src emptyRegion t
  else if !inRange src then stopRun .range src emptyRegion t
  else match trieInsert p t (m.readBytes l.a.toNat l.n.toNat) with
    | (.present c, t') => ⟨.finish c false, src, emptyRegion, l.n.toNat, [], t', t⟩
    | (.suppressed, t') => ⟨.finish 0 true, src, emptyRegion, l.n.toNat, [], t', t⟩
    | (.noSpace, _) => ⟨.error .trieFull false, src, emptyRegion, l.n.toNat, [], t, t⟩
    | (.assigned c, t') => ⟨.finish c false, src, emptyRegion, l.n.toNat, [], t', t⟩

/-- TRIE_PUT (R115). -/
def execTriePut (s : State) : Result :=
  .next (conclude s (triePutRun s.params s.trie s.latch s.mem))

/-- The run of TRIE_GET (R125, R126). -/
def trieGetRun (p : Params) (t : Trie) (l : Latch) (m : Memory) : Run :=
  let src := srcRegion p .trieGet l
  if !t.live then stopRun .trieNotLive src emptyRegion t
  else if !inRange src then stopRun .range src emptyRegion t
  else ⟨.finish (t.cw (m.readBytes l.a.toNat l.n.toNat)) false, src, emptyRegion, l.n.toNat, [], t, t⟩

/-- TRIE_GET (R125). -/
def execTrieGet (s : State) : Result :=
  .next (conclude s (trieGetRun s.params s.trie s.latch s.mem))

end Sys2Proof.Machine
end

