-- ==== Sys2Proof/Machine/Encoder.lean ====
section
/-! DEFINITION. The encoder and COMPRESS (`41_encoder.md`). -/

namespace Sys2Proof.Machine

/-- The one-byte string of a byte value. -/
def seedKey (v : Nat) : Bytes := [BitVec.ofNat 8 v]

/-- Step 1, as R140 writes it: the 256 one-byte strings are put into a fresh trie, in increasing byte value. -/
def seedByPuts (p : Params) : Trie :=
  (List.range seedCount).foldl (fun t v => (trieInsert p t (seedKey v)).2) Trie.fresh

/-- The seeded trie (R145): byte value v has codeword v + 1, the counter stands at 257, and there are 257 nodes. It is
`seedByPuts` for every legal instance (`seedTrie_eq_seedByPuts`), written out so that it computes at once. -/
def seedTrie : Trie :=
  { live := true
    nodes := ((List.range seedCount).map seedKey).reverse ++ [[]]
    codes := ((List.range seedCount).map fun v => (seedKey v, v + 1)).reverse
    next := firstDyn }

/-- The encoder before the first byte (R140). -/
def encoderStart : EncoderWork := ⟨seedTrie, [], [], false⟩

/-- One byte of the scan: keep the extended candidate if it is a complete entry; otherwise emit the candidate's codeword, insert
the extended candidate and restart from the byte (R140, R146). -/
def encoderByte (p : Params) (w : EncoderWork) (b : Byte) : EncoderWork :=
  if w.trie.cw (w.cand ++ [b]) ≠ 0 then { w with cand := w.cand ++ [b] }
  else
    { trie := (trieInsert p w.trie (w.cand ++ [b])).2
      cand := [b]
      out := w.out ++ [w.trie.cw w.cand]
      dictFull := w.dictFull || (trieInsert p w.trie (w.cand ++ [b])).1 == .suppressed }

/-- The scan of the whole input (R140 steps 2 and 3). -/
def encoderScan (p : Params) (input : Bytes) : EncoderWork :=
  input.foldl (encoderByte p) encoderStart

/-- All emitted codewords, the trailing one included (R140 step 4, R147). -/
def emitted (w : EncoderWork) : List Nat := w.out ++ [w.trie.cw w.cand]

/-- The stream COMPRESS writes: the header and the emitted codewords (R148). -/
def encodedStream (p : Params) (input : Bytes) : List Nat :=
  input.length :: emitted (encoderScan p input)

/-- The run of COMPRESS (R140, R142). The trie ends destroyed in every outcome (R150). -/
def compressRun (p : Params) (l : Latch) (m : Memory) : Run :=
  let src := srcRegion p .compress l
  let dst := dstRegion p .compress l
  if !inRange src || !inRange dst then stopRun .range src dst Trie.destroyed
  else if overlaps src dst then stopRun .overlap src dst Trie.destroyed
  else if l.n.toNat > elemMax p then stopRun .lenTooLarge src dst Trie.destroyed
  else if l.cap.toNat < max l.n.toNat 1 + 1 then stopRun .dstCap src dst Trie.destroyed
  else
    let input := m.readBytes l.a.toNat l.n.toNat
    let stream := encodedStream p input
    ⟨.finish stream.length (encoderScan p input).dictFull, src, dst, l.n.toNat, streamBytes p stream, Trie.destroyed,
      Trie.destroyed⟩

/-- COMPRESS (R140). -/
def execCompress (s : State) : Result :=
  .next (conclude s (compressRun s.params s.latch s.mem))

end Sys2Proof.Machine
end

