-- ==== Sys2Proof/Machine/Dispatch.lean ====
section
/-! DEFINITION. One arm per command: its meaning. -/

namespace Sys2Proof.Machine

/-- The meaning of a command: the state after its completion, from a state in which its operands are latched. -/
def exec (i : Instr) (s : State) : Host.Outcome State Fault Refusal :=
  match i with
  | .nop => Sys2Proof.Machine.execNop s
  | .trieInit => Sys2Proof.Machine.execTrieInit s
  | .triePut => Sys2Proof.Machine.execTriePut s
  | .trieGet => Sys2Proof.Machine.execTrieGet s
  | .trieDestroy => Sys2Proof.Machine.execTrieDestroy s
  | .compress => Sys2Proof.Machine.execCompress s
  | .decompress => Sys2Proof.Machine.execDecompress s

end Sys2Proof.Machine
end

