-- ==== Sys2Proof/Machine/Engine.lean ====
section
/-! DEFINITION. The engine's turn, and whose turn it is (`10_state.md` R23, `60_exceptions.md` R233, `70_reset_and_hazards.md`
R290). -/

namespace Sys2Proof.Machine

/-- A command is running: the engine can complete it. While `rst` is asserted no command runs (R270). -/
def engineEnabled (s : State) : Bool := s.mode == .busy && !s.rst

/-- The engine runs the latched command word to its completion (R92, R212, R233). -/
def runLatched (s : State) : Result :=
  match decodeWord s.latch.word with
  | .ok i => exec i s
  | .error _ => execIllegal s

/-- The engine's turn: it completes a running command, and does nothing when none runs. -/
def engineTurn (s : State) : Result := if engineEnabled s then runLatched s else .next s

/-- Whose turn is next: as `schedule` says, and when it is used up, the engine's while a command runs, so that a started command
always completes (R233, R290; log 9). -/
def nextTurn (s : State) : Turn :=
  match s.schedule with
  | t :: _ => t
  | [] => if engineEnabled s then .engine else .host

end Sys2Proof.Machine
end

