-- ==== Sys2Proof/Machine/HostPort.lean ====
section
/-! DEFINITION. The outside world's turn: register-port transactions (`43_control.md` R213 to R219), the host's own accesses to
system memory (`20_memory.md` R82), `rst` (`70_reset_and_hazards.md` R270 to R273), and the host assembly of `30_encoding.md` R95
and R96. -/

namespace Sys2Proof.Machine

/-- The effect of a host write of `v` to a register (R213 to R216, R26, R27). -/
def writeReg (s : State) (r : Reg) (v : Word) : State :=
  match r with
  | .cmd => match s.mode with
    | .idle => startCommand s v
    | .busy => { s with ovr := true }
  | .status => writeStatus s v
  | .irqEn => { s with doneIe := v.getLsbD 0 }
  | .srcAddr => { s with srcAddr := v }
  | .srcLen => { s with srcLen := v }
  | .dstAddr => { s with dstAddr := v }
  | .dstCap => { s with dstCap := v }
  | .id => s
  | .param => s
  | .nodeCap => s
  | .result => s
  | .nextCw => s
  | .nodeCount => s
  | .reserved34 => s
  | .reserved38 => s
  | .reserved3C => s

/-- A register-port access that has a meaning: `rst` is not asserted (R273) and the access is a defined one (R218). -/
def portReg (s : State) (addr bits : Nat) : Except Refusal Reg :=
  if s.rst then .error .accessInReset
  else match regOfAccess s.platform addr bits with
    | some r => .ok r
    | none => .error .badRegisterAccess

/-- The write would start a command one of whose regions is not ordinary memory (R283; log 4). -/
def startsOnDevice (s : State) (r : Reg) (v : Word) : Bool :=
  r == .cmd && s.mode == .idle &&
    (touchesDevice s.platform (latchSrc s.params (startCommand s v).latch)
      || touchesDevice s.platform (latchDst s.params (startCommand s v).latch))

/-- A host register write (R214). -/
def hostWrite (s : State) (addr bits : Nat) (v : Word) : Result :=
  match portReg s addr bits with
  | .error e => .refused e
  | .ok r => if startsOnDevice s r v then .refused .deviceRegion else .next (writeReg s r v)

/-- The host records a register's value. The register itself does not change (R217); the counter of free values moves on, since a
second read while BUSY may return something else (log 12). -/
def observeReg (s : State) (r : Reg) : State :=
  { s with observed := s.observed ++ [.reg r (readReg s r)], draws := s.draws + 1 }

/-- A host register read (R217). -/
def hostRead (s : State) (addr bits : Nat) : Result :=
  match portReg s addr bits with
  | .error e => .refused e
  | .ok r => .next (observeReg s r)

/-- One round of WAIT (R96): read STATUS; while BUSY is 1 the host stays at the WAIT. -/
def hostWait (s : State) : Result :=
  if s.rst then .refused .accessInReset
  else if busyBit s then .next { observeReg s .status with program := .wait :: s.program }
  else .next (observeReg s .status)

/-- The host's own write to system memory. It may not touch a running command's regions (R82, R281). No bus error of R70 meets it:
`bus_ok` is stated for the memory port, and the host reaches memory by its own means (R71). DESIGN CHOICE (log 24). -/
def hostMemWrite (s : State) (addr : Nat) (bytes : Bytes) : Result :=
  let r := regionAt addr bytes.length
  if !inRange r then .fault .noSuchAddress
  else if touchesDevice s.platform r then .refused .deviceRegion
  else if busyBit s && (overlaps r (latchSrc s.params s.latch) || overlaps r (latchDst s.params s.latch)) then
    .refused .hostTouchesRegion
  else .next { s with mem := s.mem.writeBytes addr bytes }

/-- The host's own read of system memory. It may not touch a running command's destination region (R82, R281). No bus error meets it,
as for a write. DESIGN CHOICE (log 24). -/
def hostMemRead (s : State) (addr n : Nat) : Result :=
  let r := regionAt addr n
  if !inRange r then .fault .noSuchAddress
  else if touchesDevice s.platform r then .refused .deviceRegion
  else if busyBit s && overlaps r (latchDst s.params s.latch) then .refused .hostTouchesRegion
  else .next { s with observed := s.observed ++ [.mem addr (s.mem.readBytes addr n)] }

/-- `rst` is asserted (R270): every piece of the core's state takes its reset value. A running command is abandoned, and its
destination region, but for bytes of its source region, becomes unspecified (R272; log 19). Constants, memory and the outside world
are no part of the core. -/
def assertRst (s : State) : State :=
  { State.reset with
    params := s.params
    platform := s.platform
    rst := true
    mem := if busyBit s then s.mem.scrambleRegion s.draws (latchSrc s.params s.latch) (latchDst s.params s.latch) else s.mem
    program := s.program
    observed := s.observed
    schedule := s.schedule
    draws := s.draws + 1 }

/-- `rst` is deasserted (R270, R271): the core is at once ready. -/
def deassertRst (s : State) : State := { s with rst := false }

/-- One operation of the outside world, already taken off `program`. -/
def hostOp (s : State) (op : HostOp) : Result :=
  match op with
  | .write addr bits v => hostWrite s addr bits v
  | .read addr bits => hostRead s addr bits
  | .wait => hostWait s
  | .memWrite addr bytes => hostMemWrite s addr bytes
  | .memRead addr n => hostMemRead s addr n
  | .assertRst => .next (assertRst s)
  | .deassertRst => .next (deassertRst s)

/-- The host's turn: its next operation, or nothing when it has none (log 17). -/
def hostTurn (s : State) : Result :=
  match s.program with
  | [] => .next s
  | op :: rest => hostOp { s with program := rest } op

/-! ### Host assembly (R95, R96) -/

/-- The statements and pseudo-instructions of R95 and R96. -/
inductive Stmt where
  | wr (r : Reg) (v : Word)
  | rd (r : Reg)
  | mem (addr : Nat) (bytes : Bytes)
  | cmd (i : Instr)
  | wait
  | ack
  | ackAll
  | setSrc (a n : Word)
  | setDst (d cap : Word)
  deriving DecidableEq, Repr

/-- A 32-bit write of a register (R95). -/
def wrOp (pf : Platform) (r : Reg) (v : Word) : HostOp := .write (pf.regBase + regOffset r) 32 v

/-- The operations a statement stands for (R95, R96). -/
def expandStmt (pf : Platform) (st : Stmt) : List HostOp :=
  match st with
  | .wr r v => [wrOp pf r v]
  | .rd r => [.read (pf.regBase + regOffset r) 32]
  | .mem addr bytes => [.memWrite addr bytes]
  | .cmd i => [wrOp pf .cmd (encode i)]
  | .wait => [.wait]
  | .ack => [wrOp pf .status 0x00000002]
  | .ackAll => [wrOp pf .status 0x00000022]
  | .setSrc a n => [wrOp pf .srcAddr a, wrOp pf .srcLen n]
  | .setDst d cap => [wrOp pf .dstAddr d, wrOp pf .dstCap cap]

/-- The statement initialises memory, which happens before the program's first register transaction (R95). -/
def isMemStmt (st : Stmt) : Bool :=
  match st with
  | .mem _ _ => true
  | .wr _ _ => false
  | .rd _ => false
  | .cmd _ => false
  | .wait => false
  | .ack => false
  | .ackAll => false
  | .setSrc _ _ => false
  | .setDst _ _ => false

/-- A host program, as the operations of the outside world still to come (R95). -/
def loadProgram (s : State) (prog : List Stmt) : State :=
  { s with
    program := s.program ++
      (prog.filter isMemStmt ++ prog.filter fun st => !isMemStmt st).flatMap (expandStmt s.platform) }

end Sys2Proof.Machine
end

