-- ==== Sys2Proof/Machine/Step.lean ====
section
/-! DEFINITION. One step: a turn of the engine or one operation of the outside world, never both (`43_control.md` R219). -/

namespace Sys2Proof.Machine

/-- One step of the machine: the agent whose turn it is moves, and the turn is used up. -/
def step (s : State) : Host.Outcome State Fault Refusal :=
  match nextTurn s with
  | .engine => engineTurn { s with schedule := s.schedule.tail }
  | .host => hostTurn { s with schedule := s.schedule.tail }

/-- `s` with a command word placed where the engine takes its next command: latched as the CMD write of R213 latches it, with `rst`
deasserted and the engine's turn next. No memory holds commands (R84); log 18. -/
def State.withFetchWord (s : State) (nbits w : Nat) : State :=
  { startCommand s (BitVec.ofNat 32 (w % 2 ^ nbits)) with rst := false, schedule := .engine :: s.schedule }

end Sys2Proof.Machine
end

