-- ==== Sys2Proof/WellFormed.lean ====
section
/-! DEFINITION. Well-formedness: of a command (no operand fields, so nothing can be wrong in one, `30_encoding.md` R94), of an
instance's parameters (`00_scope.md` R8) and of a register-port access (`43_control.md` R218). -/

namespace Sys2Proof

/-- A command has no immediate and no register-number field (R94): every one is well formed. -/
def Instr.wf (i : Instr) : Bool :=
  match i with
  | .nop => true
  | .trieInit => true
  | .triePut => true
  | .trieGet => true
  | .trieDestroy => true
  | .compress => true
  | .decompress => true

/-- The legal values of the parameters (R8): 9 ≤ W ≤ 24 and W ≤ 8·E; E is 2 or 4; 2^W ≤ NODE_CAP ≤ 2^32 − 1. -/
abbrev Params.Legal (p : Params) : Prop :=
  9 ≤ p.w ∧ p.w ≤ 24 ∧ p.w ≤ 8 * p.e ∧ (p.e = 2 ∨ p.e = 4) ∧ 2 ^ p.w ≤ p.nodeCap ∧ p.nodeCap < addressSpace

/-- The only defined register-port access (R218): 32 bits wide, at an offset in 0x00..0x3C that is a multiple of 4. -/
def regAccessWf (offset bits : Nat) : Bool :=
  bits == 32 && offset ≤ 0x3C && offset % 4 == 0

end Sys2Proof
end

