-- ==== Sys2Proof/Safety.lean ====
section
/-! DEFINITION. What counts as a good state and a good run, in the terms the claims use. -/

namespace Sys2Proof

open Sys2Proof.Machine

/-- The trie invariants of R51 to R54. -/
structure TrieOk (p : Params) (t : Trie) : Prop where
  /-- When not live the trie is empty and its counter is 1 (R51, R53). -/
  dead : t.live = false → t.nodes = [] ∧ t.codes = [] ∧ t.next = 1
  /-- When live the root is a node (R51, R54 c). -/
  root : t.live = true → [] ∈ t.nodes
  /-- No node is listed twice, so the length of the list is |T.nodes|. -/
  nodup : t.nodes.Nodup
  /-- Every beginning of a node is a node (R51, R54 c). -/
  closed : ∀ k i, k ∈ t.nodes → k.take i ∈ t.nodes
  /-- |T.nodes| ≤ NODE_CAP (R51). -/
  cap : t.nodes.length ≤ p.nodeCap
  /-- Every complete entry is a node (R52, R54 b). -/
  entryIsNode : ∀ k, t.cw k ≠ 0 → k ∈ t.nodes
  /-- The root never holds a codeword (R52). -/
  rootUnset : t.cw [] = 0
  /-- The counter is in 1..2^W (R53). -/
  nextLow : 1 ≤ t.next
  nextHigh : t.next ≤ 2 ^ p.w
  /-- Codewords in use are below the counter (R54 a). -/
  below : ∀ k, t.cw k < t.next
  /-- Each of 1..T.next − 1 is the codeword of exactly one string (R54 a). -/
  taken : ∀ c, 1 ≤ c → c < t.next → ∃! k, t.cw k = c

/-- STATUS and RESULT agree with each other: ERR says that ERRCODE is an error (R234, R235), an error leaves RESULT and DICT_FULL
at 0 (R235), and a running command has cleared DONE, ERR and DICT_FULL (R213). -/
structure StatusOk (s : State) : Prop where
  errIff : s.err = true ↔ s.errcode ≠ .ok
  errZero : s.err = true → s.result = 0 ∧ s.dictFull = false
  busyClear : s.mode = .busy → s.done = false ∧ s.err = false ∧ s.dictFull = false

/-- While `rst` is asserted the core holds its reset values (R270, R65). -/
structure ResetHeld (s : State) : Prop where
  mode : s.mode = .idle
  flags : s.done = false ∧ s.err = false ∧ s.dictFull = false ∧ s.ovr = false ∧ s.errcode = .ok ∧ s.doneIe = false
  operands : s.srcAddr = 0 ∧ s.srcLen = 0 ∧ s.dstAddr = 0 ∧ s.dstCap = 0
  result : s.result = 0
  trie : s.trie = Trie.destroyed

/-- The invariant of the whole machine. -/
structure StateInv (s : State) : Prop where
  legal : s.params.Legal
  mem : s.mem.wf
  trie : TrieOk s.params s.trie
  status : StatusOk s
  inReset : s.rst = true → ResetHeld s

/-- Two states agree on everything a command must leave alone whatever it does: constants, latched and host-written registers, OVR,
`rst`, and the outside world. -/
structure SameOutside (s t : State) : Prop where
  params : t.params = s.params
  platform : t.platform = s.platform
  latch : t.latch = s.latch
  ovr : t.ovr = s.ovr
  doneIe : t.doneIe = s.doneIe
  srcAddr : t.srcAddr = s.srcAddr
  srcLen : t.srcLen = s.srcLen
  dstAddr : t.dstAddr = s.dstAddr
  dstCap : t.dstCap = s.dstCap
  rst : t.rst = s.rst
  program : t.program = s.program
  observed : t.observed = s.observed
  schedule : t.schedule = s.schedule

/-- The command ended with success: the STATUS bits of R234 with this RESULT and DICT_FULL. -/
structure Succeeded (t : State) (v : Nat) (full : Bool) : Prop where
  mode : t.mode = .idle
  done : t.done = true
  err : t.err = false
  errcode : t.errcode = .ok
  dictFull : t.dictFull = full
  result : t.result = BitVec.ofNat 32 v

/-- The command ended with an error: the STATUS bits and RESULT of R235. -/
structure FailedWith (t : State) (c : ErrCode) : Prop where
  mode : t.mode = .idle
  done : t.done = true
  err : t.err = true
  errcode : t.errcode = c
  dictFull : t.dictFull = false
  result : t.result = 0

/-- Every access of the platform answers normally in these source and destination bytes. -/
abbrev BusFree (s : State) (src dst : Region) : Prop :=
  (∀ x, src.lo ≤ x → x < src.hi → busOk s.platform .read x = true) ∧
    ∀ x, dst.lo ≤ x → x < dst.hi → busOk s.platform .write x = true

/-- The bytes of a byte-string source region: the input of COMPRESS, the key of TRIE_PUT and TRIE_GET (R79). -/
def sourceBytes (s : State) : Bytes := s.mem.readBytes s.latch.a.toNat s.latch.n.toNat

/-- Element `i` of the stream a DECOMPRESS reads (R74). -/
def sourceElem (s : State) (i : Nat) : Nat := s.mem.elem s.params s.latch.a.toNat i

/-- Every access to the command's regions answers normally. -/
abbrev BusFreeFor (i : Instr) (s : State) : Prop :=
  BusFree s (srcRegion s.params i s.latch) (dstRegion s.params i s.latch)

/-- The same machine on a platform without bus errors. -/
def withoutBusErrors (s : State) : State := { s with platform := { s.platform with busErrors := [] } }

/-- A COMPRESS whose operand checks all pass (R140, R142 to R144). -/
structure CompressReady (s : State) : Prop where
  src : s.latch.a.toNat + s.latch.n.toNat ≤ addressSpace
  dst : s.latch.d.toNat + s.latch.cap.toNat * s.params.e ≤ addressSpace
  apart : overlaps (srcRegion s.params .compress s.latch) (dstRegion s.params .compress s.latch) = false
  len : s.latch.n.toNat ≤ elemMax s.params
  cap : max s.latch.n.toNat 1 + 1 ≤ s.latch.cap.toNat

/-- A DECOMPRESS whose operand checks pass, up to its header (R170 to R172). -/
structure DecompressReady (s : State) : Prop where
  src : s.latch.a.toNat + s.latch.n.toNat * s.params.e ≤ addressSpace
  dst : s.latch.d.toNat + s.latch.cap.toNat ≤ addressSpace
  apart : overlaps (srcRegion s.params .decompress s.latch) (dstRegion s.params .decompress s.latch) = false
  len : 1 ≤ s.latch.n.toNat

/-- How the decoding of a DECOMPRESS whose operand checks pass goes (R170). -/
def decoded (s : State) : Decoded := decodeStream s.params s.latch.cap.toNat (sourceElem s) s.latch.n.toNat

/-- The run of the command without bus errors reads the byte at `x`: the reads of A (R80, R238). A run that ends at an operand check
reads none; DECOMPRESS reads the elements up to the one at which it stops. -/
def ReadsByte (i : Instr) (s : State) (x : Nat) : Prop :=
  match i with
  | .nop => False
  | .trieInit => False
  | .triePut => s.trie.live = true ∧ 1 ≤ s.latch.n.toNat ∧ s.latch.a.toNat + s.latch.n.toNat ≤ addressSpace ∧
      s.latch.a.toNat ≤ x ∧ x < s.latch.a.toNat + s.latch.n.toNat
  | .trieGet => s.trie.live = true ∧ s.latch.a.toNat + s.latch.n.toNat ≤ addressSpace ∧
      s.latch.a.toNat ≤ x ∧ x < s.latch.a.toNat + s.latch.n.toNat
  | .trieDestroy => False
  | .compress => CompressReady s ∧ s.latch.a.toNat ≤ x ∧ x < s.latch.a.toNat + s.latch.n.toNat
  | .decompress => DecompressReady s ∧ s.latch.a.toNat ≤ x ∧ x < s.latch.a.toNat + (decoded s).elemsRead * s.params.e

/-- The run of the command without bus errors writes the byte at `x`: the writes of A (R80, R238). COMPRESS writes the elements of its
stream, DECOMPRESS the strings it outputs before it stops. -/
def WritesByte (i : Instr) (s : State) (x : Nat) : Prop :=
  match i with
  | .nop => False
  | .trieInit => False
  | .triePut => False
  | .trieGet => False
  | .trieDestroy => False
  | .compress => CompressReady s ∧ s.latch.d.toNat ≤ x ∧
      x < s.latch.d.toNat + (encodedStream s.params (sourceBytes s)).length * s.params.e
  | .decompress => DecompressReady s ∧ s.latch.d.toNat ≤ x ∧ x < s.latch.d.toNat + (decoded s).output.length

/-- Every access in A answers normally (R238). -/
abbrev AccessesAnswer (i : Instr) (s : State) : Prop :=
  (∀ x, ReadsByte i s x → busOk s.platform .read x = true) ∧ ∀ x, WritesByte i s x → busOk s.platform .write x = true

/-- The bytes of the first `k` elements of the stream answer reads normally. -/
abbrev ElementsReadable (s : State) (k : Nat) : Prop :=
  ∀ x, s.latch.a.toNat ≤ x → x < s.latch.a.toNat + k * s.params.e → busOk s.platform .read x = true

/-- The first `k` bytes of the destination answer writes normally. -/
abbrev OutputWritable (s : State) (k : Nat) : Prop :=
  ∀ x, s.latch.d.toNat ≤ x → x < s.latch.d.toNat + k → busOk s.platform .write x = true

/-- The elements of the stream from `i` up to and without `j`. -/
def elementsFrom (s : State) (i j : Nat) : List Nat := (List.range' i (j - i)).map (sourceElem s)

/-- The bytes `bs` stand in memory from address `x` on. -/
abbrev HoldsBytes (m : Memory) (x : Nat) (bs : Bytes) : Prop :=
  ∀ i, i < bs.length → m.read (x + i) = bs.getD i 0

/-- Memory reads the same outside a region. -/
abbrev SameMemOutside (m m' : Memory) (r : Region) : Prop :=
  ∀ x, ¬(r.lo ≤ x ∧ x < r.hi) → m'.read x = m.read x

end Sys2Proof
end

