-- ==== Sys2Proof/Certificates/Slice0/Obligations.lean ====
section
/-! DEFINITION. The statements for the provers. Each says which rule of the spec it formalises. A free value (`Config.freeByte`,
`Config.busWins`, `Config.busyTrieLive`, `Config.busyNextCw`, `Config.busyNodeCount`) stands for every value it can take. -/

open Sys2Proof Sys2Proof.Machine

/-! ### Command words and steps -/

/-- R91: a word selects a command exactly when it equals the row's match value, all 32 bits compared; so decoding what `encode`
writes gives the command back, and no other word does. -/
def Obligations.CommandSelectedExactlyByItsWord : Prop :=
  ∀ w : Word, (∀ i, decodeWord w = .ok i ↔ w = encode i) ∧
    (decodeWord w = .ok .nop ↔ w = 0x00000000#32) ∧ (decodeWord w = .ok .trieInit ↔ w = 0x00000001#32) ∧
      (decodeWord w = .ok .triePut ↔ w = 0x00000002#32) ∧ (decodeWord w = .ok .trieGet ↔ w = 0x00000003#32) ∧
      (decodeWord w = .ok .trieDestroy ↔ w = 0x00000004#32) ∧ (decodeWord w = .ok .compress ↔ w = 0x00000010#32) ∧
      (decodeWord w = .ok .decompress ↔ w = 0x00000011#32)

/-- R91, sanity: the words of three rows, and two words that differ from a row in one reserved bit (test vectors CT5, CT6). -/
def Obligations.SampleWordsDecode : Prop :=
  decodeWord 0x00000001#32 = .ok .trieInit ∧ decodeWord 0x00000010#32 = .ok .compress ∧
    decodeWord 0x00000011#32 = .ok .decompress ∧ decodeWord 0x00000101#32 = .error .reservedBits ∧
    decodeWord 0x80000001#32 = .error .reservedBits ∧ decodeWord 0x00000012#32 = .error .unassignedOpcode

/-- R92: decoding is total; a word equal to a command's match value is that command, and every other word is illegal. The illegal
words are those with RSV ≠ 0 and those with OPC in 0x05–0x0F or 0x12–0xFF (the first sentence of R93). -/
def Obligations.IllegalWordsAreTheUnassignedOnes : Prop :=
  ∀ w : Word,
    (∀ i, w = encode i → decodeWord w = .ok i) ∧ ((¬∃ i, w = encode i) → ∃ x, decodeWord w = .error x) ∧
    ((∃ x, decodeWord w = .error x) ↔
      256 ≤ w.toNat ∨ (0x05 ≤ w.toNat ∧ w.toNat ≤ 0x0F) ∨ (0x12 ≤ w.toNat ∧ w.toNat ≤ 0xFF))

/-- A step runs the latched command: at the engine's turn, with a command running and its word decoded to `i`, the step is `exec i`,
with the turn used up. In the state `withFetchWord` builds, the very next step is that. The turn (log 9), the latch of the whole word
(log 7) and `withFetchWord` (log 18) are the model's. -/
def Obligations.StepRunsTheLatchedCommand : Prop :=
  (∀ (s : State) (i : Instr), s.mode = .busy → s.rst = false → nextTurn s = .engine → decodeWord s.latch.word = .ok i →
    step s = exec i { s with schedule := s.schedule.tail }) ∧
  ∀ (s : State) (i : Instr),
    step (s.withFetchWord 32 (encode i).toNat) = exec i { startCommand s (encode i) with rst := false, schedule := s.schedule }

/-- R219: a host turn carries out exactly the host's next operation, and no completion. -/
def Obligations.HostTurnCarriesOutOneOperation : Prop :=
  ∀ (s : State) (op : HostOp) (rest : List HostOp), nextTurn s = .host → s.program = op :: rest →
    step s = hostOp { s with schedule := s.schedule.tail, program := rest } op

/-- R212: an illegal word starts a command like any other, which completes with ILLEGAL_CMD; RESULT 0, ERR 1, ERRCODE 0x01,
DICT_FULL 0, DONE 1; it leaves T and memory unchanged, and what it leaves is the same whatever the latched operands and memory are.
-/
def Obligations.IllegalWordCompletesWithIllegalCmd : Prop :=
  (∀ (s : State) (w : Word), s.mode = .idle → (∃ x, decodeWord w = .error x) →
    writeReg s .cmd w = startCommand s w ∧ (writeReg s .cmd w).mode = .busy ∧
      ∃ x, decodeWord (writeReg s .cmd w).latch.word = .error x) ∧
  ∀ s : State, (∃ x, decodeWord s.latch.word = .error x) → s.mode = .busy → s.rst = false → nextTurn s = .engine →
    ∃ t, step s = .next t ∧ FailedWith t .illegalCmd ∧ errByte t.errcode = 0x01#8 ∧ t.trie = s.trie ∧ t.mem = s.mem ∧
      SameOutside { s with schedule := s.schedule.tail } t ∧ t.draws = s.draws ∧
      ∀ (l : Latch) (m : Memory), l.word = s.latch.word →
        step { s with latch := l, mem := m } = .next { t with latch := l, mem := m }

/-- R96, R219, R233, R290: a host that waits sees the running command complete: whatever finite delay the schedule holds, after it
the engine completes the command while the host stands at its WAIT; the next round of the WAIT reads STATUS with BUSY 0 and DONE 1,
and the host goes on. The delay as a list of turns is the model's own (log 9). -/
def Obligations.WaitingHostSeesTheCompletion : Prop :=
  ∀ (k : Nat) (s : State) (rest : List HostOp), s.mode = .busy → s.rst = false → s.schedule = List.replicate k .host →
    s.program = .wait :: rest →
    ∃ t v, Host.Core.run core (k + 1) s = .next t ∧ t.mode = .idle ∧ t.done = true ∧ t.program = .wait :: rest ∧
      Host.Core.run core (k + 2) s = .next
        { t with program := rest, observed := t.observed ++ [.reg .status v], draws := t.draws + 1 } ∧
      v.getLsbD 0 = false ∧ v.getLsbD 1 = true ∧ v = readReg t .status

/-! ### Registers and the register port -/

/-- R65: asserting `rst` gives every piece of the core's state its reset value; the constants stay; memory of an idle core stays. -/
def Obligations.ResetGivesEveryRegisterItsValue : Prop :=
  ∀ s : State, ∃ t, hostOp s .assertRst = .next t ∧ t.mode = .idle ∧ readReg t .id = 0x4C5A5701#32 ∧
    t.params = s.params ∧ readReg t .status = 0#32 ∧ readReg t .irqEn = 0#32 ∧ readReg t .srcAddr = 0#32 ∧
    readReg t .srcLen = 0#32 ∧ readReg t .dstAddr = 0#32 ∧ readReg t .dstCap = 0#32 ∧ readReg t .result = 0#32 ∧
    t.trie.live = false ∧ t.trie.nodes = [] ∧ (∀ k, t.trie.cw k = 0) ∧ t.trie.next = 1 ∧ readReg t .nextCw = 1#32 ∧
    readReg t .nodeCount = 0#32 ∧ irq t = false ∧ (s.mode = .idle → t.mem = s.mem)

/-- R272: a reset while a command runs abandons it: DONE and RESULT 0, the trie not live, every byte outside the abandoned command's
destination region and every byte of its source region unchanged, and every other byte of the destination region a free value
(log 10). That a byte of both regions keeps its value, and takes no free value, is the model's reading of R272 (log 19). -/
def Obligations.ResetMidCommandAbandonsIt : Prop :=
  ∀ s : State, s.mode = .busy → s.mem.wf →
    ∃ t, hostOp s .assertRst = .next t ∧ t.mode = .idle ∧ t.done = false ∧ t.result = 0#32 ∧ t.trie.live = false ∧
      SameMemOutside s.mem t.mem (latchDst s.params s.latch) ∧
      (∀ x, inRegion (latchSrc s.params s.latch) x = true → t.mem.read x = s.mem.read x) ∧
      ∀ x, inRegion (latchDst s.params s.latch) x = true → inRegion (latchSrc s.params s.latch) x = false →
        x < addressSpace → t.mem.read x = Config.freeByte s.draws x

/-- R32 to R38: the bits of STATUS. -/
def Obligations.StatusWordLayout : Prop :=
  ∀ s : State,
    (readReg s .status).getLsbD 0 = (s.mode == .busy) ∧ (readReg s .status).getLsbD 1 = s.done ∧
      (readReg s .status).getLsbD 2 = s.err ∧ (readReg s .status).getLsbD 3 = s.dictFull ∧
      (s.mode = .idle → (readReg s .status).getLsbD 4 = s.trie.live) ∧ (readReg s .status).getLsbD 5 = s.ovr ∧
      (readReg s .status).extractLsb' 8 8 = errByte s.errcode ∧
      ∀ k, (k = 6 ∨ k = 7 ∨ 16 ≤ k) → (readReg s .status).getLsbD k = false

/-- R29: PARAM reads W in [4:0], E in [10:8] and 0 elsewhere, and no step changes it. -/
def Obligations.ParamRegisterLayout : Prop :=
  ∀ s : State, s.params.Legal →
    ((readReg s .param).extractLsb' 0 5).toNat = s.params.w ∧ (readReg s .param).extractLsb' 5 3 = 0#3 ∧
      ((readReg s .param).extractLsb' 8 3).toNat = s.params.e ∧ (readReg s .param).extractLsb' 11 21 = 0#21 ∧
      ∀ t, step s = .next t → readReg t .param = readReg s .param

/-- R28, R30, R45, R46: ID and NODE_CAP read the constants, and in IDLE NEXT_CW reads T.next, in 1..2^W, and NODE_COUNT the number
of nodes, in 0..NODE_CAP; none is cut to 32 bits. -/
def Obligations.TrieRegistersReadTheTrie : Prop :=
  ∀ s : State, s.params.Legal → TrieOk s.params s.trie → s.mode = .idle →
    readReg s .id = 0x4C5A5701#32 ∧ (readReg s .nodeCap).toNat = s.params.nodeCap ∧
      (readReg s .nextCw).toNat = s.trie.next ∧ 1 ≤ s.trie.next ∧ s.trie.next ≤ 2 ^ s.params.w ∧
      (readReg s .nodeCount).toNat = s.trie.nodes.length ∧ s.trie.nodes.length ≤ s.params.nodeCap

/-- R213: a CMD write while IDLE latches the operands, clears DONE, ERR, DICT_FULL and ERRCODE, keeps OVR and RESULT, and makes the
core BUSY; nothing else changes. That the latch keeps the whole 32-bit word, of which R24 names CMD[7:0], is the model's inference from
R92 and R213 (log 7). -/
def Obligations.CmdWriteStartsACommand : Prop :=
  ∀ (s : State) (w : Word), s.mode = .idle →
    (writeReg s .cmd w).mode = .busy ∧ (readReg (writeReg s .cmd w) .status).getLsbD 0 = true ∧
      (writeReg s .cmd w).latch = ⟨w, s.srcAddr, s.srcLen, s.dstAddr, s.dstCap⟩ ∧
      (writeReg s .cmd w).done = false ∧ (writeReg s .cmd w).err = false ∧ (writeReg s .cmd w).dictFull = false ∧
      errByte (writeReg s .cmd w).errcode = 0x00#8 ∧ (writeReg s .cmd w).ovr = s.ovr ∧
      (writeReg s .cmd w).result = s.result ∧ (writeReg s .cmd w).trie = s.trie ∧ (writeReg s .cmd w).mem = s.mem ∧
      (writeReg s .cmd w).doneIe = s.doneIe ∧ (writeReg s .cmd w).srcAddr = s.srcAddr ∧
      (writeReg s .cmd w).srcLen = s.srcLen ∧ (writeReg s .cmd w).dstAddr = s.dstAddr ∧
      (writeReg s .cmd w).dstCap = s.dstCap

/-- R215: a CMD write while BUSY is dropped: only OVR changes. -/
def Obligations.CmdWriteWhileBusyOnlySetsOvr : Prop :=
  ∀ (s : State) (w : Word), s.mode = .busy →
    writeReg s .cmd w = { s with ovr := true } ∧ (readReg (writeReg s .cmd w) .status).getLsbD 5 = true

/-- R24: a command uses only its latched operands: rewriting the operand registers while it runs changes nothing but those
registers. -/
def Obligations.CommandUsesOnlyLatchedOperands : Prop :=
  (∀ (s : State) (w : Word), s.mode = .idle →
    opcField (writeReg s .cmd w).latch.word = w.extractLsb' 0 8 ∧ (writeReg s .cmd w).latch.a = s.srcAddr ∧
      (writeReg s .cmd w).latch.n = s.srcLen ∧ (writeReg s .cmd w).latch.d = s.dstAddr ∧
      (writeReg s .cmd w).latch.cap = s.dstCap) ∧
  ∀ (i : Instr) (s : State) (a n d c : Word),
    ∃ t, exec i s = .next t ∧
      exec i (writeReg (writeReg (writeReg (writeReg s .srcAddr a) .srcLen n) .dstAddr d) .dstCap c)
        = .next { t with srcAddr := a, srcLen := n, dstAddr := d, dstCap := c }

/-- R214, R26, R31: RW registers take the written value in their defined bits at any time, RO registers and reserved offsets ignore
the write; reserved offsets and CMD read 0. -/
def Obligations.RegisterWritesByAccessType : Prop :=
  ∀ (s : State) (v : Word),
    writeReg s .srcAddr v = { s with srcAddr := v } ∧ readReg (writeReg s .srcAddr v) .srcAddr = v ∧
      writeReg s .srcLen v = { s with srcLen := v } ∧ readReg (writeReg s .srcLen v) .srcLen = v ∧
      writeReg s .dstAddr v = { s with dstAddr := v } ∧ readReg (writeReg s .dstAddr v) .dstAddr = v ∧
      writeReg s .dstCap v = { s with dstCap := v } ∧ readReg (writeReg s .dstCap v) .dstCap = v ∧
      writeReg s .irqEn v = { s with doneIe := v.getLsbD 0 } ∧ readReg (writeReg s .irqEn v) .irqEn = v &&& 1#32 ∧
      (∀ r, (r = .id ∨ r = .param ∨ r = .nodeCap ∨ r = .result ∨ r = .nextCw ∨ r = .nodeCount) → writeReg s r v = s) ∧
      (∀ o r, (o = 0x34 ∨ o = 0x38 ∨ o = 0x3C) → regOfOffset o = some r → writeReg s r v = s ∧ readReg s r = 0#32) ∧
      readReg s .cmd = 0#32

/-- R216: a write of `w` to STATUS clears DONE if w[1] and OVR if w[5], and ignores every other bit; while BUSY clearing DONE has no
effect, since DONE is already 0; clearing DONE deasserts `irq`. -/
def Obligations.StatusWriteClearsDoneAndOvr : Prop :=
  ∀ (s : State) (w : Word),
    (w.getLsbD 1 = true → (writeReg s .status w).done = false ∧ irq (writeReg s .status w) = false) ∧
      (w.getLsbD 1 = false → (writeReg s .status w).done = s.done) ∧
      (w.getLsbD 5 = true → (writeReg s .status w).ovr = false) ∧
      (w.getLsbD 5 = false → (writeReg s .status w).ovr = s.ovr) ∧
      writeReg s .status w = { s with done := (writeReg s .status w).done, ovr := (writeReg s .status w).ovr } ∧
      (StatusOk s → s.mode = .busy → (writeReg s .status w).done = s.done)

/-- R217: a host read returns the register's value and has no side effect: only the host's record (and the model's counter of free
values) moves. -/
def Obligations.RegisterReadHasNoSideEffect : Prop :=
  ∀ (s : State) (r : Reg) (rest : List HostOp), s.rst = false → nextTurn s = .host →
    s.program = .read (s.platform.regBase + regOffset r) 32 :: rest →
    step s = .next { s with
      schedule := s.schedule.tail, program := rest, observed := s.observed ++ [.reg r (readReg s r)], draws := s.draws + 1 }

/-- R218, R273: a 32-bit access at a multiple of 4 in 0x00..0x3C of the window reaches a register; any other access is refused, and
so is every register transaction while `rst` is asserted. That a transaction under `rst`, a WAIT among them, is refused by name is the
model's choice (log 15), and so is the refusal of a CMD write whose regions meet a device range (log 4). -/
def Obligations.OnlyAlignedWordAccessesReachTheWindow : Prop :=
  ∀ (s : State) (addr bits : Nat) (v : Word),
    (s.rst = false → s.platform.regBase ≤ addr → regAccessWf (addr - s.platform.regBase) bits = true →
      ∃ r, regOffset r = addr - s.platform.regBase ∧ hostOp s (.read addr bits) = .next (observeReg s r) ∧
        (startsOnDevice s r v = false → hostOp s (.write addr bits v) = .next (writeReg s r v))) ∧
    (s.rst = false → ¬(s.platform.regBase ≤ addr ∧ regAccessWf (addr - s.platform.regBase) bits = true) →
      hostOp s (.read addr bits) = .refused .badRegisterAccess ∧
        hostOp s (.write addr bits v) = .refused .badRegisterAccess) ∧
    (s.rst = true → hostOp s (.read addr bits) = .refused .accessInReset ∧
      hostOp s (.write addr bits v) = .refused .accessInReset ∧ hostOp s .wait = .refused .accessInReset)

/-- R71, R81, R82, R281: the host's own accesses to system memory, where no device range lies. In IDLE every one is carried out; while
a command runs, a write that meets its source or destination region and a read that meets its destination region are refused by
name (log 15), and every other is carried out. A write stores exactly its bytes. That no bus error meets such an access, whatever
`bus_ok` says of its addresses, is the model's choice (log 24). -/
def Obligations.HostKeepsOutOfRunningRegions : Prop :=
  ∀ (s : State) (addr : Nat) (bytes : Bytes), touchesDevice s.platform (regionAt addr bytes.length) = false →
    addr + bytes.length ≤ addressSpace →
    (s.mode = .busy → (overlaps (regionAt addr bytes.length) (latchSrc s.params s.latch) = true ∨
        overlaps (regionAt addr bytes.length) (latchDst s.params s.latch) = true) →
      hostOp s (.memWrite addr bytes) = .refused .hostTouchesRegion) ∧
    (s.mode = .busy → overlaps (regionAt addr bytes.length) (latchDst s.params s.latch) = true →
      hostOp s (.memRead addr bytes.length) = .refused .hostTouchesRegion) ∧
    ((s.mode = .idle ∨ overlaps (regionAt addr bytes.length) (latchDst s.params s.latch) = false) →
      hostOp s (.memRead addr bytes.length)
        = .next { s with observed := s.observed ++ [.mem addr (s.mem.readBytes addr bytes.length)] }) ∧
    ((s.mode = .idle ∨ (overlaps (regionAt addr bytes.length) (latchSrc s.params s.latch) = false ∧
        overlaps (regionAt addr bytes.length) (latchDst s.params s.latch) = false)) →
      ∃ m, hostOp s (.memWrite addr bytes) = .next { s with mem := m } ∧ m = s.mem.writeBytes addr bytes ∧
        (s.mem.wf → HoldsBytes m addr bytes ∧ SameMemOutside s.mem m (regionAt addr bytes.length) ∧
          m.readBytes addr bytes.length = bytes))

/-- R240: the level of `irq`: after every completion, with or without an error, it is the enable; masking does not clear DONE, so
enabling later raises it at once; clearing DONE, starting a command and reset deassert it; it rises only at a completion or when it
is enabled while DONE is 1. -/
def Obligations.InterruptFollowsDoneAndEnable : Prop :=
  (∀ s, irq s = (s.done && s.doneIe)) ∧
    (∀ (i : Instr) (s : State), ∃ t, exec i s = .next t ∧ irq t = s.doneIe ∧
      irq (writeReg t .irqEn 1#32) = true ∧ irq (writeReg t .irqEn 0#32) = false ∧
      (writeReg t .irqEn 0#32).done = true ∧ irq (writeReg t .status 2#32) = false ∧
      ∀ w, irq (writeReg t .cmd w) = false) ∧
    (∀ s, irq (assertRst s) = false) ∧
    ∀ s t, step s = .next t → irq s = false → irq t = true →
      (s.mode = .busy ∧ t.mode = .idle) ∨ (s.done = true ∧ t.done = true ∧ t.doneIe = true)

/-- R37: OVR is set only by a CMD write while BUSY, and cleared only by a STATUS write with bit 5 set or by reset. -/
def Obligations.OvrChangesOnlyAsStated : Prop :=
  ∀ s t : State, step s = .next t →
    (s.ovr = false → t.ovr = true → s.mode = .busy ∧ ∃ addr bits w rest, s.program = .write addr bits w :: rest ∧
      regOfAccess s.platform addr bits = some .cmd) ∧
    (s.ovr = true → t.ovr = false →
      (∃ addr bits w rest, s.program = .write addr bits w :: rest ∧ regOfAccess s.platform addr bits = some .status ∧
        w.getLsbD 5 = true) ∨ ∃ rest, s.program = .assertRst :: rest)

/-- R44: RESULT is written only at a completion (or by reset): between completions it holds its value, also while BUSY. R23: the
core becomes BUSY only by a CMD write while IDLE. That the whole word written is then the one latched, of which R24 names CMD[7:0], is
the model's inference from R92 and R213 (log 7). -/
def Obligations.ResultChangesOnlyAtCompletion : Prop :=
  ∀ s t : State, step s = .next t →
    (t.result ≠ s.result → (s.mode = .busy ∧ t.mode = .idle ∧ t.done = true) ∨ ∃ rest, s.program = .assertRst :: rest) ∧
    (s.mode = .idle → t.mode = .busy → ∃ addr bits w rest, s.program = .write addr bits w :: rest ∧
      regOfAccess s.platform addr bits = some .cmd ∧ t.latch.word = w)

/-! ### Completion, errors and memory -/

/-- R233 to R235: every command completes; it is IDLE and DONE then; ERR and ERRCODE say whether it failed; after an error RESULT
and DICT_FULL are 0. The constants, the latched and host-written registers, OVR and the outside world are unchanged. -/
def Obligations.EveryCommandCompletes : Prop :=
  ∀ (i : Instr) (s : State), s.params.Legal →
    ∃ t, exec i s = .next t ∧ t.mode = .idle ∧ t.done = true ∧ SameOutside s t ∧
      ((∃ v full, Succeeded t v full) ∨ ∃ c, c ≠ .ok ∧ FailedWith t c)

/-- R230, the column "raised by": which codes each command can end with. -/
def Obligations.ErrorCodesOfEachCommand : Prop :=
  ∀ (s : State),
    (∃ t, exec .nop s = .next t ∧ t.errcode = .ok) ∧ (∃ t, exec .trieInit s = .next t ∧ t.errcode = .ok) ∧
      (∃ t, exec .trieDestroy s = .next t ∧ t.errcode = .ok) ∧
      (∃ t, exec .triePut s = .next t ∧ t.errcode ∈ [.ok, .trieNotLive, .keyLen, .range, .bus, .trieFull]) ∧
      (∃ t, exec .trieGet s = .next t ∧ t.errcode ∈ [.ok, .trieNotLive, .range, .bus]) ∧
      (∃ t, exec .compress s = .next t ∧ t.errcode ∈ [.ok, .range, .overlap, .lenTooLarge, .dstCap, .bus]) ∧
      ∃ t, exec .decompress s = .next t ∧ t.errcode ∈ [.ok, .range, .overlap, .dstCap, .bus, .corrupt, .length]

/-- R80, R236: no command changes a byte outside its destination region, or a byte of its source region. The trie commands and NOP
have no destination region, so they change no memory. -/
def Obligations.CommandsWriteOnlyTheirDestination : Prop :=
  ∀ (i : Instr) (s t : State), s.params.Legal → s.mem.wf → exec i s = .next t →
    SameMemOutside s.mem t.mem (dstRegion s.params i s.latch) ∧
      ∀ x, inRegion (srcRegion s.params i s.latch) x = true → t.mem.read x = s.mem.read x

/-- R236: an error of an operand check changes no memory; after any other error every byte of the destination region is a free
value, and every byte outside it, and of the source region, is unchanged. -/
def Obligations.MemoryAfterAnError : Prop :=
  (∀ s : State, ∃ t, execIllegal s = .next t ∧ FailedWith t .illegalCmd ∧ t.mem = s.mem) ∧
  ∀ (i : Instr) (s t : State) (c : ErrCode), s.params.Legal → s.mem.wf → exec i s = .next t → FailedWith t c →
    ((c = .range ∨ c = .overlap ∨ c = .lenTooLarge ∨ c = .dstCap ∨ c = .trieNotLive ∨ c = .keyLen ∨ c = .trieFull ∨
        (c = .corrupt ∧ s.latch.n.toNat = 0)) → t.mem = s.mem) ∧
    ((c = .bus ∨ c = .length ∨ (c = .corrupt ∧ s.latch.n.toNat ≠ 0)) →
      SameMemOutside s.mem t.mem (dstRegion s.params i s.latch) ∧
        ∀ x, inRegion (dstRegion s.params i s.latch) x = true → x < addressSpace →
          t.mem.read x = Config.freeByte s.draws x) ∧
    ∀ x, inRegion (srcRegion s.params i s.latch) x = true → t.mem.read x = s.mem.read x

/-- R238: let O be the outcome on a platform without bus errors and A the accesses of that run (R80). When every access in A answers
normally the outcome is O; otherwise it is BUS when O is a success, and BUS or O when O is an error. So BUS is reported only when an
access in A, and so an address of the command's regions, answers with a bus error. -/
def Obligations.BusErrorsOnlyTurnTheOutcomeIntoBus : Prop :=
  ∀ (i : Instr) (s : State), s.params.Legal →
    ∃ t t0, exec i s = .next t ∧ exec i (withoutBusErrors s) = .next t0 ∧ t0.errcode ≠ .bus ∧
      (AccessesAnswer i s → t = { t0 with platform := s.platform }) ∧
      (¬AccessesAnswer i s → t0.err = false → FailedWith t .bus) ∧
      (¬AccessesAnswer i s → t0.err = true → FailedWith t .bus ∨ t = { t0 with platform := s.platform }) ∧
      (t.errcode ≠ .bus → t = { t0 with platform := s.platform }) ∧
      (t.errcode = .bus → ¬BusFreeFor i s) ∧ (BusFreeFor i s → t = { t0 with platform := s.platform })

/-- R238, R80: when the bus-free outcome is a success, a bus error on any byte of the source region, which the run reads, or on any
byte the run writes (the elements of COMPRESS, the output bytes of DECOMPRESS) gives BUS. -/
def Obligations.BusErrorOnAnAccessGivesBus : Prop :=
  ∀ (i : Instr) (s t0 : State) (x : Nat), s.params.Legal → exec i (withoutBusErrors s) = .next t0 → t0.err = false →
    ((inRegion (srcRegion s.params i s.latch) x = true ∧ busOk s.platform .read x = false) ∨
      (i = .compress ∧ s.latch.d.toNat ≤ x ∧ x < s.latch.d.toNat + t0.result.toNat * s.params.e ∧
        busOk s.platform .write x = false) ∨
      (i = .decompress ∧ s.latch.d.toNat ≤ x ∧ x < s.latch.d.toNat + t0.result.toNat ∧
        busOk s.platform .write x = false)) →
    ∃ t, exec i s = .next t ∧ FailedWith t .bus ∧ (i ≠ .compress → t.trie = s.trie) ∧
      (i = .compress → t.trie = Trie.destroyed)

/-! ### NOP and the trie commands -/

/-- R210: NOP completes with RESULT 0 and no other effect. -/
def Obligations.NopOnlyCompletes : Prop :=
  ∀ s : State, ∃ t, exec .nop s = .next t ∧ Succeeded t 0 false ∧ t.trie = s.trie ∧ t.mem = s.mem ∧ SameOutside s t

/-- R110, R111: TRIE_INIT makes the trie fresh and live, whatever it held. -/
def Obligations.TrieInitGivesAFreshTrie : Prop :=
  ∀ s : State, ∃ t, exec .trieInit s = .next t ∧ Succeeded t 0 false ∧ t.trie.live = true ∧ t.trie.nodes = [[]] ∧
    (∀ k, t.trie.cw k = 0) ∧ t.trie.next = 1 ∧ (readReg t .status).getLsbD 4 = true ∧ readReg t .nextCw = 1#32 ∧
    readReg t .nodeCount = 1#32 ∧ t.mem = s.mem ∧ SameOutside s t

/-- R130: TRIE_DESTROY empties the trie and makes it not live, also when it already was. -/
def Obligations.TrieDestroyEmptiesTheTrie : Prop :=
  ∀ s : State, ∃ t, exec .trieDestroy s = .next t ∧ Succeeded t 0 false ∧ t.trie.live = false ∧ t.trie.nodes = [] ∧
    (∀ k, t.trie.cw k = 0) ∧ t.trie.next = 1 ∧ (readReg t .status).getLsbD 4 = false ∧ readReg t .nextCw = 1#32 ∧
    readReg t .nodeCount = 0#32 ∧ t.mem = s.mem ∧ SameOutside s t

/-- R120: TRIE_PUT of a new key, with room, adds exactly the missing nonempty beginnings of the key as nodes, gives the key the next
codeword, returns it and increments the counter; a key that was already a node adds none. -/
def Obligations.TriePutAssignsTheNextCodeword : Prop :=
  ∀ s : State, s.params.Legal → TrieOk s.params s.trie → s.trie.live = true → 1 ≤ s.latch.n.toNat →
    s.latch.a.toNat + s.latch.n.toNat ≤ addressSpace → BusFreeFor .triePut s → s.trie.cw (sourceBytes s) = 0 →
    s.trie.next ≤ cwMax s.params →
    s.trie.nodes.length + (s.trie.missing (sourceBytes s)).length ≤ s.params.nodeCap →
    ∃ t, exec .triePut s = .next t ∧ Succeeded t s.trie.next false ∧ t.trie.next = s.trie.next + 1 ∧
      t.trie.cw (sourceBytes s) = s.trie.next ∧ (∀ k, k ≠ sourceBytes s → t.trie.cw k = s.trie.cw k) ∧
      (∀ k, k ∈ t.trie.nodes ↔ k ∈ s.trie.nodes ∨ ∃ j, 1 ≤ j ∧ j ≤ (sourceBytes s).length ∧ k = (sourceBytes s).take j) ∧
      (sourceBytes s ∈ s.trie.nodes → t.trie.nodes.length = s.trie.nodes.length) ∧
      t.trie.live = true ∧ t.mem = s.mem ∧ SameOutside s t

/-- R118: TRIE_PUT of a complete entry changes nothing and returns its codeword, also when the dictionary is frozen. -/
def Obligations.TriePutOfAnEntryReturnsItsCodeword : Prop :=
  ∀ s : State, s.trie.live = true → 1 ≤ s.latch.n.toNat → s.latch.a.toNat + s.latch.n.toNat ≤ addressSpace →
    BusFreeFor .triePut s → s.trie.cw (sourceBytes s) ≠ 0 →
    ∃ t, exec .triePut s = .next t ∧ Succeeded t (s.trie.cw (sourceBytes s)) false ∧ t.trie = s.trie ∧ t.mem = s.mem ∧
      SameOutside s t

/-- R119: TRIE_PUT of a new key into a frozen dictionary changes nothing, returns 0 and reports DICT_FULL; it is no error. -/
def Obligations.TriePutIntoAFrozenDictionary : Prop :=
  ∀ s : State, s.trie.live = true → 1 ≤ s.latch.n.toNat → s.latch.a.toNat + s.latch.n.toNat ≤ addressSpace →
    BusFreeFor .triePut s → s.trie.cw (sourceBytes s) = 0 → cwMax s.params < s.trie.next →
    ∃ t, exec .triePut s = .next t ∧ Succeeded t 0 true ∧ t.trie = s.trie ∧ t.mem = s.mem ∧ SameOutside s t

/-- R116, R117, R121, R122, R237: the errors of TRIE_PUT, in their order; none changes the trie or memory, a bus error included. -/
def Obligations.TriePutErrorsInOrder : Prop :=
  ∀ s : State, s.params.Legal →
    ∃ t, exec .triePut s = .next t ∧ t.mem = s.mem ∧ (t.err = true → t.trie = s.trie) ∧
      (if s.trie.live = false then FailedWith t .trieNotLive
        else if s.latch.n.toNat = 0 then FailedWith t .keyLen
        else if addressSpace < s.latch.a.toNat + s.latch.n.toNat then FailedWith t .range
        else BusFreeFor .triePut s → s.trie.cw (sourceBytes s) = 0 → s.trie.next ≤ cwMax s.params →
          s.params.nodeCap < s.trie.nodes.length + (s.trie.missing (sourceBytes s)).length → FailedWith t .trieFull)

/-- R126: TRIE_GET returns the key's codeword, 0 for a key that is only a node, for an unknown key and for the empty key, and never
changes the trie. -/
def Obligations.TrieGetReturnsTheExactEntry : Prop :=
  (∀ s : State, ∃ t, exec .trieGet s = .next t ∧ t.trie = s.trie) ∧
  ∀ s : State, TrieOk s.params s.trie → s.trie.live = true → s.latch.a.toNat + s.latch.n.toNat ≤ addressSpace →
    BusFreeFor .trieGet s →
    ∃ t, exec .trieGet s = .next t ∧ Succeeded t (s.trie.cw (sourceBytes s)) false ∧
      (sourceBytes s ∉ s.trie.nodes → t.result = 0#32) ∧ (s.latch.n.toNat = 0 → t.result = 0#32) ∧
      t.trie = s.trie ∧ t.mem = s.mem ∧ SameOutside s t

/-- R125, R237: the errors of TRIE_GET, in their order. -/
def Obligations.TrieGetErrorsInOrder : Prop :=
  ∀ s : State, ∃ t, exec .trieGet s = .next t ∧ t.trie = s.trie ∧ t.mem = s.mem ∧
    (if s.trie.live = false then FailedWith t .trieNotLive
      else if addressSpace < s.latch.a.toNat + s.latch.n.toNat then FailedWith t .range
      else ¬BusFreeFor .trieGet s → FailedWith t .bus)

/-- R115, R125: a key that TRIE_PUT has just entered is found by TRIE_GET with the same codeword, and the longer and shorter strings
keep theirs. -/
def Obligations.PutThenGetFindsTheKey : Prop :=
  ∀ s t : State, s.params.Legal → TrieOk s.params s.trie → BusFreeFor .triePut s → exec .triePut s = .next t →
    t.err = false → t.dictFull = false →
    ∃ u, exec .trieGet t = .next u ∧ u.err = false ∧ u.result = t.result ∧ u.result ≠ 0#32 ∧
      ∀ k, k ≠ sourceBytes s → t.trie.cw k = s.trie.cw k

/-- R132: no command but TRIE_INIT, TRIE_DESTROY and COMPRESS removes an entry or a node or renumbers a codeword, and each of these
three removes them all. -/
def Obligations.TrieOnlyGrows : Prop :=
  ∀ (i : Instr) (s t : State), exec i s = .next t →
    (i ≠ .trieInit → i ≠ .trieDestroy → i ≠ .compress →
      (∀ k, s.trie.cw k ≠ 0 → t.trie.cw k = s.trie.cw k) ∧ ∀ k, k ∈ s.trie.nodes → k ∈ t.trie.nodes) ∧
    ((i = .trieInit ∨ i = .trieDestroy ∨ i = .compress) → (∀ k, t.trie.cw k = 0) ∧ ∀ k, k ∈ t.trie.nodes → k = [])

/-! ### COMPRESS -/

/-- R142: the operand checks of COMPRESS in their order; when one fails no byte of memory is written and the trie ends destroyed,
and no memory is read: with other memory contents the outcome is the same. -/
def Obligations.CompressOperandChecksInOrder : Prop :=
  ∀ s : State, ∃ t, exec .compress s = .next t ∧
    (¬CompressReady s → ∀ m, exec .compress { s with mem := m } = .next { t with mem := m }) ∧
    (if addressSpace < s.latch.a.toNat + s.latch.n.toNat ∨
        addressSpace < s.latch.d.toNat + s.latch.cap.toNat * s.params.e then
        FailedWith t .range ∧ t.mem = s.mem ∧ t.trie = Trie.destroyed
      else if overlaps (srcRegion s.params .compress s.latch) (dstRegion s.params .compress s.latch) = true then
        FailedWith t .overlap ∧ t.mem = s.mem ∧ t.trie = Trie.destroyed
      else if elemMax s.params < s.latch.n.toNat then FailedWith t .lenTooLarge ∧ t.mem = s.mem ∧ t.trie = Trie.destroyed
      else if s.latch.cap.toNat < max s.latch.n.toNat 1 + 1 then
        FailedWith t .dstCap ∧ t.mem = s.mem ∧ t.trie = Trie.destroyed
      else CompressReady s)

/-- R148, R150: a COMPRESS whose checks pass writes element 0 = n and then the emitted codewords in emission order, each E bytes,
little-endian; RESULT is their number with the header; nothing after them is written; the trie ends destroyed. -/
def Obligations.CompressWritesHeaderAndCodewords : Prop :=
  ∀ s : State, s.params.Legal → s.mem.wf → CompressReady s → BusFreeFor .compress s →
    ∃ t, exec .compress s = .next t ∧
      Succeeded t (1 + (emitted (encoderScan s.params (sourceBytes s))).length)
        (encoderScan s.params (sourceBytes s)).dictFull ∧
      t.result.toNat = 1 + (emitted (encoderScan s.params (sourceBytes s))).length ∧
      t.mem.elem s.params s.latch.d.toNat 0 = s.latch.n.toNat ∧
      (∀ k, k < (emitted (encoderScan s.params (sourceBytes s))).length →
        t.mem.elem s.params s.latch.d.toNat (k + 1) = (emitted (encoderScan s.params (sourceBytes s))).getD k 0) ∧
      SameMemOutside s.mem t.mem (regionAt s.latch.d.toNat (t.result.toNat * s.params.e)) ∧
      t.trie = Trie.destroyed ∧ SameOutside s t

/-- The spec marks it as its own inference: R145. The trie COMPRESS starts from is the one the 256 puts of R140 leave: byte value v
has codeword v + 1, the counter is 257, and there are 257 nodes. -/
def Obligations.SeedingNumbersTheBytes : Prop :=
  ∀ p : Params, p.Legal →
    encoderStart.trie = seedByPuts p ∧ (∀ b : Byte, (seedByPuts p).cw [b] = b.toNat + 1) ∧ (seedByPuts p).next = 257 ∧
      (seedByPuts p).nodes.length = 257

/-- The spec marks it as its own inference: R152. The size of the output of a COMPRESS that succeeds: 2 for n = 0; 2 to n + 1 for n
≥ 1, so 2 for n = 1. -/
def Obligations.CompressOutputSize : Prop :=
  ∀ s t : State, s.params.Legal → exec .compress s = .next t → t.err = false →
    (s.latch.n.toNat = 0 → t.result.toNat = 2) ∧
      (1 ≤ s.latch.n.toNat → 2 ≤ t.result.toNat ∧ t.result.toNat ≤ s.latch.n.toNat + 1)

/-- The spec marks it as its own inference: R151 (and R147 for the empty input). Before each byte of the scan the candidate is ε
(only before the first byte) or a complete entry; for a nonempty input every emitted codeword is in 1..CW_MAX and the first is a
seed, and the empty input emits the one value 0; the fallback never runs with the empty candidate. -/
def Obligations.EmittedCodewordsAreCodewords : Prop :=
  ∀ (p : Params) (x : Bytes), p.Legal →
    ((encoderScan p x).cand = [] ↔ x = []) ∧
      (x ≠ [] → (encoderScan p x).trie.cw (encoderScan p x).cand ≠ 0) ∧
      (x ≠ [] → (∀ c ∈ emitted (encoderScan p x), 1 ≤ c ∧ c ≤ cwMax p) ∧
        1 ≤ (emitted (encoderScan p x)).headD 0 ∧ (emitted (encoderScan p x)).headD 0 ≤ 256) ∧
      (x = [] → encodedStream p x = [0, 0]) ∧
      ∀ b : Byte, (encoderScan p x).cand = [] → (encoderScan p x).trie.cw ((encoderScan p x).cand ++ [b]) ≠ 0

/-- The spec marks it as its own inference: R149. Inside the scan of a COMPRESS `TrieInsert` never answers PRESENT or NOSPACE, and
the nodes never exceed 2^W. -/
def Obligations.ScanNeverRunsOutOfNodes : Prop :=
  ∀ (p : Params) (x : Bytes) (b : Byte), p.Legal →
    (encoderScan p x).trie.nodes.length ≤ 2 ^ p.w ∧
      ((encoderScan p x).trie.cw ((encoderScan p x).cand ++ [b]) = 0 →
        (trieInsert p (encoderScan p x).trie ((encoderScan p x).cand ++ [b])).1 = .suppressed ∨
          (trieInsert p (encoderScan p x).trie ((encoderScan p x).cand ++ [b])).1
            = .assigned (encoderScan p x).trie.next)

/-- The spec marks it as its own inference: R153, with R146. A COMPRESS that succeeds reports DICT_FULL exactly when its scan made
more insertions, RESULT − 2, than there are codewords after the seeds, CW_MAX − 256. -/
def Obligations.DictFullCountsTheInsertions : Prop :=
  ∀ s t : State, s.params.Legal → exec .compress s = .next t → t.err = false → 1 ≤ s.latch.n.toNat →
    (t.dictFull = true ↔ cwMax s.params - 256 < t.result.toNat - 2)

/-- R141, R150: nothing the trie held before a COMPRESS affects it, and it leaves the trie destroyed in every outcome. -/
def Obligations.CompressIgnoresTheTrie : Prop :=
  ∀ (s : State) (tr : Trie), ∃ t, exec .compress s = .next t ∧ exec .compress { s with trie := tr } = .next t ∧
    t.trie.live = false ∧ t.trie.nodes = [] ∧ (∀ k, t.trie.cw k = 0) ∧ t.trie.next = 1

/-! ### DECOMPRESS -/

/-- R171, R172: the operand checks of DECOMPRESS in their order, and the stream of no elements; they write and read no memory. R173:
a header above the capacity fails as soon as it is read. -/
def Obligations.DecompressOperandChecksInOrder : Prop :=
  ∀ s : State, ∃ t, exec .decompress s = .next t ∧
    (¬DecompressReady s → ∀ m, exec .decompress { s with mem := m } = .next { t with mem := m }) ∧
    (if addressSpace < s.latch.a.toNat + s.latch.n.toNat * s.params.e ∨
        addressSpace < s.latch.d.toNat + s.latch.cap.toNat then FailedWith t .range ∧ t.mem = s.mem
      else if overlaps (srcRegion s.params .decompress s.latch) (dstRegion s.params .decompress s.latch) = true then
        FailedWith t .overlap ∧ t.mem = s.mem
      else if s.latch.n.toNat = 0 then FailedWith t .corrupt ∧ t.mem = s.mem
      else DecompressReady s ∧
        (ElementsReadable s 1 → s.latch.cap.toNat < sourceElem s 0 → FailedWith t .dstCap ∧ t.mem = s.mem))

/-- R174: a stream of one element succeeds with RESULT 0 and writes nothing when the header is 0, and fails with LENGTH otherwise.
-/
def Obligations.HeaderOnlyStream : Prop :=
  ∀ s : State, DecompressReady s → ElementsReadable s 1 → s.latch.n.toNat = 1 → sourceElem s 0 ≤ s.latch.cap.toNat →
    ∃ t, exec .decompress s = .next t ∧ (sourceElem s 0 = 0 → Succeeded t 0 false ∧ t.mem = s.mem) ∧
      (sourceElem s 0 ≠ 0 → FailedWith t .length)

/-- R175, R177, R184: the stream [0, 0] succeeds with RESULT 0 and writes nothing; in every other stream a first codeword that is 0
or above 256, the next free codeword 257 included, fails with CORRUPT, and a seed fails with LENGTH when the header is 0. -/
def Obligations.FirstCodewordMustBeASeed : Prop :=
  ∀ s : State, DecompressReady s → ElementsReadable s 2 → 2 ≤ s.latch.n.toNat → sourceElem s 0 ≤ s.latch.cap.toNat →
    ∃ t, exec .decompress s = .next t ∧
      (if s.latch.n.toNat = 2 ∧ sourceElem s 0 = 0 ∧ sourceElem s 1 = 0 then Succeeded t 0 false ∧ t.mem = s.mem
        else (sourceElem s 1 = 0 ∨ 256 < sourceElem s 1 → FailedWith t .corrupt) ∧
          (1 ≤ sourceElem s 1 → sourceElem s 1 ≤ 256 → sourceElem s 0 = 0 → FailedWith t .length))

/-- R179 to R185: what a subsequent codeword does: CORRUPT for 0, above CW_MAX or above the next free codeword; otherwise LENGTH if
the string it stands for would pass the header; otherwise the string, in the known and in the unknown case, is output, and the
pending entry is stored unless the dictionary is frozen. And DECOMPRESS takes the elements after the first codeword in order: the
first one that is rejected ends it with that code, and when all are accepted it ends with LENGTH if the output is not as long as the
header, and otherwise with success and the output at its destination. -/
def Obligations.SubsequentCodeword : Prop :=
  (∀ (p : Params) (h : Nat) (w : DecoderWork) (cw : Nat),
    ((cw = 0 ∨ cwMax p < cw ∨ w.nextFree < cw) → decoderElem p h w cw = .error .corrupt) ∧
    (1 ≤ cw → cw ≤ cwMax p →
      (cw < w.nextFree ∧ h < w.output.length + (dictGet w.dict cw).length) ∨
        (cw = w.nextFree ∧ h < w.output.length + (dictGet w.dict w.last).length + 1) →
      decoderElem p h w cw = .error .length) ∧
    (1 ≤ cw → cw ≤ cwMax p → cw < w.nextFree → w.output.length + (dictGet w.dict cw).length ≤ h →
      ∃ w', decoderElem p h w cw = .ok w' ∧ w'.output = w.output ++ dictGet w.dict cw ∧ w'.last = cw ∧ w'.prev = cw ∧
        (w.nextFree ≤ cwMax p → w'.nextFree = w.nextFree + 1 ∧ w'.dictFull = w.dictFull ∧
          dictGet w'.dict w.nextFree = dictGet w.dict w.prev ++ [firstByte (dictGet w.dict cw)]) ∧
        (cwMax p < w.nextFree → w'.dict = w.dict ∧ w'.nextFree = w.nextFree ∧ w'.dictFull = true)) ∧
    (cw = w.nextFree → 1 ≤ cw → cw ≤ cwMax p → w.output.length + (dictGet w.dict w.last).length + 1 ≤ h →
      ∃ w', decoderElem p h w cw = .ok w' ∧
        w'.output = w.output ++ (dictGet w.dict w.last ++ [firstByte (dictGet w.dict w.last)]) ∧ w'.last = cw ∧
        w'.prev = cw ∧ w'.nextFree = w.nextFree + 1 ∧ w'.dictFull = w.dictFull ∧
        dictGet w'.dict cw = dictGet w.dict w.last ++ [firstByte (dictGet w.dict w.last)])) ∧
  ∀ (s : State) (v0 : DecoderWork), DecompressReady s → 2 ≤ s.latch.n.toNat → sourceElem s 0 ≤ s.latch.cap.toNat →
    decoderFirst (sourceElem s 0) (sourceElem s 1) = .ok v0 →
    (∀ (i : Nat) (v : DecoderWork) (c : ErrCode), 2 ≤ i → i < s.latch.n.toNat →
      (elementsFrom s 2 i).foldlM (decoderElem s.params (sourceElem s 0)) v0 = .ok v →
      decoderElem s.params (sourceElem s 0) v (sourceElem s i) = .error c →
      ElementsReadable s (i + 1) → OutputWritable s v.output.length →
      ∃ t, exec .decompress s = .next t ∧ FailedWith t c) ∧
    ∀ v : DecoderWork, (elementsFrom s 2 s.latch.n.toNat).foldlM (decoderElem s.params (sourceElem s 0)) v0 = .ok v →
      ElementsReadable s s.latch.n.toNat → OutputWritable s v.output.length →
      ∃ t, exec .decompress s = .next t ∧ (v.output.length ≠ sourceElem s 0 → FailedWith t .length) ∧
        (v.output.length = sourceElem s 0 → Succeeded t (sourceElem s 0) v.dictFull ∧
          t.result.toNat = sourceElem s 0 ∧ (s.mem.wf → HoldsBytes t.mem s.latch.d.toNat v.output))

/-- The spec marks it as its own inference: R187, R190. In every run of subsequent codewords from a first one, `last` equals `prev`,
and a stored entry is never changed. -/
def Obligations.DecoderKeepsItsEntries : Prop :=
  ∀ (p : Params) (h c1 : Nat) (v0 v : DecoderWork) (cs : List Nat), decoderFirst h c1 = .ok v0 →
    cs.foldlM (decoderElem p h) v0 = .ok v →
    v.last = v.prev ∧ 257 ≤ v.nextFree ∧ (∀ k, k < 257 → dictGet v.dict k = dictGet seedDict k) ∧
      ∀ cw v', decoderElem p h v cw = .ok v' → ∀ k, k < v.nextFree → dictGet v'.dict k = dictGet v.dict k

/-- R170, R185, R186, R192: a DECOMPRESS whose stream decodes writes exactly the decoded bytes from the destination's start, returns
their number, which is the header, and leaves the trie and every other byte alone. -/
def Obligations.DecompressWritesTheDecodedBytes : Prop :=
  ∀ (s : State) (v k : Nat) (full : Bool) (bytes : Bytes), s.mem.wf → DecompressReady s → BusFreeFor .decompress s →
    decodeStream s.params s.latch.cap.toNat (sourceElem s) s.latch.n.toNat = ⟨.finish v full, k, bytes⟩ →
    ∃ t, exec .decompress s = .next t ∧ Succeeded t v full ∧ v = sourceElem s 0 ∧ t.result.toNat = sourceElem s 0 ∧
      bytes.length = sourceElem s 0 ∧ HoldsBytes t.mem s.latch.d.toNat bytes ∧
      SameMemOutside s.mem t.mem (regionAt s.latch.d.toNat (sourceElem s 0)) ∧ t.trie = s.trie ∧ SameOutside s t

/-- R192: DECOMPRESS neither reads nor changes the trie: TRIE_LIVE, NEXT_CW and NODE_COUNT read the same after it, and with another
trie it does the same. -/
def Obligations.DecompressLeavesTheTrieAlone : Prop :=
  ∀ s : State, ∃ t, exec .decompress s = .next t ∧ t.trie = s.trie ∧ (readReg t .status).getLsbD 4 = s.trie.live ∧
    readReg t .nextCw = BitVec.ofNat 32 s.trie.next ∧ readReg t .nodeCount = BitVec.ofNat 32 s.trie.nodes.length ∧
    ∀ tr, exec .decompress { s with trie := tr } = .next { t with trie := tr }

/-- The spec marks it as its own inference: R188. After the decoder has processed the codewords a COMPRESS of `x` has emitted so far
and the one of its candidate, its dictionary holds exactly the entries of the encoder's trie: each entry's codeword gives back its
string, and there are equally many. -/
def Obligations.DecoderHoldsTheEncodersEntries : Prop :=
  ∀ (p : Params) (x : Bytes) (h : Nat), p.Legal → x ≠ [] → x.length ≤ h →
    ∃ c1 cs v0 v, emitted (encoderScan p x) = c1 :: cs ∧ decoderFirst h c1 = .ok v0 ∧
      cs.foldlM (decoderElem p h) v0 = .ok v ∧ v.output = x ∧ v.nextFree = (encoderScan p x).trie.next ∧
      ∀ k, (encoderScan p x).trie.cw k ≠ 0 → dictGet v.dict ((encoderScan p x).trie.cw k) = k

/-- The round-trip law. The spec marks it as its own inference: R189. If COMPRESS succeeds, DECOMPRESS of the stream it wrote, into
a destination with room, with regions in range and disjoint and no bus errors, succeeds with RESULT n, writes the input at its
destination, and reports the same DICT_FULL. -/
def Obligations.DecompressInvertsCompress : Prop :=
  ∀ (s t : State) (d cap : Word), s.params.Legal → s.mem.wf → exec .compress s = .next t → t.err = false →
    s.latch.n.toNat ≤ cap.toNat →
    DecompressReady { t with latch := ⟨encode .decompress, s.latch.d, t.result, d, cap⟩ } →
    BusFreeFor .decompress { t with latch := ⟨encode .decompress, s.latch.d, t.result, d, cap⟩ } →
    ∃ u, exec .decompress { t with latch := ⟨encode .decompress, s.latch.d, t.result, d, cap⟩ } = .next u ∧
      Succeeded u s.latch.n.toNat t.dictFull ∧ HoldsBytes u.mem d.toNat (sourceBytes s)

/-! ### Invariants -/

/-- The spec marks it as its own inference: R54. Every step keeps the invariants of the trie. -/
def Obligations.StepKeepsTheTrieInvariants : Prop :=
  ∀ s t : State, s.params.Legal → TrieOk s.params s.trie → step s = .next t → t.params = s.params ∧ TrieOk t.params t.trie

/-- R213, R234, R235, R270: every step keeps the invariant of the whole machine: legal parameters, canonical memory, the trie
invariants, STATUS and RESULT in agreement, and the reset values while `rst` is asserted. -/
def Obligations.StepKeepsTheMachineInvariant : Prop :=
  ∀ s t : State, StateInv s → step s = .next t → StateInv t

/-- The machine right after reset has the invariant. -/
def Obligations.InvariantHoldsAtReset : Prop := StateInv State.reset
end

