-- ==== Sys2Proof/Laws/Memory.lean ====
section
/-! SUPPORT. Memory: reads after writes, and the canonical form that every operation keeps. -/

namespace Sys2Proof.Machine

theorem readCells_writeCells (cs : List Host.Cell) (x y : Nat) (v : Byte) (h : cs.Pairwise fun c d => c.1 < d.1) :
    readCells (writeCells cs x v) y = if y = x then v else readCells cs y := by
  induction cs with
  | nil =>
    simp only [writeCells]
    split
    · simp_all [readCells]
    · simp [readCells, eq_comm]
  | cons c rest ih =>
    obtain ⟨hc, hr⟩ := List.pairwise_cons.1 h
    have gap : ∀ z, z ≤ c.1 → readCells rest z = unlistedByte := by
      intro z hz
      clear ih h
      induction rest with
      | nil => rfl
      | cons d tl ih2 =>
        have hd := hc d (by simp)
        have : d.1 ≠ z := by omega
        simp only [readCells, this, if_false]
        exact ih2 (fun e he => hc e (by simp [he])) (List.pairwise_cons.1 hr).2
    by_cases h1 : x < c.1
    · have hne : c.1 ≠ x := by omega
      by_cases hv : v = unlistedByte
      · by_cases hy : y = x <;> simp [writeCells, readCells, h1, hv, hy, hne, gap x (by omega)]
      · by_cases hy : y = x
        · simp [writeCells, readCells, h1, hv, hy]
        · have : ¬ x = y := fun e => hy e.symm
          simp [writeCells, readCells, h1, hv, hy, this]
    · by_cases h2 : c.1 = x
      · by_cases hv : v = unlistedByte
        · by_cases hy : y = x
          · simp [writeCells, h2, hv, hy, gap x (by omega)]
          · have : ¬ x = y := fun e => hy e.symm
            simp [writeCells, readCells, h2, hv, hy, this]
        · by_cases hy : y = x
          · simp [writeCells, readCells, h2, hv, hy]
          · have : ¬ x = y := fun e => hy e.symm
            simp [writeCells, readCells, h2, hv, hy, this]
      · simp only [writeCells, h1, h2, if_false, readCells, ih hr]
        by_cases hy : y = x
        · have : ¬ c.1 = y := by omega
          simp [hy, h2]
        · simp [hy]

theorem mem_writeCells {cs : List Host.Cell} {x : Nat} {v : Byte} {c : Host.Cell} (h : c ∈ writeCells cs x v) :
    c ∈ cs ∨ (c = (x, v) ∧ v ≠ unlistedByte) := by
  induction cs with
  | nil =>
    simp only [writeCells] at h
    split at h <;> simp_all
  | cons d rest ih =>
    simp only [writeCells] at h
    split_ifs at h <;> simp only [List.mem_cons] at h ⊢ <;> tauto

theorem pairwise_writeCells (cs : List Host.Cell) (x : Nat) (v : Byte) (h : cs.Pairwise fun c d => c.1 < d.1) :
    (writeCells cs x v).Pairwise fun c d => c.1 < d.1 := by
  induction cs with
  | nil =>
    simp only [writeCells]
    split <;> simp
  | cons c rest ih =>
    obtain ⟨hc, hr⟩ := List.pairwise_cons.1 h
    simp only [writeCells]
    split_ifs with h1 hv h2 hv
    · exact h
    · refine List.pairwise_cons.2 ⟨fun d hd => ?_, h⟩
      rcases List.mem_cons.1 hd with rfl | hd
      · exact h1
      · exact lt_trans h1 (hc d hd)
    · exact hr
    · exact List.pairwise_cons.2 ⟨fun d hd => h2 ▸ hc d hd, hr⟩
    · refine List.pairwise_cons.2 ⟨fun d hd => ?_, ih hr⟩
      rcases mem_writeCells hd with hd | ⟨rfl, -⟩
      · exact hc d hd
      · show c.1 < x
        omega

/-- Writing a byte keeps the canonical form. -/
theorem Memory.write_wf (m : Memory) (x : Nat) (v : Byte) (h : m.wf) : (m.write x v).wf := by
  unfold Memory.write
  split
  · refine ⟨pairwise_writeCells _ _ _ h.1, fun c hc => ?_⟩
    rcases mem_writeCells hc with hc | ⟨rfl, hv⟩
    · exact h.2 c hc
    · exact ⟨by assumption, hv⟩
  · exact h

/-- A read after a write: the value written at its address, the old byte elsewhere. -/
theorem Memory.read_write (m : Memory) (x y : Nat) (v : Byte) (h : m.wf) (hx : x < addressSpace) :
    (m.write x v).read y = if y = x then v else m.read y := by
  simp only [Memory.write, hx, if_true, Memory.read]
  exact readCells_writeCells _ _ _ _ h.1

theorem Memory.read_write_ne (m : Memory) (x y : Nat) (v : Byte) (h : m.wf) (hne : y ≠ x) :
    (m.write x v).read y = m.read y := by
  by_cases hx : x < addressSpace
  · rw [Memory.read_write m x y v h hx, if_neg hne]
  · simp [Memory.write, hx]

theorem Memory.empty_wf : Memory.empty.wf := ⟨List.Pairwise.nil, by simp [Memory.empty]⟩

@[simp] theorem Memory.read_empty (x : Nat) : Memory.empty.read x = unlistedByte := rfl

@[simp] theorem Memory.readBytes_length (m : Memory) (x n : Nat) : (m.readBytes x n).length = n := by
  induction n generalizing x with
  | zero => rfl
  | succ n ih => simp [Memory.readBytes, ih]

theorem Memory.readBytes_getD (m : Memory) (x n i : Nat) (h : i < n) :
    (m.readBytes x n).getD i 0 = m.read (x + i) := by
  induction n generalizing x i with
  | zero => omega
  | succ n ih =>
    cases i with
    | zero => simp [Memory.readBytes]
    | succ i =>
      have := ih (x + 1) i (by omega)
      simp only [Memory.readBytes, List.getD_cons_succ, this]
      congr 1
      omega

/-- Equal bytes read as equal strings. -/
theorem Memory.readBytes_congr {m m' : Memory} {x n : Nat} (h : ∀ y, x ≤ y → y < x + n → m'.read y = m.read y) :
    m'.readBytes x n = m.readBytes x n := by
  induction n generalizing x with
  | zero => rfl
  | succ n ih =>
    simp only [Memory.readBytes]
    rw [h x (by omega) (by omega), ih fun y h1 h2 => h y (by omega) (by omega)]

theorem Memory.writeBytes_wf (m : Memory) (x : Nat) (bs : Bytes) (h : m.wf) : (m.writeBytes x bs).wf := by
  induction bs generalizing m x with
  | nil => exact h
  | cons b rest ih => exact ih _ _ (Memory.write_wf m x b h)

/-- A byte outside the written range is unchanged. -/
theorem Memory.read_writeBytes_out (m : Memory) (x y : Nat) (bs : Bytes) (h : m.wf)
    (hy : y < x ∨ x + bs.length ≤ y) : (m.writeBytes x bs).read y = m.read y := by
  induction bs generalizing m x with
  | nil => rfl
  | cons b rest ih =>
    simp only [List.length_cons] at hy
    rw [Memory.writeBytes, ih (m.write x b) (x + 1) (Memory.write_wf m x b h) (by omega)]
    exact Memory.read_write_ne m x y b h (by omega)

/-- A byte inside the written range reads as written. -/
theorem Memory.read_writeBytes_in (m : Memory) (x i : Nat) (bs : Bytes) (h : m.wf) (hi : i < bs.length)
    (hr : x + bs.length ≤ addressSpace) : (m.writeBytes x bs).read (x + i) = bs.getD i 0 := by
  induction bs generalizing m x i with
  | nil => simp at hi
  | cons b rest ih =>
    simp only [List.length_cons] at hi hr
    cases i with
    | zero =>
      rw [Memory.writeBytes, Memory.read_writeBytes_out _ _ _ _ (Memory.write_wf m x b h) (by omega),
        Memory.read_write m x _ b h (by omega)]
      simp
    | succ i =>
      have := ih (m.write x b) (x + 1) i (Memory.write_wf m x b h) (by omega) (by omega)
      rw [Memory.writeBytes, show x + (i + 1) = x + 1 + i by omega, this]
      simp

/-- What was written reads back. -/
theorem Memory.readBytes_writeBytes (m : Memory) (x : Nat) (bs : Bytes) (h : m.wf)
    (hr : x + bs.length ≤ addressSpace) : (m.writeBytes x bs).readBytes x bs.length = bs := by
  apply List.ext_getElem (by simp)
  intro i h1 h2
  have := Memory.readBytes_getD (m.writeBytes x bs) x bs.length i h2
  rw [Memory.read_writeBytes_in m x i bs h h2 hr] at this
  simpa [List.getD_eq_getElem, h1, h2] using this

theorem Memory.scramble_wf (m : Memory) (k : Nat) (keep : Region) (x n : Nat) (h : m.wf) :
    (m.scramble k keep x n).wf := by
  induction n generalizing m x with
  | zero => exact h
  | succ n ih =>
    rw [Memory.scramble]
    split
    · exact ih _ _ h
    · exact ih _ _ (Memory.write_wf m x _ h)

theorem Memory.scrambleRegion_wf (m : Memory) (k : Nat) (keep dst : Region) (h : m.wf) :
    (m.scrambleRegion k keep dst).wf := Memory.scramble_wf _ _ _ _ _ h

/-- Scrambling leaves every byte outside its range, and every kept byte. -/
theorem Memory.read_scramble_out (m : Memory) (k : Nat) (keep : Region) (x n y : Nat) (h : m.wf)
    (hy : y < x ∨ x + n ≤ y ∨ inRegion keep y = true) : (m.scramble k keep x n).read y = m.read y := by
  induction n generalizing m x with
  | zero => rfl
  | succ n ih =>
    rw [Memory.scramble]
    split
    · refine ih m (x + 1) h ?_
      rcases hy with hy | hy | hy
      · exact .inl (by omega)
      · exact .inr (.inl (by omega))
      · exact .inr (.inr hy)
    · rename_i hk
      by_cases hxy : y = x
      · subst hxy
        rcases hy with hy | hy | hy
        · omega
        · omega
        · exact absurd hy hk
      · have hy' : y < x + 1 ∨ x + 1 + n ≤ y ∨ inRegion keep y = true := by
          rcases hy with hy | hy | hy
          · exact .inl (by omega)
          · exact .inr (.inl (by omega))
          · exact .inr (.inr hy)
        rw [ih _ (x + 1) (Memory.write_wf m x _ h) hy']
        exact Memory.read_write_ne m x y _ h hxy

/-- Scrambling a region leaves every byte outside it, and every kept byte. -/
theorem Memory.read_scrambleRegion_out (m : Memory) (k : Nat) (keep dst : Region) (y : Nat) (h : m.wf)
    (hy : ¬(dst.lo ≤ y ∧ y < dst.hi) ∨ inRegion keep y = true) : (m.scrambleRegion k keep dst).read y = m.read y := by
  apply Memory.read_scramble_out m k keep _ _ y h
  by_cases hk : inRegion keep y = true
  · exact .inr (.inr hk)
  · have := hy.resolve_right hk
    omega

/-- A scrambled byte that is not kept reads as its free value. -/
theorem Memory.read_scramble_in (m : Memory) (k : Nat) (keep : Region) (x n y : Nat) (h : m.wf) (hx : x ≤ y) (hy : y < x + n)
    (ha : y < addressSpace) (hk : inRegion keep y = false) :
    (m.scramble k keep x n).read y = Config.freeByte k y := by
  induction n generalizing m x with
  | zero => omega
  | succ n ih =>
    simp only [Memory.scramble]
    have hw : (if inRegion keep x = true then m else m.write x (Config.freeByte k x)).wf := by
      split
      · exact h
      · exact Memory.write_wf m _ _ h
    by_cases e : y = x
    · subst e
      rw [Memory.read_scramble_out _ _ _ _ _ _ hw (.inl (Nat.lt_succ_self y)), if_neg (by simp [hk]),
        Memory.read_write m y y _ h ha, if_pos rfl]
    · exact ih _ _ hw (by omega) (by omega)

/-- A byte of the scrambled region that is not kept reads as its free value. -/
theorem Memory.read_scrambleRegion_in (m : Memory) (k : Nat) (keep dst : Region) (y : Nat) (h : m.wf)
    (hy : inRegion dst y = true) (ha : y < addressSpace) (hk : inRegion keep y = false) :
    (m.scrambleRegion k keep dst).read y = Config.freeByte k y := by
  simp only [inRegion, Bool.and_eq_true, decide_eq_true_eq] at hy
  exact Memory.read_scramble_in m k keep _ _ y h hy.1 (by omega) ha hk

end Sys2Proof.Machine
end

