-- ==== Sys2Proof/Laws/Operands.lean ====
section
/-! SUPPORT. Regions, bus errors, register numbers and element bytes. -/

namespace Sys2Proof.Machine

/-- Two regions overlap exactly when some address is in both (R79). -/
theorem overlaps_iff (r s : Region) :
    overlaps r s = true ↔ ∃ x, (r.lo ≤ x ∧ x < r.hi) ∧ s.lo ≤ x ∧ x < s.hi := by
  simp only [overlaps, Bool.and_eq_true, decide_eq_true_eq]
  constructor
  · rintro ⟨⟨⟨h1, h2⟩, h3⟩, h4⟩
    exact ⟨max r.lo s.lo, by omega, by omega⟩
  · rintro ⟨x, h1, h2⟩
    omega

theorem overlaps_comm (r s : Region) : overlaps r s = overlaps s r := by
  rw [Bool.eq_iff_iff, overlaps_iff, overlaps_iff]
  constructor <;> rintro ⟨x, h1, h2⟩ <;> exact ⟨x, h2, h1⟩

theorem inRegion_iff (r : Region) (x : Nat) : inRegion r x = true ↔ r.lo ≤ x ∧ x < r.hi := by
  simp [inRegion]

theorem inRange_iff (r : Region) : inRange r = true ↔ r.hi ≤ addressSpace := by simp [inRange]

/-- A region is free of bus errors exactly when each of its addresses is (R70, R238). -/
theorem regionOk_iff (pf : Platform) (k : AccessKind) (r : Region) :
    regionOk pf k r = true ↔ ∀ x, r.lo ≤ x → x < r.hi → busOk pf k x = true := by
  simp only [regionOk, busOk, List.all_eq_true]
  constructor
  · intro h x h1 h2 hole hm
    have := h hole hm
    by_contra hc
    simp only [Bool.not_eq_true', Bool.not_eq_false, Bool.and_eq_true, inRegion_iff] at hc
    simp only [Bool.not_eq_true', Bool.and_eq_false_iff, hc.1, false_or, Bool.true_eq_false] at this
    rw [(overlaps_iff _ _).2 ⟨x, hc.2, h1, h2⟩] at this
    cases this
  · intro h hole hm
    by_contra hc
    simp only [Bool.not_eq_true', Bool.not_eq_false, Bool.and_eq_true, overlaps_iff] at hc
    obtain ⟨hk, x, h1, h2⟩ := hc
    have := h x h2.1 h2.2 hole hm
    rw [hk, (inRegion_iff _ _).2 h1] at this
    cases this

theorem regionOk_empty (pf : Platform) (k : AccessKind) (x : Nat) : regionOk pf k (regionAt x 0) = true := by
  rw [regionOk_iff]
  intro y h1 h2
  simp only [regionAt] at h1 h2
  omega

/-- Every offset of a register is read back as that register (R25). -/
@[simp] theorem regOfOffset_regOffset (r : Reg) : regOfOffset (regOffset r) = some r := by cases r <;> rfl

/-- The numbers that are a register's offset are those of R218: multiples of 4 in 0x00..0x3C. -/
theorem regOfOffset_isSome (o : Nat) : (regOfOffset o).isSome = regAccessWf o 32 := by
  by_cases h : o ≤ 0x3C
  · interval_cases o <;> rfl
  · have h1 : regAccessWf o 32 = false := by simp [regAccessWf]; omega
    rw [h1, Option.isSome_eq_false_iff, Option.isNone_iff_eq_none]
    unfold regOfOffset
    split <;> first | omega | rfl

/-- A 32-bit access at REG_BASE plus a register's offset reaches that register. -/
@[simp] theorem regOfAccess_regOffset (pf : Platform) (r : Reg) :
    regOfAccess pf (pf.regBase + regOffset r) 32 = some r := by
  simp [regOfAccess]

@[simp] theorem leBytes_length (k v : Nat) : (leBytes k v).length = k := by
  induction k generalizing v with
  | zero => rfl
  | succ k ih => simp [leBytes, ih]

/-- Byte j of an element is (v >> 8j) & 0xFF (R74). -/
theorem leBytes_getD (k v j : Nat) (h : j < k) : (leBytes k v).getD j 0 = BitVec.ofNat 8 (v >>> (8 * j)) := by
  induction k generalizing v j with
  | zero => omega
  | succ k ih =>
    cases j with
    | zero => simp [leBytes]
    | succ j =>
      rw [leBytes, List.getD_cons_succ, ih (v / 256) j (by omega), Nat.shiftRight_eq_div_pow, Nat.shiftRight_eq_div_pow,
        Nat.div_div_eq_div_mul, show 8 * (j + 1) = 8 + 8 * j by ring, pow_add]
      norm_num

theorem leVal_lt (bs : Bytes) : leVal bs < 256 ^ bs.length := by
  induction bs with
  | nil => simp [leVal]
  | cons b rest ih =>
    have hb := b.isLt
    simp only [leVal, List.length_cons, pow_succ]
    omega

/-- An element's bytes have its value (R74), cut to E bytes. -/
theorem leVal_leBytes (k v : Nat) : leVal (leBytes k v) = v % 256 ^ k := by
  induction k generalizing v with
  | zero => simp [leBytes, leVal, Nat.mod_one]
  | succ k ih =>
    rw [leBytes, leVal, ih, BitVec.toNat_ofNat, show 256 ^ (k + 1) = 256 * 256 ^ k by ring, Nat.mod_mul]

@[simp] theorem streamBytes_length (p : Params) (elems : List Nat) :
    (streamBytes p elems).length = elems.length * p.e := by
  induction elems with
  | nil => simp [streamBytes]
  | cons v rest ih =>
    simp only [streamBytes, List.flatMap_cons, List.length_append, leBytes_length, List.length_cons] at ih ⊢
    rw [ih]
    ring

theorem streamBytes_getD (p : Params) (elems : List Nat) (i j : Nat) (hi : i < elems.length) (hj : j < p.e) :
    (streamBytes p elems).getD (i * p.e + j) 0 = (leBytes p.e (elems.getD i 0)).getD j 0 := by
  induction elems generalizing i with
  | nil => simp at hi
  | cons v rest ih =>
    simp only [streamBytes, List.flatMap_cons] at ih ⊢
    cases i with
    | zero =>
      rw [Nat.zero_mul, Nat.zero_add, List.getD_append _ _ _ _ (by simpa using hj)]
      rfl
    | succ i =>
      rw [List.getD_append_right _ _ _ _ (by simp; nlinarith), leBytes_length,
        show (i + 1) * p.e + j - p.e = i * p.e + j by rw [Nat.succ_mul]; omega]
      simpa using ih i (by simpa using hi)

/-- An element of a stream that stands in memory reads as its value, cut to E bytes (R74). -/
theorem elem_of_holds (m : Memory) (p : Params) (base : Nat) (elems : List Nat) (i : Nat) (hi : i < elems.length)
    (h : ∀ k, k < (streamBytes p elems).length → m.read (base + k) = (streamBytes p elems).getD k 0) :
    m.elem p base i = elems.getD i 0 % 256 ^ p.e := by
  have hb : m.readBytes (base + i * p.e) p.e = leBytes p.e (elems.getD i 0) := by
    apply List.ext_getElem (by simp)
    intro j h1 h2
    simp only [Memory.readBytes_length] at h1
    have e1 := Memory.readBytes_getD m (base + i * p.e) p.e j h1
    rw [show base + i * p.e + j = base + (i * p.e + j) by ring, h _ (by
      rw [streamBytes_length]
      calc i * p.e + j < i * p.e + p.e := by omega
        _ = (i + 1) * p.e := by ring
        _ ≤ elems.length * p.e := Nat.mul_le_mul_right _ hi), streamBytes_getD p elems i j hi h1] at e1
    simpa [List.getD_eq_getElem, h1] using e1
  rw [Memory.elem, hb, leVal_leBytes]

theorem elem_lt (m : Memory) (p : Params) (base i : Nat) : m.elem p base i < 256 ^ p.e := by
  have := leVal_lt (m.readBytes (base + i * p.e) p.e)
  rwa [Memory.readBytes_length] at this

theorem pow_256 (n : Nat) : 256 ^ n = 2 ^ (8 * n) := by rw [pow_mul]; norm_num

/-- CW_MAX + 1 = 2^W (R9). -/
theorem cwMax_succ (p : Params) : cwMax p + 1 = 2 ^ p.w := by
  have : 0 < 2 ^ p.w := by positivity
  simp only [cwMax]
  omega

/-- CW_MAX ≥ 257 + 254 for every legal width (R10). -/
theorem cwMax_ge (p : Params) (h : p.Legal) : 511 ≤ cwMax p := by
  have : 2 ^ 9 ≤ 2 ^ p.w := Nat.pow_le_pow_right (by norm_num) h.1
  have := cwMax_succ p
  omega

theorem elemMax_succ (p : Params) : elemMax p + 1 = 256 ^ p.e := by
  have : 0 < 2 ^ (8 * p.e) := by positivity
  rw [pow_256]
  simp only [elemMax]
  omega

/-- Every codeword fits an element (R8: W ≤ 8·E). -/
theorem cwMax_le_elemMax (p : Params) (h : p.Legal) : cwMax p ≤ elemMax p := by
  have := Nat.pow_le_pow_right (n := 2) (by norm_num) h.2.2.1
  simp only [cwMax, elemMax]
  omega

/-- Codewords fit 24 bits (R234). -/
theorem cwMax_lt (p : Params) (h : p.Legal) : cwMax p < 2 ^ 24 := by
  have : 2 ^ p.w ≤ 2 ^ 24 := Nat.pow_le_pow_right (by norm_num) h.2.1
  have := cwMax_succ p
  omega

end Sys2Proof.Machine
end

