-- ==== Sys2Proof/Laws/State.lean ====
section
/-! SUPPORT. One lemma per field of State per named update. -/

namespace Sys2Proof.Machine

@[simp] theorem startCommand_params (s : State) (w : Word) : (startCommand s w).params = s.params := rfl
@[simp] theorem startCommand_platform (s : State) (w : Word) : (startCommand s w).platform = s.platform := rfl
@[simp] theorem startCommand_mode (s : State) (w : Word) : (startCommand s w).mode = .busy := rfl
@[simp] theorem startCommand_latch (s : State) (w : Word) : (startCommand s w).latch = ⟨w, s.srcAddr, s.srcLen, s.dstAddr, s.dstCap⟩ := rfl
@[simp] theorem startCommand_done (s : State) (w : Word) : (startCommand s w).done = false := rfl
@[simp] theorem startCommand_err (s : State) (w : Word) : (startCommand s w).err = false := rfl
@[simp] theorem startCommand_dictFull (s : State) (w : Word) : (startCommand s w).dictFull = false := rfl
@[simp] theorem startCommand_ovr (s : State) (w : Word) : (startCommand s w).ovr = s.ovr := rfl
@[simp] theorem startCommand_errcode (s : State) (w : Word) : (startCommand s w).errcode = .ok := rfl
@[simp] theorem startCommand_doneIe (s : State) (w : Word) : (startCommand s w).doneIe = s.doneIe := rfl
@[simp] theorem startCommand_srcAddr (s : State) (w : Word) : (startCommand s w).srcAddr = s.srcAddr := rfl
@[simp] theorem startCommand_srcLen (s : State) (w : Word) : (startCommand s w).srcLen = s.srcLen := rfl
@[simp] theorem startCommand_dstAddr (s : State) (w : Word) : (startCommand s w).dstAddr = s.dstAddr := rfl
@[simp] theorem startCommand_dstCap (s : State) (w : Word) : (startCommand s w).dstCap = s.dstCap := rfl
@[simp] theorem startCommand_result (s : State) (w : Word) : (startCommand s w).result = s.result := rfl
@[simp] theorem startCommand_trie (s : State) (w : Word) : (startCommand s w).trie = s.trie := rfl
@[simp] theorem startCommand_rst (s : State) (w : Word) : (startCommand s w).rst = s.rst := rfl
@[simp] theorem startCommand_mem (s : State) (w : Word) : (startCommand s w).mem = s.mem := rfl
@[simp] theorem startCommand_program (s : State) (w : Word) : (startCommand s w).program = s.program := rfl
@[simp] theorem startCommand_observed (s : State) (w : Word) : (startCommand s w).observed = s.observed := rfl
@[simp] theorem startCommand_schedule (s : State) (w : Word) : (startCommand s w).schedule = s.schedule := rfl
@[simp] theorem startCommand_draws (s : State) (w : Word) : (startCommand s w).draws = s.draws := rfl

@[simp] theorem finish_params (s : State) (v : Nat) (full : Bool) : (finish s v full).params = s.params := rfl
@[simp] theorem finish_platform (s : State) (v : Nat) (full : Bool) : (finish s v full).platform = s.platform := rfl
@[simp] theorem finish_mode (s : State) (v : Nat) (full : Bool) : (finish s v full).mode = .idle := rfl
@[simp] theorem finish_latch (s : State) (v : Nat) (full : Bool) : (finish s v full).latch = s.latch := rfl
@[simp] theorem finish_done (s : State) (v : Nat) (full : Bool) : (finish s v full).done = true := rfl
@[simp] theorem finish_err (s : State) (v : Nat) (full : Bool) : (finish s v full).err = false := rfl
@[simp] theorem finish_dictFull (s : State) (v : Nat) (full : Bool) : (finish s v full).dictFull = full := rfl
@[simp] theorem finish_ovr (s : State) (v : Nat) (full : Bool) : (finish s v full).ovr = s.ovr := rfl
@[simp] theorem finish_errcode (s : State) (v : Nat) (full : Bool) : (finish s v full).errcode = .ok := rfl
@[simp] theorem finish_doneIe (s : State) (v : Nat) (full : Bool) : (finish s v full).doneIe = s.doneIe := rfl
@[simp] theorem finish_srcAddr (s : State) (v : Nat) (full : Bool) : (finish s v full).srcAddr = s.srcAddr := rfl
@[simp] theorem finish_srcLen (s : State) (v : Nat) (full : Bool) : (finish s v full).srcLen = s.srcLen := rfl
@[simp] theorem finish_dstAddr (s : State) (v : Nat) (full : Bool) : (finish s v full).dstAddr = s.dstAddr := rfl
@[simp] theorem finish_dstCap (s : State) (v : Nat) (full : Bool) : (finish s v full).dstCap = s.dstCap := rfl
@[simp] theorem finish_result (s : State) (v : Nat) (full : Bool) : (finish s v full).result = BitVec.ofNat 32 v := rfl
@[simp] theorem finish_trie (s : State) (v : Nat) (full : Bool) : (finish s v full).trie = s.trie := rfl
@[simp] theorem finish_rst (s : State) (v : Nat) (full : Bool) : (finish s v full).rst = s.rst := rfl
@[simp] theorem finish_mem (s : State) (v : Nat) (full : Bool) : (finish s v full).mem = s.mem := rfl
@[simp] theorem finish_program (s : State) (v : Nat) (full : Bool) : (finish s v full).program = s.program := rfl
@[simp] theorem finish_observed (s : State) (v : Nat) (full : Bool) : (finish s v full).observed = s.observed := rfl
@[simp] theorem finish_schedule (s : State) (v : Nat) (full : Bool) : (finish s v full).schedule = s.schedule := rfl
@[simp] theorem finish_draws (s : State) (v : Nat) (full : Bool) : (finish s v full).draws = s.draws := rfl

@[simp] theorem raiseError_params (s : State) (c : ErrCode) : (raiseError s c).params = s.params := rfl
@[simp] theorem raiseError_platform (s : State) (c : ErrCode) : (raiseError s c).platform = s.platform := rfl
@[simp] theorem raiseError_mode (s : State) (c : ErrCode) : (raiseError s c).mode = .idle := rfl
@[simp] theorem raiseError_latch (s : State) (c : ErrCode) : (raiseError s c).latch = s.latch := rfl
@[simp] theorem raiseError_done (s : State) (c : ErrCode) : (raiseError s c).done = true := rfl
@[simp] theorem raiseError_err (s : State) (c : ErrCode) : (raiseError s c).err = true := rfl
@[simp] theorem raiseError_dictFull (s : State) (c : ErrCode) : (raiseError s c).dictFull = false := rfl
@[simp] theorem raiseError_ovr (s : State) (c : ErrCode) : (raiseError s c).ovr = s.ovr := rfl
@[simp] theorem raiseError_errcode (s : State) (c : ErrCode) : (raiseError s c).errcode = c := rfl
@[simp] theorem raiseError_doneIe (s : State) (c : ErrCode) : (raiseError s c).doneIe = s.doneIe := rfl
@[simp] theorem raiseError_srcAddr (s : State) (c : ErrCode) : (raiseError s c).srcAddr = s.srcAddr := rfl
@[simp] theorem raiseError_srcLen (s : State) (c : ErrCode) : (raiseError s c).srcLen = s.srcLen := rfl
@[simp] theorem raiseError_dstAddr (s : State) (c : ErrCode) : (raiseError s c).dstAddr = s.dstAddr := rfl
@[simp] theorem raiseError_dstCap (s : State) (c : ErrCode) : (raiseError s c).dstCap = s.dstCap := rfl
@[simp] theorem raiseError_result (s : State) (c : ErrCode) : (raiseError s c).result = 0 := rfl
@[simp] theorem raiseError_trie (s : State) (c : ErrCode) : (raiseError s c).trie = s.trie := rfl
@[simp] theorem raiseError_rst (s : State) (c : ErrCode) : (raiseError s c).rst = s.rst := rfl
@[simp] theorem raiseError_mem (s : State) (c : ErrCode) : (raiseError s c).mem = s.mem := rfl
@[simp] theorem raiseError_program (s : State) (c : ErrCode) : (raiseError s c).program = s.program := rfl
@[simp] theorem raiseError_observed (s : State) (c : ErrCode) : (raiseError s c).observed = s.observed := rfl
@[simp] theorem raiseError_schedule (s : State) (c : ErrCode) : (raiseError s c).schedule = s.schedule := rfl
@[simp] theorem raiseError_draws (s : State) (c : ErrCode) : (raiseError s c).draws = s.draws := rfl

@[simp] theorem observeReg_params (s : State) (r : Reg) : (observeReg s r).params = s.params := rfl
@[simp] theorem observeReg_platform (s : State) (r : Reg) : (observeReg s r).platform = s.platform := rfl
@[simp] theorem observeReg_mode (s : State) (r : Reg) : (observeReg s r).mode = s.mode := rfl
@[simp] theorem observeReg_latch (s : State) (r : Reg) : (observeReg s r).latch = s.latch := rfl
@[simp] theorem observeReg_done (s : State) (r : Reg) : (observeReg s r).done = s.done := rfl
@[simp] theorem observeReg_err (s : State) (r : Reg) : (observeReg s r).err = s.err := rfl
@[simp] theorem observeReg_dictFull (s : State) (r : Reg) : (observeReg s r).dictFull = s.dictFull := rfl
@[simp] theorem observeReg_ovr (s : State) (r : Reg) : (observeReg s r).ovr = s.ovr := rfl
@[simp] theorem observeReg_errcode (s : State) (r : Reg) : (observeReg s r).errcode = s.errcode := rfl
@[simp] theorem observeReg_doneIe (s : State) (r : Reg) : (observeReg s r).doneIe = s.doneIe := rfl
@[simp] theorem observeReg_srcAddr (s : State) (r : Reg) : (observeReg s r).srcAddr = s.srcAddr := rfl
@[simp] theorem observeReg_srcLen (s : State) (r : Reg) : (observeReg s r).srcLen = s.srcLen := rfl
@[simp] theorem observeReg_dstAddr (s : State) (r : Reg) : (observeReg s r).dstAddr = s.dstAddr := rfl
@[simp] theorem observeReg_dstCap (s : State) (r : Reg) : (observeReg s r).dstCap = s.dstCap := rfl
@[simp] theorem observeReg_result (s : State) (r : Reg) : (observeReg s r).result = s.result := rfl
@[simp] theorem observeReg_trie (s : State) (r : Reg) : (observeReg s r).trie = s.trie := rfl
@[simp] theorem observeReg_rst (s : State) (r : Reg) : (observeReg s r).rst = s.rst := rfl
@[simp] theorem observeReg_mem (s : State) (r : Reg) : (observeReg s r).mem = s.mem := rfl
@[simp] theorem observeReg_program (s : State) (r : Reg) : (observeReg s r).program = s.program := rfl
@[simp] theorem observeReg_observed (s : State) (r : Reg) : (observeReg s r).observed = s.observed ++ [.reg r (readReg s r)] := rfl
@[simp] theorem observeReg_schedule (s : State) (r : Reg) : (observeReg s r).schedule = s.schedule := rfl
@[simp] theorem observeReg_draws (s : State) (r : Reg) : (observeReg s r).draws = s.draws + 1 := rfl

@[simp] theorem writeStatus_params (s : State) (v : Word) : (writeStatus s v).params = s.params := rfl
@[simp] theorem writeStatus_platform (s : State) (v : Word) : (writeStatus s v).platform = s.platform := rfl
@[simp] theorem writeStatus_mode (s : State) (v : Word) : (writeStatus s v).mode = s.mode := rfl
@[simp] theorem writeStatus_latch (s : State) (v : Word) : (writeStatus s v).latch = s.latch := rfl
@[simp] theorem writeStatus_done (s : State) (v : Word) : (writeStatus s v).done = (s.done && !(v.getLsbD 1)) := rfl
@[simp] theorem writeStatus_err (s : State) (v : Word) : (writeStatus s v).err = s.err := rfl
@[simp] theorem writeStatus_dictFull (s : State) (v : Word) : (writeStatus s v).dictFull = s.dictFull := rfl
@[simp] theorem writeStatus_ovr (s : State) (v : Word) : (writeStatus s v).ovr = (s.ovr && !(v.getLsbD 5)) := rfl
@[simp] theorem writeStatus_errcode (s : State) (v : Word) : (writeStatus s v).errcode = s.errcode := rfl
@[simp] theorem writeStatus_doneIe (s : State) (v : Word) : (writeStatus s v).doneIe = s.doneIe := rfl
@[simp] theorem writeStatus_srcAddr (s : State) (v : Word) : (writeStatus s v).srcAddr = s.srcAddr := rfl
@[simp] theorem writeStatus_srcLen (s : State) (v : Word) : (writeStatus s v).srcLen = s.srcLen := rfl
@[simp] theorem writeStatus_dstAddr (s : State) (v : Word) : (writeStatus s v).dstAddr = s.dstAddr := rfl
@[simp] theorem writeStatus_dstCap (s : State) (v : Word) : (writeStatus s v).dstCap = s.dstCap := rfl
@[simp] theorem writeStatus_result (s : State) (v : Word) : (writeStatus s v).result = s.result := rfl
@[simp] theorem writeStatus_trie (s : State) (v : Word) : (writeStatus s v).trie = s.trie := rfl
@[simp] theorem writeStatus_rst (s : State) (v : Word) : (writeStatus s v).rst = s.rst := rfl
@[simp] theorem writeStatus_mem (s : State) (v : Word) : (writeStatus s v).mem = s.mem := rfl
@[simp] theorem writeStatus_program (s : State) (v : Word) : (writeStatus s v).program = s.program := rfl
@[simp] theorem writeStatus_observed (s : State) (v : Word) : (writeStatus s v).observed = s.observed := rfl
@[simp] theorem writeStatus_schedule (s : State) (v : Word) : (writeStatus s v).schedule = s.schedule := rfl
@[simp] theorem writeStatus_draws (s : State) (v : Word) : (writeStatus s v).draws = s.draws := rfl

@[simp] theorem assertRst_params (s : State) : (assertRst s).params = s.params := rfl
@[simp] theorem assertRst_platform (s : State) : (assertRst s).platform = s.platform := rfl
@[simp] theorem assertRst_mode (s : State) : (assertRst s).mode = .idle := rfl
@[simp] theorem assertRst_latch (s : State) : (assertRst s).latch = Latch.reset := rfl
@[simp] theorem assertRst_done (s : State) : (assertRst s).done = false := rfl
@[simp] theorem assertRst_err (s : State) : (assertRst s).err = false := rfl
@[simp] theorem assertRst_dictFull (s : State) : (assertRst s).dictFull = false := rfl
@[simp] theorem assertRst_ovr (s : State) : (assertRst s).ovr = false := rfl
@[simp] theorem assertRst_errcode (s : State) : (assertRst s).errcode = .ok := rfl
@[simp] theorem assertRst_doneIe (s : State) : (assertRst s).doneIe = false := rfl
@[simp] theorem assertRst_srcAddr (s : State) : (assertRst s).srcAddr = 0 := rfl
@[simp] theorem assertRst_srcLen (s : State) : (assertRst s).srcLen = 0 := rfl
@[simp] theorem assertRst_dstAddr (s : State) : (assertRst s).dstAddr = 0 := rfl
@[simp] theorem assertRst_dstCap (s : State) : (assertRst s).dstCap = 0 := rfl
@[simp] theorem assertRst_result (s : State) : (assertRst s).result = 0 := rfl
@[simp] theorem assertRst_trie (s : State) : (assertRst s).trie = Trie.destroyed := rfl
@[simp] theorem assertRst_rst (s : State) : (assertRst s).rst = true := rfl
@[simp] theorem assertRst_mem (s : State) :
    (assertRst s).mem = if busyBit s then s.mem.scrambleRegion s.draws (latchSrc s.params s.latch) (latchDst s.params s.latch) else s.mem := rfl
@[simp] theorem assertRst_program (s : State) : (assertRst s).program = s.program := rfl
@[simp] theorem assertRst_observed (s : State) : (assertRst s).observed = s.observed := rfl
@[simp] theorem assertRst_schedule (s : State) : (assertRst s).schedule = s.schedule := rfl
@[simp] theorem assertRst_draws (s : State) : (assertRst s).draws = s.draws + 1 := rfl

end Sys2Proof.Machine
end

