-- ==== Sys2Proof/Laws/Complete.lean ====
section
/-! SUPPORT. Everything the completion of a run can do (R233 to R238), said once. -/

namespace Sys2Proof.Machine

/-- A completion leaves the constants, the host-written registers, OVR and the outside world alone. -/
theorem conclude_sameOutside (s : State) (r : Run) : SameOutside s (conclude s r) := by
  unfold conclude
  split <;> constructor <;> rfl

@[simp] theorem conclude_mode (s : State) (r : Run) : (conclude s r).mode = .idle := by
  unfold conclude
  split <;> rfl

@[simp] theorem conclude_done (s : State) (r : Run) : (conclude s r).done = true := by
  unfold conclude
  split <;> rfl

@[simp] theorem conclude_draws (s : State) (r : Run) : (conclude s r).draws = s.draws + 1 := by
  unfold conclude
  split <;> rfl

/-- A verdict that is a success: STATUS and RESULT as R234, the run's bytes written, the run's trie. -/
theorem conclude_of_finish (s : State) (r : Run) (v : Nat) (full : Bool) (h : busVerdict s r = .finish v full) :
    Succeeded (conclude s r) v full ∧ (conclude s r).mem = s.mem.writeBytes r.dst.lo r.written ∧
      (conclude s r).trie = r.trieOk := by
  unfold conclude
  rw [h]
  exact ⟨⟨rfl, rfl, rfl, rfl, rfl, rfl⟩, rfl, rfl⟩

/-- A verdict that is an error: STATUS and RESULT as R235, the trie of an error, and memory as R236. -/
theorem conclude_of_error (s : State) (r : Run) (c : ErrCode) (touched : Bool) (h : busVerdict s r = .error c touched) :
    FailedWith (conclude s r) c ∧
      (conclude s r).mem = (if touched then s.mem.scrambleRegion s.draws r.src r.dst else s.mem) ∧
        (conclude s r).trie = r.trieErr := by
  unfold conclude
  rw [h]
  exact ⟨⟨rfl, rfl, rfl, rfl, rfl, rfl⟩, rfl, rfl⟩

/-- The four ways the bus-error rule can go (R238). -/
theorem busVerdict_cases (s : State) (r : Run) :
    (accessesOk s.platform r = true ∧ busVerdict s r = r.verdict) ∨
      (accessesOk s.platform r = false ∧ (∃ v full, r.verdict = .finish v full) ∧ busVerdict s r = .error .bus true) ∨
      (accessesOk s.platform r = false ∧ ∃ c touched, r.verdict = .error c touched ∧
        ((Config.busWins s.draws = true ∧ busVerdict s r = .error .bus true) ∨
          (Config.busWins s.draws = false ∧ busVerdict s r = .error c touched))) := by
  unfold busVerdict
  cases ha : accessesOk s.platform r
  · right
    cases hv : r.verdict with
    | finish v full => exact .inl ⟨rfl, ⟨v, full, rfl⟩, by simp⟩
    | error c touched =>
      refine .inr ⟨rfl, c, touched, rfl, ?_⟩
      cases Config.busWins s.draws <;> simp
  · exact .inl ⟨rfl, by simp⟩

/-- A success of the machine is a success of the run, with every access answered normally. -/
theorem busVerdict_finish (s : State) (r : Run) (v : Nat) (full : Bool) (h : busVerdict s r = .finish v full) :
    accessesOk s.platform r = true ∧ r.verdict = .finish v full := by
  rcases busVerdict_cases s r with ⟨ha, hb⟩ | ⟨-, -, hb⟩ | ⟨-, c, t, -, ⟨-, hb⟩ | ⟨-, hb⟩⟩ <;> rw [hb] at h
  · exact ⟨ha, h⟩
  all_goals cases h

/-- A run that makes no access ends as it says. -/
theorem busVerdict_noAccess (s : State) (r : Run) (h1 : r.readLen = 0) (h2 : r.written = []) :
    busVerdict s r = r.verdict := by
  have : accessesOk s.platform r = true := by simp [accessesOk, h1, h2, regionOk_empty]
  simp [busVerdict, this]

@[simp] theorem busVerdict_stopRun (s : State) (c : ErrCode) (src dst : Region) (t : Trie) :
    busVerdict s (stopRun c src dst t) = .error c false := busVerdict_noAccess _ _ rfl rfl

/-- With every access of the run's regions answered normally the verdict is the run's own. -/
theorem busVerdict_of_busFree (s : State) (r : Run) (h : BusFree s r.src r.dst) (hr : r.src.lo + r.readLen ≤ r.src.hi)
    (hw : r.dst.lo + r.written.length ≤ r.dst.hi) : busVerdict s r = r.verdict := by
  have : accessesOk s.platform r = true := by
    rw [accessesOk, Bool.and_eq_true, regionOk_iff, regionOk_iff]
    exact ⟨fun x h1 h2 => h.1 x h1 (lt_of_lt_of_le h2 hr), fun x h1 h2 => h.2 x h1 (lt_of_lt_of_le h2 hw)⟩
  simp [busVerdict, this]

/-- Every access of a run answers normally, byte by byte (R238). -/
theorem accessesOk_iff (pf : Platform) (r : Run) :
    accessesOk pf r = true ↔ (∀ x, r.src.lo ≤ x → x < r.src.lo + r.readLen → busOk pf .read x = true) ∧
      ∀ x, r.dst.lo ≤ x → x < r.dst.lo + r.written.length → busOk pf .write x = true := by
  rw [accessesOk, Bool.and_eq_true, regionOk_iff, regionOk_iff]
  exact Iff.rfl

/-- When every access answers normally the verdict is the run's own (R238). -/
theorem busVerdict_of_accessesOk (s : State) (r : Run) (h : accessesOk s.platform r = true) : busVerdict s r = r.verdict := by
  simp [busVerdict, h]

/-- A completion keeps the canonical form of memory. -/
theorem conclude_mem_wf (s : State) (r : Run) (h : s.mem.wf) : (conclude s r).mem.wf := by
  cases hv : busVerdict s r with
  | finish v full =>
    rw [(conclude_of_finish s r v full hv).2.1]
    exact Memory.writeBytes_wf _ _ _ h
  | error c touched =>
    rw [(conclude_of_error s r c touched hv).2.1]
    split
    · exact Memory.scrambleRegion_wf _ _ _ _ h
    · exact h

/-- A completion with an error reports the run's own error, or BUS because some access did not answer normally. -/
theorem conclude_failed (s : State) (r : Run) (h : (conclude s r).err = true) :
    (∃ touched, r.verdict = .error (conclude s r).errcode touched ∧
        (conclude s r).mem = if touched then s.mem.scrambleRegion s.draws r.src r.dst else s.mem) ∨
      ((conclude s r).errcode = .bus ∧ accessesOk s.platform r = false ∧
        (conclude s r).mem = s.mem.scrambleRegion s.draws r.src r.dst) := by
  cases hv : busVerdict s r with
  | finish v full => rw [(conclude_of_finish s r v full hv).1.err] at h; cases h
  | error c touched =>
    obtain ⟨h1, h2, -⟩ := conclude_of_error s r c touched hv
    rw [h1.errcode]
    rcases busVerdict_cases s r with ⟨-, e⟩ | ⟨ha, -, e⟩ | ⟨ha, c', t, e, ⟨-, e'⟩ | ⟨-, e'⟩⟩
    · exact .inl ⟨touched, by rw [← e, hv], h2⟩
    · rw [hv] at e; cases e; exact .inr ⟨rfl, ha, h2⟩
    · rw [hv] at e'; cases e'; exact .inr ⟨rfl, ha, h2⟩
    · rw [hv] at e'; cases e'; exact .inl ⟨_, e, h2⟩

/-- Where no access meets a bus error the verdict is the run's own (R238). -/
@[simp] theorem busVerdict_withoutBusErrors (s : State) (r : Run) : busVerdict (withoutBusErrors s) r = r.verdict := by
  simp [busVerdict, accessesOk, regionOk, withoutBusErrors]

/-- When the bus changes nothing about the verdict, the completion is that of a platform without bus errors (R238). -/
theorem conclude_withoutBusErrors (s : State) (r : Run) (h : busVerdict s r = r.verdict) :
    conclude s r = { conclude (withoutBusErrors s) r with platform := s.platform } := by
  simp only [conclude, h, busVerdict_withoutBusErrors]
  cases r.verdict <;> rfl

/-- The access of a run at an address that answers with a bus error: not every access answers normally. -/
theorem accessesOk_of_bad (pf : Platform) (r : Run) (x : Nat)
    (h : (r.src.lo ≤ x ∧ x < r.src.lo + r.readLen ∧ busOk pf .read x = false) ∨
      (r.dst.lo ≤ x ∧ x < r.dst.lo + r.written.length ∧ busOk pf .write x = false)) : accessesOk pf r = false := by
  rw [accessesOk, Bool.and_eq_false_iff]
  rcases h with ⟨h1, h2, h3⟩ | ⟨h1, h2, h3⟩
  · left
    by_contra hh
    have := (regionOk_iff _ _ (regionAt _ _)).1 (by simpa using hh) x h1 h2
    rw [h3] at this
    cases this
  · right
    by_contra hh
    have := (regionOk_iff _ _ (regionAt _ _)).1 (by simpa using hh) x h1 h2
    rw [h3] at this
    cases this

/-- A completion does not read the operand registers. -/
theorem conclude_operands (s : State) (r : Run) (a n d c : Word) :
    conclude { s with srcAddr := a, srcLen := n, dstAddr := d, dstCap := c } r
      = { conclude s r with srcAddr := a, srcLen := n, dstAddr := d, dstCap := c } := by
  have h : busVerdict { s with srcAddr := a, srcLen := n, dstAddr := d, dstCap := c } r = busVerdict s r := rfl
  simp only [conclude, h]
  cases busVerdict s r <;> rfl

/-- A completion replaces the trie: what it was does not matter. -/
theorem conclude_any_trie (s : State) (r : Run) (tr : Trie) : conclude { s with trie := tr } r = conclude s r := by
  have h : busVerdict { s with trie := tr } r = busVerdict s r := rfl
  simp only [conclude, h]

/-- The trie after a completion is one of the run's two. -/
theorem conclude_trie (s : State) (r : Run) : (conclude s r).trie = r.trieOk ∨ (conclude s r).trie = r.trieErr := by
  cases hv : busVerdict s r with
  | finish v full => exact .inl (conclude_of_finish s r v full hv).2.2
  | error c touched => exact .inr (conclude_of_error s r c touched hv).2.2

/-- STATUS and RESULT after a completion agree with each other (R234, R235), whatever the verdict, as long as no run reports OK as
an error. -/
theorem conclude_statusOk (s : State) (r : Run) (h : ∀ t, r.verdict ≠ .error .ok t) : StatusOk (conclude s r) := by
  cases hv : busVerdict s r with
  | finish v full =>
    have := (conclude_of_finish s r v full hv).1
    exact ⟨by rw [this.err, this.errcode]; decide, fun h => by simp [this.err] at h, fun h => by simp at h⟩
  | error c touched =>
    have hf := (conclude_of_error s r c touched hv).1
    have hc : c ≠ .ok := by
      rintro rfl
      rcases busVerdict_cases s r with ⟨-, hb⟩ | ⟨-, -, hb⟩ | ⟨-, c, t, he, ⟨-, hb⟩ | ⟨-, hb⟩⟩ <;> rw [hv] at hb
      · exact h touched hb.symm
      · cases hb
      · cases hb
      · rw [← hb] at he
        exact h touched he
    exact ⟨by rw [hf.err, hf.errcode]; simpa using hc, fun _ => ⟨hf.result, hf.dictFull⟩, fun h => by simp at h⟩

/-- Bytes outside the destination region are unchanged, and so are those of the source region (R80, R236), for a run that writes
inside its destination region and whose source does not meet it. -/
theorem conclude_mem_frame (s : State) (r : Run) (hm : s.mem.wf) (hw : r.dst.lo + r.written.length ≤ max r.dst.hi r.dst.lo)
    (x : Nat) (hx : ¬(r.dst.lo ≤ x ∧ x < r.dst.hi)) : (conclude s r).mem.read x = s.mem.read x := by
  cases hv : busVerdict s r with
  | finish v full =>
    rw [(conclude_of_finish s r v full hv).2.1]
    exact Memory.read_writeBytes_out _ _ _ _ hm (by omega)
  | error c touched =>
    rw [(conclude_of_error s r c touched hv).2.1]
    split
    · exact Memory.read_scrambleRegion_out _ _ _ _ _ hm (.inl hx)
    · rfl

end Sys2Proof.Machine
end

