-- ==== Sys2Proof/Laws/PerInstr.lean ====
section
/-! SUPPORT. Statements for all commands, made per command: decoding a command's word gives the command back (R91, R92). -/

namespace Sys2Proof.Laws.WordRoundTrip

/-- The decoder reads a command's own word as that command. -/
def Statement (i : Instr) : Prop := decodeWord (encode i) = .ok i

theorem nop : Statement .nop := by unfold Statement; rfl

theorem trieInit : Statement .trieInit := by unfold Statement; rfl

theorem triePut : Statement .triePut := by unfold Statement; rfl

theorem trieGet : Statement .trieGet := by unfold Statement; rfl

theorem trieDestroy : Statement .trieDestroy := by unfold Statement; rfl

theorem compress : Statement .compress := by unfold Statement; rfl

theorem decompress : Statement .decompress := by unfold Statement; rfl

end Sys2Proof.Laws.WordRoundTrip
end

