-- ==== Sys2Proof/Laws/Decode.lean ====
section
/-! SUPPORT. The decoder: the fields of a word, and what it accepts. -/

namespace Sys2Proof

theorem decode_encode (i : Instr) : decodeWord (encode i) = .ok i := by
  cases i
  · exact Laws.WordRoundTrip.nop
  · exact Laws.WordRoundTrip.trieInit
  · exact Laws.WordRoundTrip.triePut
  · exact Laws.WordRoundTrip.trieGet
  · exact Laws.WordRoundTrip.trieDestroy
  · exact Laws.WordRoundTrip.compress
  · exact Laws.WordRoundTrip.decompress

/-- RSV is the word shifted right by 8, OPC its low byte (R90). -/
theorem rsv_opc_split (w : Word) : w.toNat = (rsvField w).toNat * 256 + (opcField w).toNat := by
  have h := w.isLt
  simp only [rsvField, opcField, BitVec.extractLsb'_toNat, Nat.shiftRight_eq_div_pow]
  omega

/-- The opcode map is the encoder's, on bytes (R91). -/
theorem decodeOpc_iff (b : Nat) (hb : b < 256) (i : Instr) : decodeOpc b = some i ↔ (encode i).toNat = b := by
  interval_cases b <;> cases i <;> decide

end Sys2Proof
end

