-- ==== Sys2Proof/Laws/Trie.lean ====
section
/-! SUPPORT. The trie: lookup, insertion, and the invariants of R54 that insertion keeps. -/

namespace Sys2Proof.Machine

@[simp] theorem cwIn_nil (k : Bytes) : cwIn [] k = 0 := rfl

theorem cwIn_cons (e : Bytes × Nat) (rest : List (Bytes × Nat)) (k : Bytes) :
    cwIn (e :: rest) k = if e.1 = k then e.2 else cwIn rest k := rfl

theorem hasNode_iff (t : Trie) (k : Bytes) : t.hasNode k = true ↔ k ∈ t.nodes := by
  simp [Trie.hasNode]

/-- The nonempty beginnings of a string (R109). -/
theorem mem_beginnings (k q : Bytes) : q ∈ beginnings k ↔ ∃ i, i < k.length ∧ q = k.take (i + 1) := by
  simp only [beginnings, List.mem_map, List.mem_range]
  constructor <;> rintro ⟨i, h, e⟩ <;> exact ⟨i, h, e.symm⟩

theorem mem_missing (t : Trie) (k q : Bytes) : q ∈ t.missing k ↔ q ∈ beginnings k ∧ q ∉ t.nodes := by
  simp [Trie.missing, ← hasNode_iff]

theorem nodup_beginnings (k : Bytes) : (beginnings k).Nodup := by
  refine (List.nodup_range).map_on ?_
  intro i hi j hj h
  have := congrArg List.length h
  simp only [List.mem_range, List.length_take] at *
  omega

theorem nodup_missing (t : Trie) (k : Bytes) : (t.missing k).Nodup := (nodup_beginnings k).filter _

theorem beginnings_ne_nil (k q : Bytes) (h : q ∈ beginnings k) : q ≠ [] := by
  obtain ⟨i, hi, rfl⟩ := (mem_beginnings k q).1 h
  intro hn
  have := congrArg List.length hn
  simp only [List.length_take, List.length_nil] at this
  omega

theorem self_mem_beginnings (k : Bytes) (h : k ≠ []) : k ∈ beginnings k := by
  have : 0 < k.length := List.length_pos_iff.2 h
  refine (mem_beginnings k k).2 ⟨k.length - 1, by omega, ?_⟩
  rw [Nat.sub_add_cancel this, List.take_length]

/-- Everything `TrieInsert` can do (R109). -/
theorem trieInsert_cases (p : Params) (t : Trie) (k : Bytes) :
    (t.cw k ≠ 0 ∧ trieInsert p t k = (.present (t.cw k), t)) ∨
      (t.cw k = 0 ∧ cwMax p < t.next ∧ trieInsert p t k = (.suppressed, t)) ∨
      (t.cw k = 0 ∧ t.next ≤ cwMax p ∧ p.nodeCap < t.nodes.length + (t.missing k).length ∧
        trieInsert p t k = (.noSpace, t)) ∨
      (t.cw k = 0 ∧ t.next ≤ cwMax p ∧ t.nodes.length + (t.missing k).length ≤ p.nodeCap ∧
        trieInsert p t k = (.assigned t.next,
          { t with nodes := t.missing k ++ t.nodes, codes := (k, t.next) :: t.codes, next := t.next + 1 })) := by
  by_cases h1 : t.cw k = 0
  · by_cases h2 : cwMax p < t.next
    · exact .inr (.inl ⟨h1, h2, by simp [trieInsert, h1, h2]⟩)
    · by_cases h3 : p.nodeCap < t.nodes.length + (t.missing k).length
      · exact .inr (.inr (.inl ⟨h1, by omega, h3, by simp [trieInsert, h1, h2, h3]⟩))
      · exact .inr (.inr (.inr ⟨h1, by omega, by omega, by simp [trieInsert, h1, h2, h3]⟩))
  · exact .inl ⟨h1, by simp [trieInsert, h1]⟩

/-- The codeword of a string after one more entry. -/
theorem cw_cons (t : Trie) (ns : List Bytes) (k q : Bytes) (c n : Nat) :
    Trie.cw { t with nodes := ns, codes := (k, c) :: t.codes, next := n } q = if k = q then c else t.cw q := rfl

theorem destroyed_ok (p : Params) : TrieOk p Trie.destroyed where
  dead := fun _ => ⟨rfl, rfl, rfl⟩
  root := by intro h; cases h
  nodup := List.nodup_nil
  closed := by intro k i h; cases h
  cap := by simp [Trie.destroyed]
  entryIsNode := by intro k h; exact absurd rfl h
  rootUnset := rfl
  nextLow := le_refl 1
  nextHigh := Nat.one_le_two_pow
  below := by intro k; exact Nat.one_pos
  taken := by intro c h1 h2; simp only [Trie.destroyed] at h2; omega

theorem fresh_ok (p : Params) (h : 1 ≤ p.nodeCap) : TrieOk p Trie.fresh where
  dead := by intro h; cases h
  root := by intro; simp [Trie.fresh]
  nodup := by simp [Trie.fresh]
  closed := by intro k i h; simp only [Trie.fresh, List.mem_singleton] at h; simp [Trie.fresh, h]
  cap := by simpa [Trie.fresh] using h
  entryIsNode := by intro k h; exact absurd rfl h
  rootUnset := rfl
  nextLow := le_refl 1
  nextHigh := Nat.one_le_two_pow
  below := by intro k; exact Nat.one_pos
  taken := by intro c h1 h2; simp only [Trie.fresh] at h2; omega

/-- An insertion into a live trie keeps the invariants of R54. -/
theorem trieInsert_ok (p : Params) (t : Trie) (k : Bytes) (h : TrieOk p t) (hl : t.live = true) (hk : k ≠ []) :
    TrieOk p (trieInsert p t k).2 := by
  rcases trieInsert_cases p t k with ⟨-, e⟩ | ⟨-, -, e⟩ | ⟨-, -, -, e⟩ | ⟨h0, hn, hc, e⟩ <;> rw [e]
  · exact h
  · exact h
  · exact h
  have hmem : ∀ q, q ∈ t.missing k ++ t.nodes ↔ q ∈ beginnings k ∨ q ∈ t.nodes := by
    intro q
    rw [List.mem_append, mem_missing]
    tauto
  refine
    { dead := by intro hd; simp [hl] at hd
      root := fun _ => (hmem []).2 (.inr (h.root hl))
      nodup := ?_
      closed := ?_
      cap := by simpa [Nat.add_comm] using hc
      entryIsNode := ?_
      rootUnset := ?_
      nextLow := Nat.le_add_left _ _
      nextHigh := by have := cwMax_succ p; simp only; omega
      below := ?_
      taken := ?_ }
  · refine List.Nodup.append (nodup_missing t k) h.nodup ?_
    intro q h1 h2
    exact ((mem_missing t k q).1 h1).2 h2
  · intro q i hq
    rw [hmem] at hq ⊢
    rcases hq with hq | hq
    · obtain ⟨j, hj, rfl⟩ := (mem_beginnings k q).1 hq
      by_cases hi : i = 0
      · subst hi
        exact .inr (by simpa using h.root hl)
      · refine .inl ((mem_beginnings k _).2 ⟨min i (j + 1) - 1, by omega, ?_⟩)
        rw [List.take_take]
        congr 1
        omega
    · exact .inr (h.closed q i hq)
  · intro q hq
    rw [hmem]
    rw [cw_cons] at hq
    split at hq
    · rename_i he
      exact .inl (he ▸ self_mem_beginnings k hk)
    · exact .inr (h.entryIsNode q hq)
  · rw [cw_cons, if_neg hk]
    exact h.rootUnset
  · intro q
    rw [cw_cons]
    have := h.below q
    simp only
    split <;> omega
  · intro c h1 h2
    simp only at h2
    by_cases hcn : c = t.next
    · refine ⟨k, by simp only [cw_cons, if_true, hcn], ?_⟩
      intro q hq
      simp only [cw_cons] at hq
      split at hq
      · rename_i he; exact he.symm
      · have := h.below q; omega
    · obtain ⟨q, hq, hu⟩ := h.taken c h1 (by omega)
      have hqk : k ≠ q := by rintro rfl; omega
      refine ⟨q, by simp only [cw_cons, if_neg hqk, hq], ?_⟩
      intro q' hq'
      simp only [cw_cons] at hq'
      split at hq'
      · omega
      · exact hu q' hq'

/-- The trie after each TRIE_PUT keeps the invariants. -/
theorem triePutRun_ok (p : Params) (t : Trie) (l : Latch) (m : Memory) (h : TrieOk p t) :
    TrieOk p (triePutRun p t l m).trieOk ∧ (triePutRun p t l m).trieErr = t := by
  unfold triePutRun
  simp only
  split_ifs with h1 h2 h3
  · exact ⟨h, rfl⟩
  · exact ⟨h, rfl⟩
  · exact ⟨h, rfl⟩
  · have hl : t.live = true := by simpa using h1
    have hk : m.readBytes l.a.toNat l.n.toNat ≠ [] := by
      intro hn
      have := congrArg List.length hn
      simp at this
      exact h2 (by simpa using this)
    have := trieInsert_ok p t _ h hl hk
    split <;> rename_i e <;> rw [e] at this
    · exact ⟨this, rfl⟩
    · exact ⟨this, rfl⟩
    · exact ⟨h, rfl⟩
    · exact ⟨this, rfl⟩

@[simp] theorem trieGetRun_trieOk (p : Params) (t : Trie) (l : Latch) (m : Memory) : (trieGetRun p t l m).trieOk = t := by
  unfold trieGetRun
  simp only
  split_ifs <;> rfl

@[simp] theorem trieGetRun_trieErr (p : Params) (t : Trie) (l : Latch) (m : Memory) : (trieGetRun p t l m).trieErr = t := by
  unfold trieGetRun
  simp only
  split_ifs <;> rfl

end Sys2Proof.Machine
end

