-- ==== Sys2Proof/Laws/Encoder.lean ====
section
/-! SUPPORT. The encoder: its trie at every point of the scan (R145, R149, R151, R153), and what one byte of the scan does. -/

namespace Sys2Proof.Machine

/-! ### Entries in the order of their codewords -/

/-- The entries carry the codewords `n − 1, …, 1`, newest first, and no string twice. -/
def CodesOk : List (Bytes × Nat) → Nat → Prop
  | [], n => n = 1
  | e :: rest, n => n = e.2 + 1 ∧ e.1 ≠ [] ∧ cwIn rest e.1 = 0 ∧ CodesOk rest e.2

/-- The dictionary of the decoder that holds these entries. -/
def dictOf (codes : List (Bytes × Nat)) : List (Nat × Bytes) := codes.map fun e => (e.2, e.1)

theorem CodesOk.pos {codes : List (Bytes × Nat)} {n : Nat} (h : CodesOk codes n) : 1 ≤ n := by
  cases codes with
  | nil => exact h.ge
  | cons e rest => have := h.1; omega

theorem CodesOk.length {codes : List (Bytes × Nat)} {n : Nat} (h : CodesOk codes n) : codes.length + 1 = n := by
  induction codes generalizing n with
  | nil => exact h.symm
  | cons e rest ih =>
    have := ih h.2.2.2
    have := h.1
    simp only [List.length_cons]
    omega

theorem CodesOk.cw_lt {codes : List (Bytes × Nat)} {n : Nat} (h : CodesOk codes n) (k : Bytes) : cwIn codes k < n := by
  induction codes generalizing n with
  | nil => have := h.pos; simp only [cwIn_nil]; omega
  | cons e rest ih =>
    have := ih h.2.2.2
    have := h.1
    rw [cwIn_cons]
    split <;> omega

theorem CodesOk.cw_root {codes : List (Bytes × Nat)} {n : Nat} (h : CodesOk codes n) : cwIn codes [] = 0 := by
  induction codes generalizing n with
  | nil => rfl
  | cons e rest ih =>
    rw [cwIn_cons, if_neg h.2.1]
    exact ih h.2.2.2

/-- The decoder's dictionary gives back the string of each codeword (R188). -/
theorem CodesOk.dictGet {codes : List (Bytes × Nat)} {n : Nat} (h : CodesOk codes n) (k : Bytes) (hk : cwIn codes k ≠ 0) :
    dictGet (dictOf codes) (cwIn codes k) = k := by
  induction codes generalizing n with
  | nil => exact absurd rfl hk
  | cons e rest ih =>
    simp only [dictOf, List.map_cons, Machine.dictGet]
    rw [cwIn_cons] at hk ⊢
    split
    · rename_i he
      simp [he]
    · rename_i he
      have hlt := h.2.2.2.cw_lt k
      rw [if_neg (by omega)]
      rw [if_neg he] at hk
      exact ih h.2.2.2 hk

theorem mem_fst_iff {codes : List (Bytes × Nat)} {n : Nat} (h : CodesOk codes n) (k : Bytes) :
    k ∈ codes.map Prod.fst ↔ cwIn codes k ≠ 0 := by
  induction codes generalizing n with
  | nil => simp
  | cons e rest ih =>
    rw [List.map_cons, List.mem_cons, cwIn_cons, ih h.2.2.2]
    by_cases he : e.1 = k
    · have := h.2.2.2.pos
      simp only [he, true_or, if_true, true_iff]
      omega
    · have hk : k ≠ e.1 := fun x => he x.symm
      simp [he, hk]

/-! ### The seeded trie -/

/-- The first `n` seeds, newest first. -/
def seedCodes (n : Nat) : List (Bytes × Nat) := ((List.range n).map fun v => (seedKey v, v + 1)).reverse

theorem seedCodes_succ (n : Nat) : seedCodes (n + 1) = (seedKey n, n + 1) :: seedCodes n := by
  simp [seedCodes, List.range_succ]

theorem seedTrie_codes : seedTrie.codes = seedCodes 256 := by simp only [seedTrie, seedCodes, seedCount]

theorem seedTrie_next : seedTrie.next = 257 := by simp only [seedTrie, firstDyn]

theorem seedKey_inj {v w : Nat} (hv : v < 256) (hw : w < 256) (h : seedKey v = seedKey w) : v = w := by
  simp only [seedKey, List.cons.injEq, and_true] at h
  have := congrArg BitVec.toNat h
  simp only [BitVec.toNat_ofNat] at this
  omega

/-- A byte is the seed of its value. -/
theorem seedKey_toNat (b : Byte) : seedKey b.toNat = [b] := by simp [seedKey]

theorem cwIn_seedCodes (n v : Nat) (hn : n ≤ 256) (hv : v < 256) :
    cwIn (seedCodes n) (seedKey v) = if v < n then v + 1 else 0 := by
  induction n with
  | zero => simp [seedCodes]
  | succ n ih =>
    rw [seedCodes_succ, cwIn_cons, ih (by omega)]
    by_cases h : n = v
    · subst h; simp
    · have : seedKey n ≠ seedKey v := fun e => h (seedKey_inj (by omega) hv e)
      rw [if_neg this]
      split_ifs <;> omega

theorem cwIn_seedCodes_long (n : Nat) (k : Bytes) (h : k.length ≠ 1) : cwIn (seedCodes n) k = 0 := by
  induction n with
  | zero => simp [seedCodes]
  | succ n ih =>
    rw [seedCodes_succ, cwIn_cons, ih]
    have : seedKey n ≠ k := by rintro rfl; exact h rfl
    rw [if_neg this]

theorem seedCodes_ok (n : Nat) (hn : n ≤ 256) : CodesOk (seedCodes n) (n + 1) := by
  induction n with
  | zero => rfl
  | succ n ih =>
    rw [seedCodes_succ]
    refine ⟨rfl, by simp [seedKey], ?_, ih (by omega)⟩
    rw [cwIn_seedCodes n n (by omega) (by omega)]
    simp

/-- After seeding, the codeword of byte value v is v + 1 (R145). -/
theorem seedTrie_cw_byte (b : Byte) : seedTrie.cw [b] = b.toNat + 1 := by
  have hb := b.isLt
  rw [Trie.cw, seedTrie_codes, ← seedKey_toNat, cwIn_seedCodes _ _ (by omega) hb, if_pos hb]

theorem seedTrie_cw_long (k : Bytes) (h : k.length ≠ 1) : seedTrie.cw k = 0 := by
  rw [Trie.cw, seedTrie_codes]
  exact cwIn_seedCodes_long 256 k h

/-! ### The trie during a COMPRESS -/

/-- The trie at every point of a COMPRESS: every node but the root is an entry, every beginning of an entry is one, and every single
byte is one (R145, R149, R151). -/
structure EncOk (p : Params) (t : Trie) : Prop where
  live : t.live = true
  codes : CodesOk t.codes t.next
  nodes : t.nodes = t.codes.map Prod.fst ++ [[]]
  closed : ∀ k b, t.cw (k ++ [b]) ≠ 0 → k = [] ∨ t.cw k ≠ 0
  seeds : ∀ b : Byte, t.cw [b] ≠ 0
  low : 257 ≤ t.next
  high : t.next ≤ 2 ^ p.w

theorem seedTrie_encOk (p : Params) (h : p.Legal) : EncOk p seedTrie where
  live := by simp only [seedTrie]
  codes := by
    rw [seedTrie_codes, seedTrie_next]
    exact seedCodes_ok 256 (le_refl _)
  nodes := by
    simp only [seedTrie, List.map_reverse, List.map_map]
    congr 1
  closed := by
    intro k b hk
    by_contra hc
    push Not at hc
    refine hk (seedTrie_cw_long _ ?_)
    have := List.length_pos_iff.2 hc.1
    simp only [List.length_append, List.length_singleton]
    omega
  seeds := by intro b; rw [seedTrie_cw_byte]; omega
  low := by rw [seedTrie_next]
  high := by have := cwMax_ge p h; have := cwMax_succ p; rw [seedTrie_next]; omega

theorem EncOk.beginnings_entries {p : Params} {t : Trie} (h : EncOk p t) (k : Bytes) (hk : t.cw k ≠ 0) :
    ∀ q ∈ beginnings k, t.cw q ≠ 0 := by
  induction k using List.reverseRecOn with
  | nil => intro q hq; simp [beginnings] at hq
  | append_singleton k b ih =>
    intro q hq
    obtain ⟨i, hi, rfl⟩ := (mem_beginnings _ _).1 hq
    simp only [List.length_append, List.length_singleton] at hi
    by_cases hlast : i = k.length
    · subst hlast
      rw [List.take_of_length_le (by simp)]
      exact hk
    · rcases h.closed k b hk with rfl | hk'
      · simp only [List.length_nil] at hi hlast
        omega
      · refine ih hk' _ ((mem_beginnings _ _).2 ⟨i, by omega, ?_⟩)
        rw [List.take_append_of_le_length (by omega)]

theorem EncOk.mem_nodes {p : Params} {t : Trie} (h : EncOk p t) (k : Bytes) : k ∈ t.nodes ↔ t.cw k ≠ 0 ∨ k = [] := by
  rw [h.nodes, List.mem_append, mem_fst_iff h.codes, List.mem_singleton]
  rfl

/-- The path of an extended candidate lacks exactly its last node (R149). -/
theorem EncOk.missing_eq {p : Params} {t : Trie} (h : EncOk p t) (k : Bytes) (b : Byte) (hk : k = [] ∨ t.cw k ≠ 0)
    (hkb : t.cw (k ++ [b]) = 0) : t.missing (k ++ [b]) = [k ++ [b]] := by
  have hb : beginnings (k ++ [b]) = beginnings k ++ [k ++ [b]] := by
    simp only [beginnings, List.length_append, List.length_singleton, List.range_succ, List.map_append, List.map_cons,
      List.map_nil]
    congr 1
    · apply List.map_congr_left
      intro i hi
      rw [List.mem_range] at hi
      exact List.take_append_of_le_length (by omega)
    · rw [List.take_of_length_le (by simp)]
  have h1 : (beginnings k).filter (fun q => !t.hasNode q) = [] := by
    rw [List.filter_eq_nil_iff]
    intro q hq
    have : t.hasNode q = true := by
      rw [hasNode_iff, h.mem_nodes]
      rcases hk with rfl | hk
      · simp [beginnings] at hq
      · exact .inl (h.beginnings_entries k hk q hq)
    simp [this]
  have h2 : t.hasNode (k ++ [b]) = false := by
    rw [← Bool.not_eq_true, hasNode_iff, h.mem_nodes]
    simp [hkb]
  rw [Trie.missing, hb, List.filter_append, h1]
  simp [h2]

theorem EncOk.nodes_length {p : Params} {t : Trie} (h : EncOk p t) : t.nodes.length = t.next := by
  have := h.codes.length
  simp [h.nodes, this]

/-- The trie after one more entry. -/
def addEntry (t : Trie) (k : Bytes) : Trie :=
  { t with nodes := k :: t.nodes, codes := (k, t.next) :: t.codes, next := t.next + 1 }

/-- An insertion of the scan is suppressed when the dictionary is frozen and assigns the next codeword otherwise: never PRESENT,
never NOSPACE (R149). -/
theorem EncOk.insert {p : Params} (hp : p.Legal) {t : Trie} (h : EncOk p t) (k : Bytes) (b : Byte)
    (hk : k = [] ∨ t.cw k ≠ 0) (hkb : t.cw (k ++ [b]) = 0) :
    (cwMax p < t.next ∧ trieInsert p t (k ++ [b]) = (.suppressed, t)) ∨
      (t.next ≤ cwMax p ∧ trieInsert p t (k ++ [b]) = (.assigned t.next, addEntry t (k ++ [b]))) := by
  have hm := h.missing_eq k b hk hkb
  rcases trieInsert_cases p t (k ++ [b]) with ⟨h1, -⟩ | ⟨-, h2, e⟩ | ⟨-, h2, h3, -⟩ | ⟨-, h2, -, e⟩
  · exact absurd hkb h1
  · exact .inl ⟨h2, e⟩
  · have := h.nodes_length
    have := cwMax_succ p
    have := hp.2.2.2.2.1
    rw [hm] at h3
    simp only [List.length_singleton] at h3
    omega
  · rw [hm] at e
    exact .inr ⟨h2, e⟩

theorem addEntry_cw (t : Trie) (k q : Bytes) : (addEntry t k).cw q = if k = q then t.next else t.cw q := rfl

theorem EncOk.addEntry {p : Params} {t : Trie} (h : EncOk p t) (k : Bytes) (b : Byte) (hk : k = [] ∨ t.cw k ≠ 0)
    (hkb : t.cw (k ++ [b]) = 0) (hn : t.next ≤ cwMax p) : EncOk p (addEntry t (k ++ [b])) where
  live := h.live
  codes := ⟨rfl, by simp, hkb, h.codes⟩
  nodes := by simp [Machine.addEntry, h.nodes]
  closed := by
    intro q c hq
    have hlow := h.low
    rw [addEntry_cw] at hq ⊢
    split at hq
    · rename_i e
      obtain ⟨rfl, -⟩ := List.append_inj' e rfl
      rcases hk with rfl | hk
      · exact .inl rfl
      · right
        split
        · omega
        · exact hk
    · rcases h.closed q c hq with rfl | hq'
      · exact .inl rfl
      · right
        split
        · omega
        · exact hq'
  seeds := by
    intro c
    have hlow := h.low
    rw [addEntry_cw]
    split
    · omega
    · exact h.seeds c
  low := by have := h.low; simp only [Machine.addEntry]; omega
  high := by have := cwMax_succ p; simp only [Machine.addEntry]; omega

/-! ### One byte of the scan, and the whole scan -/

/-- The encoder at every point of the scan: its trie, and its candidate, which is ε or a complete entry (R151). -/
structure ScanOk (p : Params) (w : EncoderWork) : Prop where
  trie : EncOk p w.trie
  cand : w.cand = [] ∨ w.trie.cw w.cand ≠ 0

theorem encoderStart_ok (p : Params) (h : p.Legal) : ScanOk p encoderStart := ⟨seedTrie_encOk p h, .inl rfl⟩

/-- Everything one byte of the scan can do (R146). -/
theorem encoderByte_cases (p : Params) (hp : p.Legal) (w : EncoderWork) (h : ScanOk p w) (b : Byte) :
    (w.trie.cw (w.cand ++ [b]) ≠ 0 ∧ encoderByte p w b = { w with cand := w.cand ++ [b] }) ∨
      (w.trie.cw (w.cand ++ [b]) = 0 ∧ w.cand ≠ [] ∧ w.trie.cw w.cand ≠ 0 ∧
        ((cwMax p < w.trie.next ∧
            encoderByte p w b = ⟨w.trie, [b], w.out ++ [w.trie.cw w.cand], true⟩) ∨
          (w.trie.next ≤ cwMax p ∧
            encoderByte p w b =
              ⟨addEntry w.trie (w.cand ++ [b]), [b], w.out ++ [w.trie.cw w.cand], w.dictFull⟩))) := by
  by_cases hz : w.trie.cw (w.cand ++ [b]) = 0
  · right
    have hne : w.cand ≠ [] := by
      intro hn
      rw [hn] at hz
      exact h.trie.seeds b hz
    have hcw := h.cand.resolve_left hne
    refine ⟨hz, hne, hcw, ?_⟩
    rcases h.trie.insert hp w.cand b h.cand hz with ⟨hn, e⟩ | ⟨hn, e⟩
    · exact .inl ⟨hn, by simp [encoderByte, hz, e]⟩
    · exact .inr ⟨hn, by simp [encoderByte, hz, e]⟩
  · exact .inl ⟨hz, by simp [encoderByte, hz]⟩

theorem encoderByte_ok (p : Params) (hp : p.Legal) (w : EncoderWork) (h : ScanOk p w) (b : Byte) :
    ScanOk p (encoderByte p w b) := by
  rcases encoderByte_cases p hp w h b with ⟨hz, e⟩ | ⟨hz, hne, hcw, ⟨hn, e⟩ | ⟨hn, e⟩⟩ <;> rw [e]
  · exact ⟨h.trie, .inr hz⟩
  · exact ⟨h.trie, .inr (h.trie.seeds b)⟩
  · have := h.trie.addEntry w.cand b h.cand hz hn
    exact ⟨this, .inr (this.seeds b)⟩

theorem encoderScan_append (p : Params) (x : Bytes) (b : Byte) :
    encoderScan p (x ++ [b]) = encoderByte p (encoderScan p x) b := by
  simp [encoderScan, List.foldl_append]

theorem encoderScan_ok (p : Params) (hp : p.Legal) (x : Bytes) : ScanOk p (encoderScan p x) := by
  induction x using List.reverseRecOn with
  | nil => exact encoderStart_ok p hp
  | append_singleton x b ih =>
    rw [encoderScan_append]
    exact encoderByte_ok p hp _ ih b

/-- The counts of a scan: the counter follows the insertions until the dictionary freezes (R153), the emitted codewords are codewords
(R151), each emission covers at least one byte (R152), and DICT_FULL says that an insertion was suppressed (R146). -/
structure ScanCounts (p : Params) (x : Bytes) (w : EncoderWork) : Prop where
  next : w.trie.next = min (257 + w.out.length) (2 ^ p.w)
  full : w.dictFull = decide (2 ^ p.w < 257 + w.out.length)
  codewords : ∀ c ∈ w.out, 1 ≤ c ∧ c ≤ cwMax p
  size : w.out.length + w.cand.length ≤ x.length
  cand : x ≠ [] → w.cand ≠ []

theorem encoderScan_counts (p : Params) (hp : p.Legal) (x : Bytes) : ScanCounts p x (encoderScan p x) := by
  have hmax := cwMax_succ p
  have hge := cwMax_ge p hp
  induction x using List.reverseRecOn with
  | nil =>
    refine ⟨?_, ?_, by simp [encoderScan, encoderStart], by simp [encoderScan, encoderStart], by simp⟩
    · have : (encoderScan p []).trie.next = 257 := seedTrie_next
      rw [this]
      simp [encoderScan, encoderStart]
      omega
    · have : (encoderScan p []).dictFull = false := rfl
      rw [this]
      simp [encoderScan, encoderStart]
      omega
  | append_singleton x b ih =>
    rw [encoderScan_append]
    have hw := encoderScan_ok p hp x
    generalize encoderScan p x = w at ih hw
    have hsize := ih.size
    have hnext := ih.next
    have hfull := ih.full
    rcases encoderByte_cases p hp w hw b with ⟨hz, e⟩ | ⟨hz, hne, hcw, ⟨hn, e⟩ | ⟨hn, e⟩⟩ <;> rw [e]
    · exact ⟨ih.next, ih.full, ih.codewords, by simp; omega, by simp⟩
    · have hlt := hw.trie.codes.cw_lt w.cand
      have hpos := List.length_pos_iff.2 hne
      refine ⟨by simp; omega, by simp; omega, ?_, by simp; omega, by simp⟩
      intro c hc
      rcases List.mem_append.1 hc with hc | hc
      · exact ih.codewords c hc
      · rw [List.mem_singleton.1 hc]
        rw [← Trie.cw] at hlt
        have := hw.trie.high
        omega
    · have hlt := hw.trie.codes.cw_lt w.cand
      have hpos := List.length_pos_iff.2 hne
      refine ⟨by simp [addEntry]; omega, ?_, ?_, by simp; omega, by simp⟩
      · simp only [List.length_append, List.length_singleton]
        rw [hfull]
        simp only [decide_eq_decide]
        omega
      · intro c hc
        rcases List.mem_append.1 hc with hc | hc
        · exact ih.codewords c hc
        · rw [List.mem_singleton.1 hc]
          rw [← Trie.cw] at hlt
          have := hw.trie.high
          omega

/-- The trailing emission of a nonempty input is a codeword (R147, R151). -/
theorem encoderScan_trailing (p : Params) (hp : p.Legal) (x : Bytes) (hx : x ≠ []) :
    1 ≤ (encoderScan p x).trie.cw (encoderScan p x).cand ∧
      (encoderScan p x).trie.cw (encoderScan p x).cand ≤ cwMax p := by
  have hw := encoderScan_ok p hp x
  have hcw := hw.cand.resolve_left ((encoderScan_counts p hp x).cand hx)
  have hlt := hw.trie.codes.cw_lt (encoderScan p x).cand
  rw [← Trie.cw] at hlt
  have := hw.trie.high
  have := cwMax_succ p
  omega

/-- Every emitted codeword of a nonempty input is in 1..CW_MAX (R151). -/
theorem emitted_range (p : Params) (hp : p.Legal) (x : Bytes) (hx : x ≠ []) :
    ∀ c ∈ emitted (encoderScan p x), 1 ≤ c ∧ c ≤ cwMax p := by
  intro c hc
  rcases List.mem_append.1 hc with hc | hc
  · exact (encoderScan_counts p hp x).codewords c hc
  · rw [List.mem_singleton.1 hc]
    exact encoderScan_trailing p hp x hx

/-- The empty input emits the one codeword 0 (R147). -/
theorem emitted_nil (p : Params) : emitted (encoderScan p []) = [0] := by
  have := (seedCodes_ok 256 (le_refl _)).cw_root
  rw [← seedTrie_codes, ← Trie.cw] at this
  simp [emitted, encoderScan, encoderStart, this]

/-- The size of the output: 2 for the empty input, 2 to n + 1 otherwise (R152). -/
theorem encodedStream_length (p : Params) (hp : p.Legal) (x : Bytes) :
    2 ≤ (encodedStream p x).length ∧ (encodedStream p x).length ≤ max x.length 1 + 1 := by
  by_cases hx : x = []
  · subst hx
    simp [encodedStream, emitted_nil]
  · have h := encoderScan_counts p hp x
    have := h.size
    have := List.length_pos_iff.2 (h.cand hx)
    simp only [encodedStream, emitted, List.length_cons, List.length_append, List.length_nil]
    omega

/-- Every element of the stream fits E bytes (R75), for an input no longer than ELEM_MAX. -/
theorem encodedStream_fits (p : Params) (hp : p.Legal) (x : Bytes) (hx : x.length ≤ elemMax p) :
    ∀ v ∈ encodedStream p x, v < 256 ^ p.e := by
  have h1 := elemMax_succ p
  have h2 := cwMax_le_elemMax p hp
  intro v hv
  rcases List.mem_cons.1 hv with rfl | hv
  · omega
  · by_cases hn : x = []
    · subst hn
      rw [emitted_nil, List.mem_singleton] at hv
      omega
    · have := (emitted_range p hp x hn v hv).2
      omega

/-- The 256 puts of R140 give the trie of R145. -/
theorem seedByPuts_upto (p : Params) (hp : p.Legal) (n : Nat) (hn : n ≤ 256) :
    (List.range n).foldl (fun t v => (trieInsert p t (seedKey v)).2) Trie.fresh
      = ⟨true, (seedCodes n).map Prod.fst ++ [[]], seedCodes n, n + 1⟩ := by
  induction n with
  | zero => simp [seedCodes, Trie.fresh]
  | succ n ih =>
    rw [List.range_succ, List.foldl_append, ih (by omega)]
    have hmax := cwMax_ge p hp
    have hcap : 512 ≤ p.nodeCap := by have := cwMax_succ p; have := hp.2.2.2.2.1; omega
    have hz : Trie.cw ⟨true, (seedCodes n).map Prod.fst ++ [[]], seedCodes n, n + 1⟩ (seedKey n) = 0 := by
      show cwIn (seedCodes n) (seedKey n) = 0
      rw [cwIn_seedCodes n n (by omega) (by omega)]
      simp
    have hmiss : Trie.missing ⟨true, (seedCodes n).map Prod.fst ++ [[]], seedCodes n, n + 1⟩ (seedKey n) = [seedKey n] := by
      have hb : beginnings (seedKey n) = [seedKey n] := rfl
      rw [Trie.missing, hb]
      have : Trie.hasNode ⟨true, (seedCodes n).map Prod.fst ++ [[]], seedCodes n, n + 1⟩ (seedKey n) = false := by
        rw [← Bool.not_eq_true, hasNode_iff]
        simp only [List.mem_append, List.mem_singleton]
        rw [mem_fst_iff (seedCodes_ok n (by omega))]
        rintro (hc | hc)
        · exact hc hz
        · simp [seedKey] at hc
      simp [this]
    have hlen : (seedCodes n).length = n := by simp [seedCodes]
    rcases trieInsert_cases p ⟨true, (seedCodes n).map Prod.fst ++ [[]], seedCodes n, n + 1⟩ (seedKey n) with
      ⟨h1, -⟩ | ⟨-, h2, -⟩ | ⟨-, -, h3, -⟩ | ⟨-, -, -, e⟩
    · exact absurd hz h1
    · simp only at h2
      omega
    · rw [hmiss] at h3
      simp only [List.length_append, List.length_map, hlen, List.length_singleton] at h3
      omega
    · simp only [List.foldl_cons, List.foldl_nil, e, hmiss, seedCodes_succ]
      rfl

/-- The seeded trie is the trie after the 256 puts (R140, R145). -/
theorem seedTrie_eq_seedByPuts (p : Params) (hp : p.Legal) : seedByPuts p = seedTrie := by
  have := seedByPuts_upto p hp 256 (le_refl _)
  rw [seedByPuts, seedCount, this, ← seedTrie_codes, ← (seedTrie_encOk p hp).nodes]
  simp only [seedTrie, firstDyn]

end Sys2Proof.Machine
end

