-- ==== Sys2Proof/Laws/Decoder.lean ====
section
/-! SUPPORT. The decoder: what one element can do, and what the whole loop can do. -/

namespace Sys2Proof.Machine

theorem dictGet_cons (e : Nat × Bytes) (rest : List (Nat × Bytes)) (k : Nat) :
    dictGet (e :: rest) k = if e.1 = k then e.2 else dictGet rest k := rfl

/-- The decoder's seeds are the encoder's (R176). -/
theorem seedDict_eq : seedDict = dictOf seedTrie.codes := by
  have h : ∀ n, (List.range n).foldl (fun dict v => (v + 1, [BitVec.ofNat 8 v]) :: dict) [] = dictOf (seedCodes n) := by
    intro n
    induction n with
    | zero => rfl
    | succ n ih =>
      rw [List.range_succ, List.foldl_append, ih, seedCodes_succ]
      rfl
  rw [seedTrie_codes, ← h 256, seedDict, seedCount]

/-- Everything `Emit` can do (R184). -/
theorem emit_cases (h : Nat) (w : DecoderWork) (s : Bytes) :
    (h < w.output.length + s.length ∧ emit h w s = .error .length) ∨
      (w.output.length + s.length ≤ h ∧ emit h w s = .ok { w with output := w.output ++ s }) := by
  unfold emit
  split
  · exact .inl ⟨by omega, rfl⟩
  · exact .inr ⟨by omega, rfl⟩

/-- Everything the case split on a subsequent codeword can do (R179 to R182). -/
theorem resolve_cases (p : Params) (w : DecoderWork) (cw : Nat) :
    ((cw = 0 ∨ cwMax p < cw ∨ w.nextFree < cw) ∧ resolve p w cw = .error .corrupt) ∨
      (1 ≤ cw ∧ cw ≤ cwMax p ∧ cw < w.nextFree ∧ resolve p w cw
        = .ok (dictGet w.dict cw, dictGet w.dict w.prev ++ [firstByte (dictGet w.dict cw)], cw)) ∨
      (1 ≤ cw ∧ cw ≤ cwMax p ∧ cw = w.nextFree ∧ resolve p w cw
        = .ok (dictGet w.dict w.last ++ [firstByte (dictGet w.dict w.last)],
            dictGet w.dict w.last ++ [firstByte (dictGet w.dict w.last)], w.nextFree)) := by
  unfold resolve
  split
  · exact .inl ⟨by omega, rfl⟩
  · split
    · exact .inr (.inl ⟨by omega, by omega, by omega, rfl⟩)
    · split
      · exact .inr (.inr ⟨by omega, by omega, by omega, rfl⟩)
      · exact .inl ⟨by omega, rfl⟩

/-- A subsequent codeword that is accepted: its string fits the header and is output, the pending entry is appended unless the
dictionary is frozen, and `prev` and `last` move to it (R180, R181, R183, R184, R187). -/
theorem decoderElem_ok {p : Params} {h cw : Nat} {w w' : DecoderWork} (e : decoderElem p h w cw = .ok w') :
    ∃ s pending last, resolve p w cw = .ok (s, pending, last) ∧ w.output.length + s.length ≤ h ∧
      w' = { appendEntry p { w with last := last, output := w.output ++ s } pending with prev := cw } := by
  unfold decoderElem at e
  split at e
  · cases e
  · rename_i s pending last hr
    rcases emit_cases h { w with last := last } s with ⟨-, he⟩ | ⟨hle, he⟩ <;> rw [he] at e
    · cases e
    · exact ⟨s, pending, last, hr, hle, (Except.ok.inj e).symm⟩

theorem decoderElem_of_resolve {p : Params} {h cw : Nat} {w : DecoderWork} {s pending : Bytes} {last : Nat}
    (hr : resolve p w cw = .ok (s, pending, last)) (hle : w.output.length + s.length ≤ h) :
    decoderElem p h w cw
      = .ok { appendEntry p { w with last := last, output := w.output ++ s } pending with prev := cw } := by
  rcases emit_cases h { w with last := last } s with ⟨hlt, he⟩ | ⟨-, he⟩
  · simp only at hlt
    omega
  · simp only [decoderElem, hr, he]

@[simp] theorem appendEntry_output (p : Params) (w : DecoderWork) (q : Bytes) : (appendEntry p w q).output = w.output := by
  unfold appendEntry
  split <;> rfl

@[simp] theorem appendEntry_last (p : Params) (w : DecoderWork) (q : Bytes) : (appendEntry p w q).last = w.last := by
  unfold appendEntry
  split <;> rfl

/-- After an accepted codeword `last` and `prev` are both that codeword (R187). -/
theorem decoderElem_last_prev {p : Params} {h cw : Nat} {w w' : DecoderWork} (e : decoderElem p h w cw = .ok w') :
    w'.last = cw ∧ w'.prev = cw := by
  obtain ⟨s, pending, last, hr, -, rfl⟩ := decoderElem_ok e
  refine ⟨?_, rfl⟩
  rcases resolve_cases p w cw with ⟨-, h⟩ | ⟨-, -, -, h⟩ | ⟨-, -, he, h⟩ <;> rw [hr] at h
  · cases h
  · obtain ⟨-, -, rfl⟩ := Prod.mk.inj (Except.ok.inj h) |>.imp_right Prod.mk.inj |> fun x => And.intro x.1 (And.intro x.2.1 x.2.2)
    simp
  · obtain ⟨-, -, rfl⟩ := Prod.mk.inj (Except.ok.inj h) |>.imp_right Prod.mk.inj |> fun x => And.intro x.1 (And.intro x.2.1 x.2.2)
    simp [he]

/-- An accepted codeword never takes the output past the header, and only adds to it (R184, R186). -/
theorem decoderElem_output {p : Params} {h cw : Nat} {w w' : DecoderWork} (e : decoderElem p h w cw = .ok w') :
    w'.output.length ≤ h ∧ ∃ s, w'.output = w.output ++ s := by
  obtain ⟨s, pending, last, -, hle, rfl⟩ := decoderElem_ok e
  exact ⟨by simpa using hle, s, by simp⟩

/-- A stored entry is never changed by a later codeword (R190): the dictionary only gets an entry at `nextFree`. -/
theorem decoderElem_dict {p : Params} {h cw : Nat} {w w' : DecoderWork} (e : decoderElem p h w cw = .ok w') :
    (w'.nextFree = w.nextFree ∧ w'.dict = w.dict ∧ cwMax p < w.nextFree ∧ w'.dictFull = true) ∨
      (w'.nextFree = w.nextFree + 1 ∧ w.nextFree ≤ cwMax p ∧ w'.dictFull = w.dictFull ∧
        ∃ q, w'.dict = (w.nextFree, q) :: w.dict) := by
  obtain ⟨s, pending, last, -, -, rfl⟩ := decoderElem_ok e
  by_cases hn : w.nextFree ≤ cwMax p
  · exact .inr ⟨by simp [appendEntry, hn], hn, by simp [appendEntry, hn], pending, by simp [appendEntry, hn]⟩
  · exact .inl ⟨by simp [appendEntry, hn], by simp [appendEntry, hn], by omega, by simp [appendEntry, hn]⟩

/-- Everything the loop can do (R170 steps 4 and 5, R178): it stops at the first rejected element, or reads them all. -/
theorem decoderLoop_eq (p : Params) (h : Nat) (elem : Nat → Nat) (cs : List Nat) (i : Nat) (w v : DecoderWork)
    (hel : ∀ j, j < cs.length → elem (i + j) = cs.getD j 0) (e : cs.foldlM (decoderElem p h) w = .ok v) :
    decoderLoop p h elem cs.length i w
      = if v.output.length ≠ h then ⟨.error .length true, i + cs.length, v.output⟩
        else ⟨.finish v.output.length v.dictFull, i + cs.length, v.output⟩ := by
  induction cs generalizing i w with
  | nil =>
    obtain rfl : w = v := Except.ok.inj e
    simp [decoderLoop]
  | cons c cs ih =>
    have h0 : elem i = c := by simpa using hel 0 (by simp)
    rw [List.foldlM_cons] at e
    cases hc : decoderElem p h w c with
    | error x => rw [hc] at e; cases e
    | ok w1 =>
      rw [hc] at e
      have := ih (i + 1) w1 (fun j hj => by
        have := hel (j + 1) (by simpa using hj)
        rw [show i + 1 + j = i + (j + 1) by ring, this]
        simp) e
      rw [List.length_cons, decoderLoop, h0, hc]
      simp only [this]
      rw [show i + 1 + cs.length = i + (cs.length + 1) by ring]

/-- The loop stops at the first rejected element, with what it has output before (R170 step 4, R178). -/
theorem decoderLoop_stop (p : Params) (h : Nat) (elem : Nat → Nat) (cs : List Nat) (k i : Nat) (w v : DecoderWork) (c : ErrCode)
    (hk : cs.length < k) (hel : ∀ j, j < cs.length → elem (i + j) = cs.getD j 0)
    (e : cs.foldlM (decoderElem p h) w = .ok v) (hc : decoderElem p h v (elem (i + cs.length)) = .error c) :
    decoderLoop p h elem k i w = ⟨.error c true, i + cs.length + 1, v.output⟩ := by
  induction cs generalizing i w k with
  | nil =>
    obtain rfl : w = v := Except.ok.inj e
    obtain ⟨k, rfl⟩ : ∃ k', k = k' + 1 := ⟨k - 1, by simp at hk; omega⟩
    simp only [List.length_nil, Nat.add_zero] at hc
    simp [decoderLoop, hc]
  | cons b cs ih =>
    obtain ⟨k, rfl⟩ : ∃ k', k = k' + 1 := ⟨k - 1, by simp at hk; omega⟩
    have h0 : elem i = b := by simpa using hel 0 (by simp)
    have ha : i + (cs.length + 1) = i + 1 + cs.length := by ring
    rw [List.foldlM_cons] at e
    rw [List.length_cons, ha] at hc ⊢
    cases hb : decoderElem p h w b with
    | error x => rw [hb] at e; cases e
    | ok w1 =>
      rw [hb] at e
      rw [decoderLoop, h0, hb]
      refine ih k (i + 1) w1 (by simp at hk; omega) (fun j hj => ?_) e hc
      have := hel (j + 1) (by simpa using hj)
      rw [show i + 1 + j = i + (j + 1) by ring, this]
      simp

/-- Bounds on what a decoding reads and writes (R80, R184), and the equality of R185. -/
theorem decoderLoop_bounds (p : Params) (h : Nat) (elem : Nat → Nat) (k i : Nat) (w : DecoderWork)
    (hw : w.output.length ≤ h) :
    (decoderLoop p h elem k i w).output.length ≤ h ∧ (decoderLoop p h elem k i w).elemsRead ≤ i + k ∧
      (∀ v full, (decoderLoop p h elem k i w).verdict = .finish v full →
        v = h ∧ (decoderLoop p h elem k i w).output.length = h ∧ (decoderLoop p h elem k i w).elemsRead = i + k) ∧
      ∀ c t, (decoderLoop p h elem k i w).verdict = .error c t → (c = .length ∨ c = .corrupt) ∧ t = true := by
  induction k generalizing i w with
  | zero =>
    rw [decoderLoop]
    split
    · refine ⟨hw, le_refl _, by simp, fun c t hv => ?_⟩
      cases hv
      exact ⟨.inl rfl, rfl⟩
    · rename_i hh
      refine ⟨hw, le_refl _, fun v full hv => ?_, by simp⟩
      cases hv
      exact ⟨not_not.1 hh, not_not.1 hh, rfl⟩
  | succ k ih =>
    rw [decoderLoop]
    cases hc : decoderElem p h w (elem i) with
    | error x =>
      refine ⟨hw, by simp only; omega, by simp, fun c t hv => ?_⟩
      simp only [Verdict.error.injEq] at hv
      obtain ⟨rfl, rfl⟩ := hv
      refine ⟨?_, rfl⟩
      unfold decoderElem at hc
      split at hc
      · rename_i y hr
        rcases resolve_cases p w (elem i) with ⟨-, h'⟩ | ⟨-, -, -, h'⟩ | ⟨-, -, -, h'⟩ <;> rw [hr] at h'
        · cases h'; cases hc; exact .inr rfl
        · cases h'
        · cases h'
      · rename_i s q l hr
        rcases emit_cases h { w with last := l } s with ⟨-, he⟩ | ⟨-, he⟩ <;> rw [he] at hc
        · cases hc; exact .inl rfl
        · cases hc
    | ok w' =>
      have := ih (i + 1) w' (decoderElem_output hc).1
      have ha : i + 1 + k = i + (k + 1) := by omega
      rw [ha] at this
      exact this

/-- Everything the first codeword can do (R177). -/
theorem decoderFirst_cases (h c1 : Nat) :
    ((c1 = 0 ∨ 256 < c1) ∧ decoderFirst h c1 = .error .corrupt) ∨
      ((1 ≤ c1 ∧ c1 ≤ 256) ∧ h = 0 ∧ decoderFirst h c1 = .error .length) ∨
      ((1 ≤ c1 ∧ c1 ≤ 256) ∧ 1 ≤ h ∧ decoderFirst h c1
        = .ok ⟨seedDict, 257, c1, c1, [BitVec.ofNat 8 (c1 - 1)], false⟩) := by
  by_cases hc : c1 = 0 ∨ c1 > 256
  · exact .inl ⟨hc, by simp [decoderFirst, seedCount, hc]⟩
  · right
    have hr : 1 ≤ c1 ∧ c1 ≤ 256 := by omega
    have hs : dictGet seedDict c1 = [BitVec.ofNat 8 (c1 - 1)] := by
      have hcw : seedTrie.cw [BitVec.ofNat 8 (c1 - 1)] = c1 := by
        rw [seedTrie_cw_byte, BitVec.toNat_ofNat]
        omega
      have hok := seedCodes_ok 256 (le_refl _)
      rw [← seedTrie_codes] at hok
      have := hok.dictGet [BitVec.ofNat 8 (c1 - 1)] (by rw [← Trie.cw, hcw]; omega)
      rw [← Trie.cw, hcw, ← seedDict_eq] at this
      exact this
    have hstart : decoderStart.dict = seedDict := by simp only [decoderStart]
    rcases emit_cases h decoderStart [BitVec.ofNat 8 (c1 - 1)] with ⟨hlt, he⟩ | ⟨hle, he⟩
    · refine .inl ⟨hr, ?_, ?_⟩
      · simp [decoderStart] at hlt
        omega
      · simp [decoderFirst, seedCount, hc, hstart, hs, he]
    · refine .inr ⟨hr, ?_, ?_⟩
      · simp [decoderStart] at hle
        omega
      · simp only [decoderFirst, seedCount, hc, hstart, hs, he, if_false]
        simp only [decoderStart, firstDyn, List.nil_append]

/-- Bounds on what DECOMPRESS reads and writes, and what its success means (R80, R173, R184, R185). -/
theorem decodeStream_bounds (p : Params) (cap : Nat) (elem : Nat → Nat) (n : Nat) (hn : 1 ≤ n) :
    (decodeStream p cap elem n).elemsRead ≤ n ∧ (decodeStream p cap elem n).output.length ≤ cap ∧
      (decodeStream p cap elem n).output.length ≤ elem 0 ∧
      (∀ v full, (decodeStream p cap elem n).verdict = .finish v full →
        v = elem 0 ∧ (decodeStream p cap elem n).output.length = elem 0 ∧ elem 0 ≤ cap ∧
          (decodeStream p cap elem n).elemsRead = n) ∧
      (∀ c t, (decodeStream p cap elem n).verdict = .error c t →
        (c = .dstCap ∧ t = false) ∨ ((c = .length ∨ c = .corrupt) ∧ t = true)) := by
  simp only [decodeStream]
  split
  · exact ⟨hn, by simp, by simp, by simp, fun c t hv => by cases hv; exact .inl ⟨rfl, rfl⟩⟩
  rename_i hcap
  split
  · rename_i h1
    split
    · rename_i h0
      refine ⟨hn, by simp, by simp, fun v full hv => ?_, by simp⟩
      cases hv
      exact ⟨h0.symm, h0.symm, by omega, h1.symm⟩
    · exact ⟨hn, by simp, by simp, by simp, fun c t hv => by cases hv; exact .inr ⟨.inl rfl, rfl⟩⟩
  split
  · rename_i h0
    refine ⟨by simp only; omega, by simp, by simp, fun v full hv => ?_, by simp⟩
    cases hv
    exact ⟨h0.1.symm, h0.1.symm, by omega, h0.2.1.symm⟩
  · unfold decoderBody
    rcases decoderFirst_cases (elem 0) (elem 1) with ⟨-, e⟩ | ⟨-, -, e⟩ | ⟨-, h1, e⟩ <;> rw [e]
    · exact ⟨by simp only; omega, by simp, by simp, by simp, fun c t hv => by cases hv; exact .inr ⟨.inr rfl, rfl⟩⟩
    · exact ⟨by simp only; omega, by simp, by simp, by simp, fun c t hv => by cases hv; exact .inr ⟨.inl rfl, rfl⟩⟩
    · obtain ⟨b1, b2, b3, b4⟩ := decoderLoop_bounds p (elem 0) elem (n - 2) 2
        ⟨seedDict, 257, elem 1, elem 1, [BitVec.ofNat 8 (elem 1 - 1)], false⟩ (by simpa using h1)
      refine ⟨by simp only; omega, by simp only; omega, b1, fun v full hv => ?_, fun c t hv => .inr (b4 c t hv)⟩
      have := b3 v full hv
      exact ⟨this.1, this.2.1, by omega, by simp only; omega⟩

end Sys2Proof.Machine
end

