-- ==== Sys2Proof/Laws/Exec.lean ====
section
/-! SUPPORT. The meanings: each completes, and what its run reads and writes stays in its regions. -/

namespace Sys2Proof.Machine

/-- A run keeps to its regions (R80): it reads inside its source region, writes inside its destination region, touches memory only where
the two do not overlap, and writes only where the destination is in range. -/
structure RunOk (r : Run) : Prop where
  reads : r.src.lo + r.readLen ≤ r.src.hi
  writes : r.dst.lo + r.written.length ≤ r.dst.hi
  apart : r.readLen ≠ 0 ∨ r.written ≠ [] ∨ (∃ c, r.verdict = .error c true) → overlaps r.src r.dst = false
  range : r.written ≠ [] → r.dst.hi ≤ addressSpace
  notOk : ∀ t, r.verdict ≠ .error .ok t

theorem regionAt_le (x n : Nat) : (regionAt x n).lo ≤ (regionAt x n).hi := Nat.le_add_right _ _

theorem srcRegion_le (p : Params) (i : Instr) (l : Latch) : (srcRegion p i l).lo ≤ (srcRegion p i l).hi := by
  cases i <;> simp [srcRegion, emptyRegion, regionAt]

theorem dstRegion_le (p : Params) (i : Instr) (l : Latch) : (dstRegion p i l).lo ≤ (dstRegion p i l).hi := by
  cases i <;> simp [dstRegion, emptyRegion, regionAt]

theorem stopRun_ok (c : ErrCode) (src dst : Region) (t : Trie) (hs : src.lo ≤ src.hi) (hd : dst.lo ≤ dst.hi)
    (hc : c ≠ .ok) : RunOk (stopRun c src dst t) :=
  ⟨by simpa [stopRun] using hs, by simpa [stopRun] using hd, by simp [stopRun], by simp [stopRun],
    by simp [stopRun, hc]⟩

theorem triePutRun_runOk (p : Params) (t : Trie) (l : Latch) (m : Memory) : RunOk (triePutRun p t l m) := by
  have hs := srcRegion_le p .triePut l
  have hd : emptyRegion.lo ≤ emptyRegion.hi := le_refl _
  unfold triePutRun
  simp only
  split_ifs
  · exact stopRun_ok _ _ _ _ hs hd (by decide)
  · exact stopRun_ok _ _ _ _ hs hd (by decide)
  · exact stopRun_ok _ _ _ _ hs hd (by decide)
  · split <;> exact ⟨by simp [srcRegion, regionAt], by simp [emptyRegion], by simp [overlaps, emptyRegion], by simp, by simp⟩

theorem trieGetRun_runOk (p : Params) (t : Trie) (l : Latch) (m : Memory) : RunOk (trieGetRun p t l m) := by
  have hs := srcRegion_le p .trieGet l
  have hd : emptyRegion.lo ≤ emptyRegion.hi := le_refl _
  unfold trieGetRun
  simp only
  split_ifs
  · exact stopRun_ok _ _ _ _ hs hd (by decide)
  · exact stopRun_ok _ _ _ _ hs hd (by decide)
  · exact ⟨by simp [srcRegion, regionAt], by simp [emptyRegion], by simp [overlaps, emptyRegion], by simp, by simp⟩

theorem compressRun_runOk (p : Params) (hp : p.Legal) (l : Latch) (m : Memory) : RunOk (compressRun p l m) := by
  have hs := srcRegion_le p .compress l
  have hd := dstRegion_le p .compress l
  unfold compressRun
  simp only
  split_ifs with h1 h2 h3 h4
  · exact stopRun_ok _ _ _ _ hs hd (by decide)
  · exact stopRun_ok _ _ _ _ hs hd (by decide)
  · exact stopRun_ok _ _ _ _ hs hd (by decide)
  · exact stopRun_ok _ _ _ _ hs hd (by decide)
  · simp only [Bool.or_eq_true, Bool.not_eq_true', not_or, Bool.not_eq_false] at h1
    have hlen := (encodedStream_length p hp (m.readBytes l.a.toNat l.n.toNat)).2
    rw [Memory.readBytes_length] at hlen
    refine ⟨by simp [srcRegion, regionAt], ?_, fun _ => by simpa using h2, fun _ => (inRange_iff _).1 h1.2, by simp⟩
    simp only [streamBytes_length, dstRegion, regionAt]
    have : (encodedStream p (m.readBytes l.a.toNat l.n.toNat)).length ≤ l.cap.toNat := by omega
    exact Nat.add_le_add_left (Nat.mul_le_mul_right _ this) _

theorem decompressRun_runOk (p : Params) (t : Trie) (l : Latch) (m : Memory) : RunOk (decompressRun p t l m) := by
  have hs := srcRegion_le p .decompress l
  have hd := dstRegion_le p .decompress l
  unfold decompressRun
  simp only
  split_ifs with h1 h2 h3
  · exact stopRun_ok _ _ _ _ hs hd (by decide)
  · exact stopRun_ok _ _ _ _ hs hd (by decide)
  · exact stopRun_ok _ _ _ _ hs hd (by decide)
  · simp only [Bool.or_eq_true, Bool.not_eq_true', not_or, Bool.not_eq_false] at h1
    obtain ⟨b1, b2, -, -, b5⟩ := decodeStream_bounds p l.cap.toNat (m.elem p l.a.toNat) l.n.toNat (by omega)
    refine ⟨?_, ?_, fun _ => by simpa using h2, fun _ => (inRange_iff _).1 h1.2, fun u hu => by
      rcases b5 _ _ hu with ⟨h, -⟩ | ⟨h | h, -⟩ <;> cases h⟩
    · simp only [srcRegion, regionAt]
      exact Nat.add_le_add_left (Nat.mul_le_mul_right _ b1) _
    · simp only [dstRegion, regionAt]
      omega

@[simp] theorem compressRun_tries (p : Params) (l : Latch) (m : Memory) :
    (compressRun p l m).trieOk = Trie.destroyed ∧ (compressRun p l m).trieErr = Trie.destroyed := by
  unfold compressRun
  simp only
  split_ifs <;> exact ⟨rfl, rfl⟩

@[simp] theorem decompressRun_tries (p : Params) (t : Trie) (l : Latch) (m : Memory) :
    (decompressRun p t l m).trieOk = t ∧ (decompressRun p t l m).trieErr = t := by
  unfold decompressRun
  simp only
  split_ifs <;> exact ⟨rfl, rfl⟩

/-- TRIE_PUT that ends with an error keeps the trie (R122). -/
@[simp] theorem triePutRun_trieErr (p : Params) (t : Trie) (l : Latch) (m : Memory) : (triePutRun p t l m).trieErr = t := by
  unfold triePutRun
  simp only
  split_ifs
  · rfl
  · rfl
  · rfl
  · split <;> rfl

theorem compressRun_regions (p : Params) (l : Latch) (m : Memory) :
    (compressRun p l m).src = srcRegion p .compress l ∧ (compressRun p l m).dst = dstRegion p .compress l := by
  unfold compressRun
  simp only
  split_ifs <;> exact ⟨rfl, rfl⟩

theorem decompressRun_regions (p : Params) (t : Trie) (l : Latch) (m : Memory) :
    (decompressRun p t l m).src = srcRegion p .decompress l ∧
      (decompressRun p t l m).dst = dstRegion p .decompress l := by
  unfold decompressRun
  simp only
  split_ifs <;> exact ⟨rfl, rfl⟩

theorem triePutRun_regions (p : Params) (t : Trie) (l : Latch) (m : Memory) :
    (triePutRun p t l m).src = srcRegion p .triePut l ∧ (triePutRun p t l m).dst = emptyRegion ∧
      (triePutRun p t l m).written = [] := by
  unfold triePutRun
  simp only
  split_ifs
  · exact ⟨rfl, rfl, rfl⟩
  · exact ⟨rfl, rfl, rfl⟩
  · exact ⟨rfl, rfl, rfl⟩
  · split <;> exact ⟨rfl, rfl, rfl⟩

theorem trieGetRun_regions (p : Params) (t : Trie) (l : Latch) (m : Memory) :
    (trieGetRun p t l m).src = srcRegion p .trieGet l ∧ (trieGetRun p t l m).dst = emptyRegion ∧
      (trieGetRun p t l m).written = [] := by
  unfold trieGetRun
  simp only
  split_ifs <;> exact ⟨rfl, rfl, rfl⟩

/-- How a TRIE_PUT run can end: with one of four errors, none of which touches memory, or with success after reading the key. -/
theorem triePutRun_verdict (p : Params) (t : Trie) (l : Latch) (m : Memory) :
    (∀ c u, (triePutRun p t l m).verdict = .error c u →
      u = false ∧ (c = .trieNotLive ∨ c = .keyLen ∨ c = .range ∨ c = .trieFull)) ∧
      ∀ v full, (triePutRun p t l m).verdict = .finish v full → (triePutRun p t l m).readLen = l.n.toNat := by
  unfold triePutRun
  simp only
  split_ifs
  · exact ⟨fun c u h => by cases h; exact ⟨rfl, .inl rfl⟩, fun v full h => by cases h⟩
  · exact ⟨fun c u h => by cases h; exact ⟨rfl, .inr (.inl rfl)⟩, fun v full h => by cases h⟩
  · exact ⟨fun c u h => by cases h; exact ⟨rfl, .inr (.inr (.inl rfl))⟩, fun v full h => by cases h⟩
  · split
    · exact ⟨fun c u h => (by cases h), fun v full h => rfl⟩
    · exact ⟨fun c u h => (by cases h), fun v full h => rfl⟩
    · exact ⟨fun c u h => by cases h; exact ⟨rfl, .inr (.inr (.inr rfl))⟩, fun v full h => by cases h⟩
    · exact ⟨fun c u h => (by cases h), fun v full h => rfl⟩

/-- How a TRIE_GET run can end. -/
theorem trieGetRun_verdict (p : Params) (t : Trie) (l : Latch) (m : Memory) :
    (∀ c u, (trieGetRun p t l m).verdict = .error c u → u = false ∧ (c = .trieNotLive ∨ c = .range)) ∧
      ∀ v full, (trieGetRun p t l m).verdict = .finish v full → (trieGetRun p t l m).readLen = l.n.toNat := by
  unfold trieGetRun
  simp only
  split_ifs
  · exact ⟨fun c u h => by cases h; exact ⟨rfl, .inl rfl⟩, fun v full h => by cases h⟩
  · exact ⟨fun c u h => by cases h; exact ⟨rfl, .inr rfl⟩, fun v full h => by cases h⟩
  · exact ⟨fun c u h => by (cases h), fun v full h => rfl⟩

/-- How a COMPRESS run can end: at an operand check, or with success after reading the input and writing the stream. -/
theorem compressRun_verdict (p : Params) (l : Latch) (m : Memory) :
    (∀ c u, (compressRun p l m).verdict = .error c u →
      u = false ∧ (c = .range ∨ c = .overlap ∨ c = .lenTooLarge ∨ c = .dstCap)) ∧
      ∀ v full, (compressRun p l m).verdict = .finish v full →
        (compressRun p l m).readLen = l.n.toNat ∧ (compressRun p l m).written.length = v * p.e ∧
          v = (encodedStream p (m.readBytes l.a.toNat l.n.toNat)).length ∧
          full = (encoderScan p (m.readBytes l.a.toNat l.n.toNat)).dictFull ∧
          max l.n.toNat 1 + 1 ≤ l.cap.toNat := by
  unfold compressRun
  simp only
  split_ifs with h1 h2 h3 h4
  · exact ⟨fun c u h => by cases h; exact ⟨rfl, .inl rfl⟩, fun v full h => by cases h⟩
  · exact ⟨fun c u h => by cases h; exact ⟨rfl, .inr (.inl rfl)⟩, fun v full h => by cases h⟩
  · exact ⟨fun c u h => by cases h; exact ⟨rfl, .inr (.inr (.inl rfl))⟩, fun v full h => by cases h⟩
  · exact ⟨fun c u h => by cases h; exact ⟨rfl, .inr (.inr (.inr rfl))⟩, fun v full h => by cases h⟩
  · refine ⟨fun c u h => (by cases h), fun v full h => ?_⟩
    cases h
    exact ⟨rfl, by simp, rfl, rfl, Nat.not_lt.1 h4⟩

/-- How a DECOMPRESS run can end. Only the errors past the header touch memory (R236). -/
theorem decompressRun_verdict (p : Params) (t : Trie) (l : Latch) (m : Memory) :
    (∀ c u, (decompressRun p t l m).verdict = .error c u →
      (u = false ∧ (c = .range ∨ c = .overlap ∨ c = .dstCap ∨ (c = .corrupt ∧ l.n.toNat = 0))) ∨
        (u = true ∧ (c = .length ∨ (c = .corrupt ∧ l.n.toNat ≠ 0)))) ∧
      ∀ v full, (decompressRun p t l m).verdict = .finish v full →
        (decompressRun p t l m).readLen = l.n.toNat * p.e ∧ (decompressRun p t l m).written.length = v ∧
          v ≤ l.cap.toNat := by
  unfold decompressRun
  simp only
  split_ifs with h1 h2 h3
  · exact ⟨fun c u h => by cases h; exact .inl ⟨rfl, .inl rfl⟩, fun v full h => by cases h⟩
  · exact ⟨fun c u h => by cases h; exact .inl ⟨rfl, .inr (.inl rfl)⟩, fun v full h => by cases h⟩
  · exact ⟨fun c u h => by cases h; exact .inl ⟨rfl, .inr (.inr (.inr ⟨rfl, h3⟩))⟩, fun v full h => by cases h⟩
  · obtain ⟨-, -, -, b4, b5⟩ := decodeStream_bounds p l.cap.toNat (m.elem p l.a.toNat) l.n.toNat (by omega)
    refine ⟨fun c u h => ?_, fun v full h => ?_⟩
    · rcases b5 c u h with ⟨rfl, rfl⟩ | ⟨rfl | rfl, rfl⟩
      · exact .inl ⟨rfl, .inr (.inr (.inl rfl))⟩
      · exact .inr ⟨rfl, .inl rfl⟩
      · exact .inr ⟨rfl, .inr ⟨rfl, h3⟩⟩
    · obtain ⟨c1, c2, c3, c4⟩ := b4 v full h
      exact ⟨by simp only [c4], by simp only [c2, c1], by omega⟩

/-- The run of each command, as an equation: a command is a plain completion or the completion of a run. -/
inductive ExecForm (i : Instr) (s t : State) : Prop where
  | plain (tr : Trie) (h : i = .nop ∧ tr = s.trie ∨ i = .trieInit ∧ tr = Trie.fresh ∨ i = .trieDestroy ∧ tr = Trie.destroyed)
      (e : t = finish { s with trie := tr } 0 false)
  | ran (r : Run) (h : r.src = srcRegion s.params i s.latch ∧ r.dst = dstRegion s.params i s.latch)
      (ok : s.params.Legal → RunOk r)
      (tries : (i = .triePut ∧ r = triePutRun s.params s.trie s.latch s.mem) ∨
        (i = .trieGet ∧ r = trieGetRun s.params s.trie s.latch s.mem) ∨
        (i = .compress ∧ r = compressRun s.params s.latch s.mem) ∨
        (i = .decompress ∧ r = decompressRun s.params s.trie s.latch s.mem))
      (e : t = conclude s r)

/-- Every command completes, in one of two forms. -/
theorem exec_form (i : Instr) (s : State) : ∃ t, exec i s = .next t ∧ ExecForm i s t := by
  cases i with
  | nop => exact ⟨_, rfl, .plain s.trie (.inl ⟨rfl, rfl⟩) rfl⟩
  | trieInit => exact ⟨_, rfl, .plain _ (.inr (.inl ⟨rfl, rfl⟩)) rfl⟩
  | trieDestroy => exact ⟨_, rfl, .plain _ (.inr (.inr ⟨rfl, rfl⟩)) rfl⟩
  | triePut =>
    have h := triePutRun_regions s.params s.trie s.latch s.mem
    exact ⟨_, rfl, .ran _ ⟨h.1, h.2.1⟩ (fun _ => triePutRun_runOk _ _ _ _) (.inl ⟨rfl, rfl⟩) rfl⟩
  | trieGet =>
    have h := trieGetRun_regions s.params s.trie s.latch s.mem
    exact ⟨_, rfl, .ran _ ⟨h.1, h.2.1⟩ (fun _ => trieGetRun_runOk _ _ _ _) (.inr (.inl ⟨rfl, rfl⟩)) rfl⟩
  | compress =>
    exact ⟨_, rfl, .ran _ (compressRun_regions _ _ _) (fun hp => compressRun_runOk _ hp _ _) (.inr (.inr (.inl ⟨rfl, rfl⟩))) rfl⟩
  | decompress =>
    exact ⟨_, rfl, .ran _ (decompressRun_regions _ _ _ _) (fun _ => decompressRun_runOk _ _ _ _)
      (.inr (.inr (.inr ⟨rfl, rfl⟩))) rfl⟩

theorem exec_form_of {i : Instr} {s t : State} (h : exec i s = .next t) : ExecForm i s t := by
  obtain ⟨t', e, f⟩ := exec_form i s
  rw [e] at h
  cases h
  exact f

/-- A command keeps the canonical form of memory. -/
theorem exec_mem_wf {i : Instr} {s t : State} (h : exec i s = .next t) (hm : s.mem.wf) : t.mem.wf := by
  cases exec_form_of h with
  | plain tr _ e => rw [e]; exact hm
  | ran r _ _ _ e => rw [e]; exact conclude_mem_wf s r hm

/-- A command keeps the trie invariants (R54). -/
theorem exec_trieOk {i : Instr} {s t : State} (h : exec i s = .next t) (hp : s.params.Legal) (ht : TrieOk s.params s.trie) :
    TrieOk s.params t.trie := by
  have hcap : 1 ≤ s.params.nodeCap := by
    have : 0 < 2 ^ s.params.w := by positivity
    have := hp.2.2.2.2.1
    omega
  cases exec_form_of h with
  | plain tr hi e =>
    rw [e]
    rcases hi with ⟨-, rfl⟩ | ⟨-, rfl⟩ | ⟨-, rfl⟩
    · exact ht
    · exact fresh_ok _ hcap
    · exact destroyed_ok _
  | ran r _ _ hr e =>
    rw [e]
    rcases hr with ⟨-, rfl⟩ | ⟨-, rfl⟩ | ⟨-, rfl⟩ | ⟨-, rfl⟩
    · have := triePutRun_ok s.params s.trie s.latch s.mem ht
      rcases conclude_trie s (triePutRun s.params s.trie s.latch s.mem) with e | e <;> rw [e]
      · exact this.1
      · rw [this.2]; exact ht
    · rcases conclude_trie s (trieGetRun s.params s.trie s.latch s.mem) with e | e <;> rw [e]
      · rw [trieGetRun_trieOk]; exact ht
      · rw [trieGetRun_trieErr]; exact ht
    · rcases conclude_trie s (compressRun s.params s.latch s.mem) with e | e <;> rw [e]
      · rw [(compressRun_tries _ _ _).1]; exact destroyed_ok _
      · rw [(compressRun_tries _ _ _).2]; exact destroyed_ok _
    · rcases conclude_trie s (decompressRun s.params s.trie s.latch s.mem) with e | e <;> rw [e]
      · rw [(decompressRun_tries _ _ _ _).1]; exact ht
      · rw [(decompressRun_tries _ _ _ _).2]; exact ht

/-- A command leaves constants, host-written registers, OVR, the latch, `rst` and the outside world alone. -/
theorem exec_sameOutside {i : Instr} {s t : State} (h : exec i s = .next t) : SameOutside s t := by
  cases exec_form_of h with
  | plain tr _ e => rw [e]; constructor <;> rfl
  | ran r _ _ _ e => rw [e]; exact conclude_sameOutside s r

/-- Every completion makes the mode IDLE and sets DONE (R233). -/
theorem exec_idle_done {i : Instr} {s t : State} (h : exec i s = .next t) : t.mode = .idle ∧ t.done = true := by
  cases exec_form_of h with
  | plain tr _ e => rw [e]; exact ⟨rfl, rfl⟩
  | ran r _ _ _ e => rw [e]; exact ⟨conclude_mode s r, conclude_done s r⟩

/-- STATUS and RESULT agree after a command (R234, R235). -/
theorem exec_statusOk {i : Instr} {s t : State} (h : exec i s = .next t) (hp : s.params.Legal) : StatusOk t := by
  cases exec_form_of h with
  | plain tr _ e =>
    rw [e]
    exact ⟨by simp, by simp, by simp⟩
  | ran r _ ok _ e => rw [e]; exact conclude_statusOk s r (ok hp).notOk

/-- A completion never changes a byte of the source region (R80, R236). -/
theorem conclude_mem_src (s : State) (r : Run) (hm : s.mem.wf) (ok : RunOk r) (x : Nat) (hx : inRegion r.src x = true) :
    (conclude s r).mem.read x = s.mem.read x := by
  cases hv : busVerdict s r with
  | finish v full =>
    rw [(conclude_of_finish s r v full hv).2.1]
    apply Memory.read_writeBytes_out _ _ _ _ hm
    by_contra hh
    have hw : r.written ≠ [] := by rintro e; rw [e] at hh; simp at hh; omega
    have h1 := ok.apart (.inr (.inl hw))
    have h2 := ok.writes
    rw [inRegion_iff] at hx
    rw [(overlaps_iff _ _).2 ⟨x, hx, by omega, by omega⟩] at h1
    cases h1
  | error c touched =>
    rw [(conclude_of_error s r c touched hv).2.1]
    split
    · exact Memory.read_scrambleRegion_out _ _ _ _ _ hm (.inr hx)
    · rfl

/-- A run with an access that does not answer normally makes an access. -/
theorem accessesOk_false (pf : Platform) (r : Run) (h : accessesOk pf r = false) : r.readLen ≠ 0 ∨ r.written ≠ [] := by
  by_contra hh
  simp only [not_or, not_not] at hh
  simp [accessesOk, hh.1, hh.2, regionOk_empty] at h

/-- A run without a destination region changes no memory (R79, R236). -/
theorem conclude_mem_noDst (s : State) (r : Run) (hd : r.dst = emptyRegion) (hw : r.written = []) : (conclude s r).mem = s.mem := by
  cases hv : busVerdict s r with
  | finish v full => rw [(conclude_of_finish s _ v full hv).2.1, hw]; rfl
  | error c t =>
    rw [(conclude_of_error s _ c t hv).2.1, hd]
    split <;> rfl

/-- TRIE_PUT past its checks inserts the key (R115). -/
theorem triePutRun_read (s : State) (hl : s.trie.live = true) (hn : 1 ≤ s.latch.n.toNat)
    (hr : s.latch.a.toNat + s.latch.n.toNat ≤ addressSpace) :
    triePutRun s.params s.trie s.latch s.mem = match trieInsert s.params s.trie (sourceBytes s) with
    | (.present c, t') => ⟨.finish c false, srcRegion s.params .triePut s.latch, emptyRegion, s.latch.n.toNat, [], t', s.trie⟩
    | (.suppressed, t') => ⟨.finish 0 true, srcRegion s.params .triePut s.latch, emptyRegion, s.latch.n.toNat, [], t', s.trie⟩
    | (.noSpace, _) =>
      ⟨.error .trieFull false, srcRegion s.params .triePut s.latch, emptyRegion, s.latch.n.toNat, [], s.trie, s.trie⟩
    | (.assigned c, t') =>
      ⟨.finish c false, srcRegion s.params .triePut s.latch, emptyRegion, s.latch.n.toNat, [], t', s.trie⟩ := by
  have h3 : inRange (srcRegion s.params .triePut s.latch) = true := (inRange_iff _).2 hr
  simp only [triePutRun, hl, h3, show ¬ s.latch.n.toNat = 0 by omega, if_false, Bool.not_true, Bool.false_eq_true, sourceBytes]
  all_goals rfl

/-- TRIE_GET past its checks looks the key up (R125). -/
theorem trieGetRun_read (s : State) (hl : s.trie.live = true) (hr : s.latch.a.toNat + s.latch.n.toNat ≤ addressSpace) :
    trieGetRun s.params s.trie s.latch s.mem
      = ⟨.finish (s.trie.cw (sourceBytes s)) false, srcRegion s.params .trieGet s.latch, emptyRegion, s.latch.n.toNat, [],
          s.trie, s.trie⟩ := by
  have h3 : inRange (srcRegion s.params .trieGet s.latch) = true := (inRange_iff _).2 hr
  simp only [trieGetRun, hl, h3, Bool.not_true, Bool.false_eq_true, if_false, sourceBytes]

/-- COMPRESS past its checks scans the input and writes the stream (R140). -/
theorem compressRun_ready (s : State) (h : CompressReady s) :
    compressRun s.params s.latch s.mem
      = ⟨.finish (encodedStream s.params (sourceBytes s)).length (encoderScan s.params (sourceBytes s)).dictFull,
          srcRegion s.params .compress s.latch, dstRegion s.params .compress s.latch, s.latch.n.toNat,
          streamBytes s.params (encodedStream s.params (sourceBytes s)), Trie.destroyed, Trie.destroyed⟩ := by
  have h1 : inRange (srcRegion s.params .compress s.latch) = true := (inRange_iff _).2 h.src
  have h2 : inRange (dstRegion s.params .compress s.latch) = true := (inRange_iff _).2 h.dst
  have h3 := h.len
  have h4 := h.cap
  simp only [compressRun, h1, h2, h.apart, Bool.not_true, Bool.or_self, Bool.false_eq_true, if_false,
    show ¬ s.latch.n.toNat > elemMax s.params by omega, show ¬ s.latch.cap.toNat < max s.latch.n.toNat 1 + 1 by omega,
    sourceBytes]

/-- DECOMPRESS past its checks decodes the stream (R170). -/
theorem decompressRun_ready (s : State) (h : DecompressReady s) :
    decompressRun s.params s.trie s.latch s.mem
      = ⟨(decodeStream s.params s.latch.cap.toNat (sourceElem s) s.latch.n.toNat).verdict,
          srcRegion s.params .decompress s.latch, dstRegion s.params .decompress s.latch,
          (decodeStream s.params s.latch.cap.toNat (sourceElem s) s.latch.n.toNat).elemsRead * s.params.e,
          (decodeStream s.params s.latch.cap.toNat (sourceElem s) s.latch.n.toNat).output, s.trie, s.trie⟩ := by
  have h1 : inRange (srcRegion s.params .decompress s.latch) = true := (inRange_iff _).2 h.src
  have h2 : inRange (dstRegion s.params .decompress s.latch) = true := (inRange_iff _).2 h.dst
  have h3 := h.len
  have h4 : (s.mem.elem s.params s.latch.a.toNat) = sourceElem s := rfl
  simp only [decompressRun, h1, h2, h.apart, Bool.not_true, Bool.or_self, Bool.false_eq_true, if_false,
    show ¬ s.latch.n.toNat = 0 by omega, h4]

/-- With every access of the command's regions answered normally the verdict is the run's own (R238). -/
theorem busVerdict_of_busFreeFor (i : Instr) (s : State) (r : Run) (h : BusFreeFor i s) (ok : RunOk r)
    (hs : r.src = srcRegion s.params i s.latch) (hd : r.dst = dstRegion s.params i s.latch) : busVerdict s r = r.verdict :=
  busVerdict_of_busFree s r (by rw [hs, hd]; exact h) ok.reads ok.writes

/-- The accesses of a run are those of A (R80, R238). -/
theorem triePut_accesses (s : State) :
    AccessesAnswer .triePut s ↔ accessesOk s.platform (triePutRun s.params s.trie s.latch s.mem) = true := by
  obtain ⟨hs, -, hw⟩ := triePutRun_regions s.params s.trie s.latch s.mem
  rw [accessesOk_iff, hs, hw]
  by_cases h : s.trie.live = true ∧ 1 ≤ s.latch.n.toNat ∧ s.latch.a.toNat + s.latch.n.toNat ≤ addressSpace
  · have hr : (triePutRun s.params s.trie s.latch s.mem).readLen = s.latch.n.toNat := by
      rw [triePutRun_read s h.1 h.2.1 h.2.2]
      split <;> rfl
    simp only [AccessesAnswer, ReadsByte, WritesByte, hr, srcRegion, regionAt, List.length_nil]
    exact ⟨fun g => ⟨fun x h1 h2 => g.1 x ⟨h.1, h.2.1, h.2.2, h1, h2⟩, fun x h1 h2 => by omega⟩,
      fun g => ⟨fun x hx => g.1 x hx.2.2.2.1 hx.2.2.2.2, fun x hx => hx.elim⟩⟩
  · have hr : (triePutRun s.params s.trie s.latch s.mem).readLen = 0 := by
      unfold triePutRun
      simp only
      split_ifs with h1 h2 h3
      · rfl
      · rfl
      · rfl
      · refine absurd ⟨by simpa using h1, by omega, ?_⟩ h
        exact (inRange_iff (srcRegion s.params .triePut s.latch)).1 (by simpa using h3)
    simp only [AccessesAnswer, ReadsByte, WritesByte, hr, List.length_nil]
    exact ⟨fun g => ⟨fun x h1 h2 => by omega, fun x h1 h2 => by omega⟩,
      fun g => ⟨fun x hx => absurd ⟨hx.1, hx.2.1, hx.2.2.1⟩ h, fun x hx => hx.elim⟩⟩

theorem trieGet_accesses (s : State) :
    AccessesAnswer .trieGet s ↔ accessesOk s.platform (trieGetRun s.params s.trie s.latch s.mem) = true := by
  obtain ⟨hs, -, hw⟩ := trieGetRun_regions s.params s.trie s.latch s.mem
  rw [accessesOk_iff, hs, hw]
  by_cases h : s.trie.live = true ∧ s.latch.a.toNat + s.latch.n.toNat ≤ addressSpace
  · have hr : (trieGetRun s.params s.trie s.latch s.mem).readLen = s.latch.n.toNat := by
      rw [trieGetRun_read s h.1 h.2]
    simp only [AccessesAnswer, ReadsByte, WritesByte, hr, srcRegion, regionAt, List.length_nil]
    exact ⟨fun g => ⟨fun x h1 h2 => g.1 x ⟨h.1, h.2, h1, h2⟩, fun x h1 h2 => by omega⟩,
      fun g => ⟨fun x hx => g.1 x hx.2.2.1 hx.2.2.2, fun x hx => hx.elim⟩⟩
  · have hr : (trieGetRun s.params s.trie s.latch s.mem).readLen = 0 := by
      unfold trieGetRun
      simp only
      split_ifs with h1 h2
      · rfl
      · rfl
      · refine absurd ⟨by simpa using h1, ?_⟩ h
        exact (inRange_iff (srcRegion s.params .trieGet s.latch)).1 (by simpa using h2)
    simp only [AccessesAnswer, ReadsByte, WritesByte, hr, List.length_nil]
    exact ⟨fun g => ⟨fun x h1 h2 => by omega, fun x h1 h2 => by omega⟩,
      fun g => ⟨fun x hx => absurd ⟨hx.1, hx.2.1⟩ h, fun x hx => hx.elim⟩⟩

theorem compress_accesses (s : State) :
    AccessesAnswer .compress s ↔ accessesOk s.platform (compressRun s.params s.latch s.mem) = true := by
  rw [accessesOk_iff, (compressRun_regions _ _ _).1, (compressRun_regions _ _ _).2]
  by_cases h : CompressReady s
  · simp only [AccessesAnswer, ReadsByte, WritesByte, compressRun_ready s h, srcRegion, dstRegion, regionAt, streamBytes_length]
    exact ⟨fun g => ⟨fun x h1 h2 => g.1 x ⟨h, h1, h2⟩, fun x h1 h2 => g.2 x ⟨h, h1, h2⟩⟩,
      fun g => ⟨fun x hx => g.1 x hx.2.1 hx.2.2, fun x hx => g.2 x hx.2.1 hx.2.2⟩⟩
  · have hr : (compressRun s.params s.latch s.mem).readLen = 0 ∧ (compressRun s.params s.latch s.mem).written = [] := by
      unfold compressRun
      simp only
      split_ifs with h1 h2 h3 h4
      · exact ⟨rfl, rfl⟩
      · exact ⟨rfl, rfl⟩
      · exact ⟨rfl, rfl⟩
      · exact ⟨rfl, rfl⟩
      · simp only [Bool.or_eq_true, Bool.not_eq_true', not_or, Bool.not_eq_false] at h1
        exact absurd ⟨(inRange_iff _).1 h1.1, (inRange_iff _).1 h1.2, by simpa using h2, by omega, by omega⟩ h
    simp only [AccessesAnswer, ReadsByte, WritesByte, hr.1, hr.2, List.length_nil]
    exact ⟨fun g => ⟨fun x h1 h2 => by omega, fun x h1 h2 => by omega⟩,
      fun g => ⟨fun x hx => absurd hx.1 h, fun x hx => absurd hx.1 h⟩⟩

theorem decompress_accesses (s : State) :
    AccessesAnswer .decompress s ↔ accessesOk s.platform (decompressRun s.params s.trie s.latch s.mem) = true := by
  rw [accessesOk_iff, (decompressRun_regions _ _ _ _).1, (decompressRun_regions _ _ _ _).2]
  by_cases h : DecompressReady s
  · simp only [AccessesAnswer, ReadsByte, WritesByte, decompressRun_ready s h, srcRegion, dstRegion, regionAt]
    exact ⟨fun g => ⟨fun x h1 h2 => g.1 x ⟨h, h1, h2⟩, fun x h1 h2 => g.2 x ⟨h, h1, h2⟩⟩,
      fun g => ⟨fun x hx => g.1 x hx.2.1 hx.2.2, fun x hx => g.2 x hx.2.1 hx.2.2⟩⟩
  · have hr : (decompressRun s.params s.trie s.latch s.mem).readLen = 0 ∧
        (decompressRun s.params s.trie s.latch s.mem).written = [] := by
      unfold decompressRun
      simp only
      split_ifs with h1 h2 h3
      · exact ⟨rfl, rfl⟩
      · exact ⟨rfl, rfl⟩
      · exact ⟨rfl, rfl⟩
      · simp only [Bool.or_eq_true, Bool.not_eq_true', not_or, Bool.not_eq_false] at h1
        exact absurd ⟨(inRange_iff _).1 h1.1, (inRange_iff _).1 h1.2, by simpa using h2, by omega⟩ h
    simp only [AccessesAnswer, ReadsByte, WritesByte, hr.1, hr.2, List.length_nil]
    exact ⟨fun g => ⟨fun x h1 h2 => by omega, fun x h1 h2 => by omega⟩,
      fun g => ⟨fun x hx => absurd hx.1 h, fun x hx => absurd hx.1 h⟩⟩

/-- A DECOMPRESS past its checks ends as its decoding says, when the elements it reads and the bytes it writes answer normally. -/
theorem decompress_verdict_of_readable (s : State) (h : DecompressReady s) (hr : ElementsReadable s (decoded s).elemsRead)
    (hw : OutputWritable s (decoded s).output.length) :
    busVerdict s (decompressRun s.params s.trie s.latch s.mem) = (decoded s).verdict := by
  rw [busVerdict_of_accessesOk _ _ ((decompress_accesses s).1 ⟨fun x hx => hr x hx.2.1 hx.2.2, fun x hx => hw x hx.2.1 hx.2.2⟩),
    decompressRun_ready s h]
  rfl

/-- The decoding of a stream of two elements or more whose first codeword is accepted is the loop over the others (R177, R178). -/
theorem decoded_of_first (s : State) (v0 : DecoderWork) (hn : 2 ≤ s.latch.n.toNat) (hh : sourceElem s 0 ≤ s.latch.cap.toNat)
    (hf : decoderFirst (sourceElem s 0) (sourceElem s 1) = .ok v0) :
    decoded s = decoderLoop s.params (sourceElem s 0) (sourceElem s) (s.latch.n.toNat - 2) 2 v0 := by
  have h1 : sourceElem s 1 ≠ 0 := by
    intro h0
    rw [h0] at hf
    cases hf
  simp only [decoded, decodeStream, decoderBody, hf]
  rw [if_neg (by omega), if_neg (by omega), if_neg (by tauto)]

@[simp] theorem elementsFrom_length (s : State) (i j : Nat) : (elementsFrom s i j).length = j - i := by
  simp [elementsFrom]

theorem elementsFrom_getD (s : State) (i j k : Nat) (h : k < (elementsFrom s i j).length) :
    sourceElem s (i + k) = (elementsFrom s i j).getD k 0 := by
  rw [elementsFrom_length] at h
  simp [elementsFrom, h]

theorem regionAt_empty_not (x : Nat) : ¬(emptyRegion.lo ≤ x ∧ x < emptyRegion.hi) := by simp [emptyRegion]

end Sys2Proof.Machine
end

