-- ==== Sys2Proof/Laws/Flags.lean ====
section
/-! SUPPORT. The bits of STATUS, PARAM and IRQ_EN. -/

namespace Sys2Proof.Machine

/-- The bits of a word laid out as STATUS is. -/
theorem statusLayout_getLsbD (e : BitVec 8) (b5 b4 b3 b2 b1 b0 : Bool) (i : Nat) :
    ((0#16 ++ e ++ 0#2 ++ BitVec.ofBool b5 ++ BitVec.ofBool b4 ++ BitVec.ofBool b3 ++ BitVec.ofBool b2 ++ BitVec.ofBool b1
      ++ BitVec.ofBool b0 : BitVec (16 + 8 + 2 + 1 + 1 + 1 + 1 + 1 + 1)).getLsbD i)
      = if i = 0 then b0 else if i = 1 then b1 else if i = 2 then b2 else if i = 3 then b3 else if i = 4 then b4
        else if i = 5 then b5 else if i < 8 then false else if i < 16 then e.getLsbD (i - 8) else false := by
  by_cases hi : i < 32
  · repeat rw [BitVec.getLsbD_append]
    interval_cases i <;> simp
  · rw [BitVec.getLsbD_of_ge _ _ (by omega)]
    split_ifs <;> first | omega | rfl

/-- Every bit of STATUS (R32 to R38, R27). -/
theorem status_getLsbD (s : State) (i : Nat) :
    (statusWord s).getLsbD i
      = if i = 0 then busyBit s else if i = 1 then s.done else if i = 2 then s.err else if i = 3 then s.dictFull
        else if i = 4 then trieLiveBit s else if i = 5 then s.ovr else if i < 8 then false
        else if i < 16 then (errByte s.errcode).getLsbD (i - 8) else false :=
  statusLayout_getLsbD _ _ _ _ _ _ _ i

theorem status_busy (s : State) : (statusWord s).getLsbD 0 = busyBit s := status_getLsbD s 0

theorem status_done (s : State) : (statusWord s).getLsbD 1 = s.done := status_getLsbD s 1

theorem status_err (s : State) : (statusWord s).getLsbD 2 = s.err := status_getLsbD s 2

theorem status_dictFull (s : State) : (statusWord s).getLsbD 3 = s.dictFull := status_getLsbD s 3

theorem status_trieLive (s : State) : (statusWord s).getLsbD 4 = trieLiveBit s := status_getLsbD s 4

theorem status_ovr (s : State) : (statusWord s).getLsbD 5 = s.ovr := status_getLsbD s 5

/-- The reserved bits of STATUS read 0 (R27, R38). -/
theorem status_reserved (s : State) (i : Nat) (h : i = 6 ∨ i = 7 ∨ 16 ≤ i) : (statusWord s).getLsbD i = false := by
  rw [status_getLsbD]
  split_ifs <;> first | omega | rfl

/-- ERRCODE is bits [15:8] of STATUS (R38). -/
theorem status_errcode (s : State) : (statusWord s).extractLsb' 8 8 = errByte s.errcode := by
  apply BitVec.eq_of_getLsbD_eq
  intro i hi
  rw [BitVec.getLsbD_extractLsb', status_getLsbD]
  simp only [hi, decide_true, Bool.true_and]
  split_ifs <;> first | omega | (congr 1; omega)

@[simp] theorem busyBit_idle (s : State) (h : s.mode = .idle) : busyBit s = false := by simp [busyBit, h]

@[simp] theorem busyBit_busy (s : State) (h : s.mode = .busy) : busyBit s = true := by simp [busyBit, h]

/-- Distinct errors have distinct codes (R230). -/
theorem errByte_injective (c d : ErrCode) (h : errByte c = errByte d) : c = d := by
  revert h
  cases c <;> cases d <;> decide

end Sys2Proof.Machine
end

