-- ==== Sys2Proof/Laws/RoundTrip.lean ====
section
/-! SUPPORT. The encoder and the decoder against each other (R188, R189): the decoder of the codewords emitted so far holds the
encoder's entries, all but the newest one. -/

namespace Sys2Proof.Machine

/-- The decoder has just processed the codeword of the string `k`, and holds exactly the encoder's entries. -/
structure Settled (w : EncoderWork) (v : DecoderWork) (k : Bytes) : Prop where
  dict : v.dict = dictOf w.trie.codes
  next : v.nextFree = w.trie.next
  full : v.dictFull = w.dictFull
  last : v.last = v.prev
  prevString : dictGet v.dict v.prev = k

/-- The decoder has processed all codewords emitted so far and lacks only the newest entry, if one was added. -/
structure Behind (p : Params) (w : EncoderWork) (v : DecoderWork) : Prop where
  candNe : w.cand ≠ []
  last : v.last = v.prev
  prevNe : dictGet v.dict v.prev ≠ []
  gap : (v.nextFree ≤ cwMax p ∧ w.trie.next = v.nextFree + 1 ∧ v.dictFull = w.dictFull ∧
      ∃ codes, w.trie.codes = (dictGet v.dict v.prev ++ [firstByte w.cand], v.nextFree) :: codes ∧ v.dict = dictOf codes) ∨
    (cwMax p < v.nextFree ∧ w.trie.next = v.nextFree ∧ w.dictFull = true ∧ v.dict = dictOf w.trie.codes)

theorem firstByte_append (k q : Bytes) (h : k ≠ []) : firstByte (k ++ q) = firstByte k := by
  cases k with
  | nil => exact absurd rfl h
  | cons a k => rfl

/-- The decoder catches up when it processes the codeword of the candidate (R180, R181, R183, R188). -/
theorem behind_catches_up (p : Params) (h : Nat) (w : EncoderWork) (v : DecoderWork) (hw : ScanOk p w) (hb : Behind p w v)
    (hfit : v.output.length + w.cand.length ≤ h) :
    ∃ v', decoderElem p h v (w.trie.cw w.cand) = .ok v' ∧ Settled w v' w.cand ∧ v'.output = v.output ++ w.cand := by
  have hcw : w.trie.cw w.cand ≠ 0 := hw.cand.resolve_left hb.candNe
  have hlt := hw.trie.codes.cw_lt w.cand
  have hget := hw.trie.codes.dictGet w.cand hcw
  rw [← Trie.cw] at hlt hget
  have hmax := cwMax_succ p
  have hhigh := hw.trie.high
  rcases hb.gap with ⟨hn, hnext, hfull, codes, hcodes, hdict⟩ | ⟨hn, hnext, hfull, hdict⟩
  · -- one entry behind
    have hcok : CodesOk codes v.nextFree := by
      have := hw.trie.codes
      rw [hcodes] at this
      exact this.2.2.2
    have hcwlook : w.trie.cw w.cand
        = if dictGet v.dict v.prev ++ [firstByte w.cand] = w.cand then v.nextFree else cwIn codes w.cand := by
      rw [Trie.cw, hcodes, cwIn_cons]
    by_cases heq : dictGet v.dict v.prev ++ [firstByte w.cand] = w.cand
    · -- the unknown case: the candidate is the entry the decoder lacks
      rw [if_pos heq] at hcwlook
      have hfb : firstByte w.cand = firstByte (dictGet v.dict v.prev) := by
        rw [← firstByte_append _ [firstByte w.cand] hb.prevNe, heq]
      have hstr : dictGet v.dict v.last ++ [firstByte (dictGet v.dict v.last)] = w.cand := by
        rw [hb.last, ← hfb, heq]
      rcases resolve_cases p v (w.trie.cw w.cand) with ⟨hbad, -⟩ | ⟨-, -, hlt', -⟩ | ⟨-, -, -, hr⟩
      · omega
      · omega
      · rw [hstr] at hr
        refine ⟨_, decoderElem_of_resolve hr hfit, ?_, ?_⟩
        · refine ⟨?_, ?_, ?_, ?_, ?_⟩
          · rw [heq] at hcodes
            simp [appendEntry, hn, hcodes, dictOf]
            exact hdict
          · simp [appendEntry, hn, hnext]
          · simp [appendEntry, hn, hfull]
          · simp [hcwlook]
          · simp [appendEntry, hn, hcwlook, dictGet_cons]
        · simp
    · -- the known case
      rw [if_neg heq] at hcwlook
      have hlt' := hcok.cw_lt w.cand
      have hs : dictGet v.dict (w.trie.cw w.cand) = w.cand := by
        rw [hdict, hcwlook]
        exact hcok.dictGet w.cand (by rwa [← hcwlook])
      rcases resolve_cases p v (w.trie.cw w.cand) with ⟨hbad, -⟩ | ⟨-, -, -, hr⟩ | ⟨-, -, he, -⟩
      · omega
      · rw [hs] at hr
        refine ⟨_, decoderElem_of_resolve hr hfit, ?_, ?_⟩
        · refine ⟨?_, ?_, ?_, ?_, ?_⟩
          · simp [appendEntry, hn, hcodes, dictOf]
            exact hdict
          · simp [appendEntry, hn, hnext]
          · simp [appendEntry, hn, hfull]
          · simp
          · simp only [appendEntry, hn, if_true, dictGet_cons]
            rw [if_neg (by omega), hs]
        · simp
      · omega
  · -- frozen
    have hs : dictGet v.dict (w.trie.cw w.cand) = w.cand := by rw [hdict]; exact hget
    rcases resolve_cases p v (w.trie.cw w.cand) with ⟨hbad, -⟩ | ⟨-, -, -, hr⟩ | ⟨-, -, he, -⟩
    · omega
    · rw [hs] at hr
      have hn' : ¬ v.nextFree ≤ cwMax p := by omega
      refine ⟨_, decoderElem_of_resolve hr hfit, ?_, ?_⟩
      · refine ⟨?_, ?_, ?_, ?_, ?_⟩
        · simp [appendEntry, hn', hdict]
        · simp [appendEntry, hn', hnext]
        · simp [appendEntry, hn', hfull]
        · simp
        · simp [appendEntry, hn', hs]
      · simp
    · omega

/-- After an insertion of the scan, a settled decoder is behind again. -/
theorem settled_falls_behind (p : Params) (w : EncoderWork) (v : DecoderWork) (b : Byte) (hs : Settled w v w.cand)
    (hne : w.cand ≠ []) :
    (cwMax p < w.trie.next → Behind p ⟨w.trie, [b], w.out ++ [w.trie.cw w.cand], true⟩ v) ∧
      (w.trie.next ≤ cwMax p →
        Behind p ⟨addEntry w.trie (w.cand ++ [b]), [b], w.out ++ [w.trie.cw w.cand], w.dictFull⟩ v) := by
  have hpn : dictGet v.dict v.prev ≠ [] := by rw [hs.prevString]; exact hne
  constructor
  · intro hn
    exact ⟨by simp, hs.last, hpn, .inr ⟨by rw [hs.next]; exact hn, hs.next.symm, rfl, hs.dict⟩⟩
  · intro hn
    refine ⟨by simp, hs.last, hpn, .inl ⟨by rw [hs.next]; exact hn, by simp [addEntry, hs.next], hs.full,
      w.trie.codes, ?_, hs.dict⟩⟩
    rw [hs.prevString, hs.next]
    rfl

/-- The decoder of the codewords emitted over the input `x`. -/
def InStep (p : Params) (h : Nat) (x : Bytes) (w : EncoderWork) : Prop :=
  (w.out = [] ∧ w.trie = seedTrie ∧ w.dictFull = false ∧ w.cand = x ∧ x.length ≤ 1) ∨
    ∃ c1 cs v0 v, w.out = c1 :: cs ∧ decoderFirst h c1 = .ok v0 ∧ cs.foldlM (decoderElem p h) v0 = .ok v ∧
      Behind p w v ∧ v.output ++ w.cand = x

/-- The decoder that has processed every codeword emitted so far and the candidate's. -/
def CaughtUp (p : Params) (h : Nat) (x : Bytes) (w : EncoderWork) : Prop :=
  ∃ c1 cs v0 v, w.out ++ [w.trie.cw w.cand] = c1 :: cs ∧ decoderFirst h c1 = .ok v0 ∧
    cs.foldlM (decoderElem p h) v0 = .ok v ∧ Settled w v w.cand ∧ v.output = x

theorem inStep_catches_up (p : Params) (h : Nat) (x : Bytes) (w : EncoderWork) (hw : ScanOk p w) (hi : InStep p h x w)
    (hne : w.cand ≠ []) (hx : x.length ≤ h) : CaughtUp p h x w := by
  rcases hi with ⟨hout, htrie, hfull, hcand, hlen⟩ | ⟨c1, cs, v0, v, hout, hf, hrun, hb, hx'⟩
  · obtain ⟨b, hb⟩ : ∃ b, x = [b] := by
      rw [hcand] at hne
      match x, hne, hlen with
      | [b], _, _ => exact ⟨b, rfl⟩
    have hcw : w.trie.cw w.cand = b.toNat + 1 := by rw [htrie, hcand, hb, seedTrie_cw_byte]
    have hlt := b.isLt
    subst hb
    rcases decoderFirst_cases h (w.trie.cw w.cand) with ⟨hbad, -⟩ | ⟨-, h0, -⟩ | ⟨-, -, e⟩
    · omega
    · simp at hx; omega
    · refine ⟨_, [], _, _, by rw [hout]; rfl, e, rfl, ⟨?_, ?_, ?_, rfl, ?_⟩, ?_⟩
      · simp only [htrie, seedDict_eq]
      · simp only [htrie, seedTrie_next]
      · simp only [hfull]
      · simp only
        rw [seedDict_eq, ← htrie]
        exact hw.trie.codes.dictGet w.cand (by rw [← Trie.cw, hcw]; omega)
      · simp [hcw]
  · have hfit : v.output.length + w.cand.length ≤ h := by rw [← hx', List.length_append] at hx; exact hx
    obtain ⟨v', he, hs, ho⟩ := behind_catches_up p h w v hw hb hfit
    refine ⟨c1, cs ++ [w.trie.cw w.cand], v0, v', by rw [hout]; rfl, hf, ?_, hs, by rw [ho, hx']⟩
    rw [List.foldlM_append, hrun]
    simp [bind, Except.bind, he, pure, Except.pure]

theorem encoderScan_inStep (p : Params) (hp : p.Legal) (h : Nat) (x : Bytes) (hx : x.length ≤ h) :
    InStep p h x (encoderScan p x) := by
  induction x using List.reverseRecOn with
  | nil => exact .inl ⟨rfl, rfl, rfl, rfl, by simp⟩
  | append_singleton x b ih =>
    have hlen : x.length + 1 ≤ h := by simpa using hx
    have hi := ih (by omega)
    have hw := encoderScan_ok p hp x
    rw [encoderScan_append]
    generalize encoderScan p x = w at hi hw
    rcases encoderByte_cases p hp w hw b with ⟨hz, e⟩ | ⟨hz, hne, hcw, hcase⟩
    · rw [e]
      rcases hi with ⟨hout, htrie, hfull, hcand, -⟩ | ⟨c1, cs, v0, v, hout, hf, hrun, hb, hx'⟩
      · refine .inl ⟨hout, htrie, hfull, by simp [hcand], ?_⟩
        by_contra hc
        rw [htrie, hcand] at hz
        exact hz (seedTrie_cw_long _ (by omega))
      · refine .inr ⟨c1, cs, v0, v, hout, hf, hrun, ⟨by simp, hb.last, hb.prevNe, ?_⟩, by simp [← hx']⟩
        simpa only [firstByte_append _ [b] hb.candNe] using hb.gap
    · obtain ⟨c1, cs, v0, v, hout, hf, hrun, hs, hx'⟩ := inStep_catches_up p h x w hw hi hne (by omega)
      have hfall := settled_falls_behind p w v b hs hne
      rcases hcase with ⟨hn, e⟩ | ⟨hn, e⟩ <;> rw [e]
      · exact .inr ⟨c1, cs, v0, v, hout, hf, hrun, hfall.1 hn, by simp [hx']⟩
      · exact .inr ⟨c1, cs, v0, v, hout, hf, hrun, hfall.2 hn, by simp [hx']⟩

/-- The candidate after a nonempty input is not empty. -/
theorem encoderScan_cand_ne (p : Params) (hp : p.Legal) (x : Bytes) (hx : x ≠ []) : (encoderScan p x).cand ≠ [] := by
  obtain ⟨y, b, rfl⟩ : ∃ y b, x = y ++ [b] := ⟨x.dropLast, x.getLast hx, (List.dropLast_concat_getLast hx).symm⟩
  rw [encoderScan_append]
  rcases encoderByte_cases p hp _ (encoderScan_ok p hp y) b with ⟨-, e⟩ | ⟨-, -, -, ⟨-, e⟩ | ⟨-, e⟩⟩ <;> rw [e] <;> simp

/-- The round trip on streams (R189): decoding the elements the encoder emits gives the input back, with the same DICT_FULL. -/
theorem decodeStream_encodedStream (p : Params) (hp : p.Legal) (x : Bytes) (cap : Nat) (hcap : x.length ≤ cap)
    (elem : Nat → Nat) (hel : ∀ j, j < (encodedStream p x).length → elem j = (encodedStream p x).getD j 0) :
    decodeStream p cap elem (encodedStream p x).length
      = ⟨.finish x.length (encoderScan p x).dictFull, (encodedStream p x).length, x⟩ := by
  have h0 : elem 0 = x.length := by simpa [encodedStream] using hel 0 (by simp [encodedStream])
  by_cases hx : x = []
  · subst hx
    have h1 : elem 1 = 0 := by
      have : (encodedStream p []).getD 1 0 = 0 := by
        have := (seedCodes_ok 256 (le_refl _)).cw_root
        rw [← seedTrie_codes, ← Trie.cw] at this
        simp [encodedStream, emitted, encoderScan, encoderStart, this]
      rw [hel 1 (by simp [encodedStream, emitted, encoderScan, encoderStart]), this]
    have hl : (encodedStream p []).length = 2 := by simp [encodedStream, emitted, encoderScan, encoderStart]
    have hd : (encoderScan p []).dictFull = false := rfl
    rw [hl, hd]
    simp only [List.length_nil] at h0
    simp [decodeStream, h0, h1]
  · have hxpos : 1 ≤ x.length := List.length_pos_iff.2 hx
    obtain ⟨c1, cs, v0, v, hout, hf, hrun, hs, ho⟩ := inStep_catches_up p x.length x _ (encoderScan_ok p hp x)
      (encoderScan_inStep p hp x.length x (le_refl _)) (encoderScan_cand_ne p hp x hx) (le_refl _)
    have hst : encodedStream p x = x.length :: c1 :: cs := by rw [encodedStream, emitted, hout]
    have h1 : elem 1 = c1 := by rw [hel 1 (by simp [hst]), hst]; rfl
    rw [hst, List.length_cons, List.length_cons]
    have hloop := decoderLoop_eq p x.length elem cs 2 v0 v (fun j hj => by
      rw [hel (2 + j) (by rw [hst]; simp; omega), hst, show 2 + j = j + 1 + 1 by ring]
      simp) hrun
    have hn1 : ¬ (cs.length + 1 + 1 = 1) := by omega
    have hn2 : ¬ (elem 0 = 0 ∧ cs.length + 1 + 1 = 2 ∧ elem 1 = 0) := by rw [h0]; omega
    have hc : ¬ (elem 0 > cap) := by rw [h0]; omega
    rw [decodeStream, if_neg hc, if_neg hn1, if_neg hn2, decoderBody, h0, h1, hf]
    simp only
    rw [show cs.length + 1 + 1 - 2 = cs.length by omega, hloop, ho, hs.full, if_neg (by simp),
      show 2 + cs.length = cs.length + 1 + 1 by omega]

end Sys2Proof.Machine
end

