-- ==== Sys2Proof/Laws/Step.lean ====
section
/-! SUPPORT. Everything one step can do, said once: the inversion of `step` and of the host's operations. -/

namespace Sys2Proof.Machine

/-- The effect of a host operation that is carried out. -/
inductive HostForm (s : State) (op : HostOp) (t : State) : Prop where
  | wrote (addr bits : Nat) (v : Word) (r : Reg) (hop : op = .write addr bits v) (hr : s.rst = false)
      (hreg : regOfAccess s.platform addr bits = some r) (e : t = writeReg s r v)
  | readReg (addr bits : Nat) (r : Reg) (hop : op = .read addr bits) (hr : s.rst = false)
      (hreg : regOfAccess s.platform addr bits = some r) (e : t = observeReg s r)
  | waiting (hop : op = .wait) (hr : s.rst = false) (hb : s.mode = .busy)
      (e : t = { observeReg s .status with program := .wait :: s.program })
  | waited (hop : op = .wait) (hr : s.rst = false) (hb : s.mode = .idle) (e : t = observeReg s .status)
  | wroteMem (addr : Nat) (bytes : Bytes) (hop : op = .memWrite addr bytes) (hin : addr + bytes.length ≤ addressSpace)
      (hfree : s.mode = .busy → overlaps (regionAt addr bytes.length) (latchSrc s.params s.latch) = false ∧
        overlaps (regionAt addr bytes.length) (latchDst s.params s.latch) = false)
      (e : t = { s with mem := s.mem.writeBytes addr bytes })
  | readMem (addr n : Nat) (hop : op = .memRead addr n) (hin : addr + n ≤ addressSpace)
      (hfree : s.mode = .busy → overlaps (regionAt addr n) (latchDst s.params s.latch) = false)
      (e : t = { s with observed := s.observed ++ [.mem addr (s.mem.readBytes addr n)] })
  | asserted (hop : op = .assertRst) (e : t = assertRst s)
  | deasserted (hop : op = .deassertRst) (e : t = deassertRst s)

/-- A host operation that is carried out has one of these effects. -/
theorem hostOp_form {s t : State} {op : HostOp} (h : hostOp s op = .next t) : HostForm s op t := by
  cases op with
  | write addr bits v =>
    simp only [hostOp, hostWrite] at h
    split at h
    · cases h
    · rename_i r hp
      simp only [portReg] at hp
      split at hp
      · cases hp
      · rename_i hr
        split at hp
        · rename_i r' hreg
          cases hp
          split at h
          · cases h
          · cases h
            exact .wrote addr bits v _ rfl (by simpa using hr) hreg rfl
        · cases hp
  | read addr bits =>
    simp only [hostOp, hostRead] at h
    split at h
    · cases h
    · rename_i r hp
      simp only [portReg] at hp
      split at hp
      · cases hp
      · rename_i hr
        split at hp
        · rename_i r' hreg
          cases hp
          cases h
          exact .readReg addr bits _ rfl (by simpa using hr) hreg rfl
        · cases hp
  | wait =>
    simp only [hostOp, hostWait] at h
    split at h
    · cases h
    · rename_i hr
      split at h
      · rename_i hb
        cases h
        exact .waiting rfl (by simpa using hr) (by simpa [busyBit] using hb) rfl
      · rename_i hb
        cases h
        refine .waited rfl (by simpa using hr) ?_ rfl
        cases hm : s.mode
        · rfl
        · simp [busyBit, hm] at hb
  | memWrite addr bytes =>
    simp only [hostOp, hostMemWrite] at h
    split_ifs at h with h1 h2 h3
    cases h
    simp only [Bool.not_eq_true', Bool.not_eq_false, inRange_iff] at h1
    refine .wroteMem addr bytes rfl h1 (fun hb => ?_) rfl
    simpa [busyBit, hb] using h3
  | memRead addr n =>
    simp only [hostOp, hostMemRead] at h
    split_ifs at h with h1 h2 h3
    cases h
    simp only [Bool.not_eq_true', Bool.not_eq_false, inRange_iff] at h1
    refine .readMem addr n rfl h1 (fun hb => ?_) rfl
    simpa [busyBit, hb] using h3
  | assertRst =>
    cases h
    exact .asserted rfl rfl
  | deassertRst =>
    cases h
    exact .deasserted rfl rfl

/-- Everything a step can do. -/
inductive StepForm (s t : State) : Prop where
  /-- The engine ran the latched command. -/
  | ran (i : Instr) (hturn : nextTurn s = .engine) (hen : engineEnabled s = true) (hd : decodeWord s.latch.word = .ok i)
      (e : exec i { s with schedule := s.schedule.tail } = .next t)
  /-- The engine completed an illegal word. -/
  | illegal (x : DecodeError) (hturn : nextTurn s = .engine) (hen : engineEnabled s = true)
      (hd : decodeWord s.latch.word = .error x) (e : t = raiseError { s with schedule := s.schedule.tail } .illegalCmd)
  /-- The agent whose turn it was had nothing to do. -/
  | nothing (e : t = { s with schedule := s.schedule.tail })
  /-- The host did its next operation. -/
  | host (op : HostOp) (rest : List HostOp) (hturn : nextTurn s = .host) (hprog : s.program = op :: rest)
      (f : HostForm { s with schedule := s.schedule.tail, program := rest } op t)

/-- Everything a step can do, said once. -/
theorem step_form {s t : State} (h : step s = .next t) : StepForm s t := by
  unfold step at h
  split at h
  · rename_i hturn
    unfold engineTurn at h
    split at h
    · rename_i hen
      unfold runLatched at h
      split at h
      · rename_i i hd
        exact .ran i hturn hen hd h
      · rename_i x hd
        cases h
        exact .illegal x hturn hen hd rfl
    · cases h
      exact .nothing rfl
  · rename_i hturn
    unfold hostTurn at h
    split at h
    · cases h
      exact .nothing rfl
    · rename_i op rest hprog
      exact .host op rest hturn hprog (hostOp_form h)

/-- A step at the engine's turn with a command running is the run of the latched word. -/
theorem step_engine {s : State} (h : nextTurn s = .engine) (he : engineEnabled s = true) :
    step s = runLatched { s with schedule := s.schedule.tail } := by
  have he' : engineEnabled { s with schedule := s.schedule.tail } = true := he
  simp only [step, h, engineTurn, he', if_true]

/-- A step at the host's turn is its next operation. -/
theorem step_host {s : State} {op : HostOp} {rest : List HostOp} (h : nextTurn s = .host) (hp : s.program = op :: rest) :
    step s = hostOp { s with schedule := s.schedule.tail, program := rest } op := by
  simp only [step, h, hostTurn, hp]

/-- A command is running and `rst` is not asserted: the engine can complete it. -/
theorem engineEnabled_iff (s : State) : engineEnabled s = true ↔ s.mode = .busy ∧ s.rst = false := by
  simp [engineEnabled]

/-- A run of the machine goes on after a step that answers a next state. -/
theorem run_next {s t : State} (k : Nat) (h : step s = .next t) : Host.Core.run core (k + 1) s = Host.Core.run core k t := by
  have h' : core.step s = .next t := h
  simp only [Host.Core.run, h']

/-- What every write to a register leaves alone. -/
theorem writeReg_frame (s : State) (r : Reg) (v : Word) :
    (writeReg s r v).params = s.params ∧ (writeReg s r v).platform = s.platform ∧ (writeReg s r v).trie = s.trie ∧
      (writeReg s r v).mem = s.mem ∧ (writeReg s r v).result = s.result ∧ (writeReg s r v).rst = s.rst ∧
      (writeReg s r v).program = s.program ∧ (writeReg s r v).observed = s.observed ∧
      (writeReg s r v).schedule = s.schedule ∧ (writeReg s r v).draws = s.draws := by
  cases r <;> first | exact ⟨rfl, rfl, rfl, rfl, rfl, rfl, rfl, rfl, rfl, rfl⟩ | skip
  cases hm : s.mode <;> simp [writeReg, hm]

/-- A host write keeps STATUS and RESULT in agreement. -/
theorem writeReg_statusOk (s : State) (r : Reg) (v : Word) (h : StatusOk s) : StatusOk (writeReg s r v) := by
  obtain ⟨h1, h2, h3⟩ := h
  cases r <;> try exact ⟨h1, h2, h3⟩
  · cases hm : s.mode
    · simp only [writeReg, hm]
      exact ⟨by simp, by simp, by simp⟩
    · simp only [writeReg, hm]
      exact ⟨h1, h2, fun _ => h3 hm⟩
  · refine ⟨h1, h2, fun hb => ?_⟩
    have := h3 hb
    simp [writeReg, writeStatus, this]

/-- No step changes what the instance and its platform fix (R8, R28 to R30). -/
theorem step_constants {s t : State} (h : step s = .next t) : t.params = s.params ∧ t.platform = s.platform := by
  cases step_form h with
  | ran i _ _ _ e => exact ⟨(exec_sameOutside e).params, (exec_sameOutside e).platform⟩
  | illegal x _ _ _ e => rw [e]; exact ⟨rfl, rfl⟩
  | nothing e => rw [e]; exact ⟨rfl, rfl⟩
  | host op rest _ _ f =>
    cases f with
    | wrote addr bits v r _ _ _ e => rw [e]; exact ⟨(writeReg_frame _ r v).1, (writeReg_frame _ r v).2.1⟩
    | readReg addr bits r _ _ _ e => rw [e]; exact ⟨rfl, rfl⟩
    | waiting _ _ _ e => rw [e]; exact ⟨rfl, rfl⟩
    | waited _ _ _ e => rw [e]; exact ⟨rfl, rfl⟩
    | wroteMem addr bytes _ _ _ e => rw [e]; exact ⟨rfl, rfl⟩
    | readMem addr n _ _ _ e => rw [e]; exact ⟨rfl, rfl⟩
    | asserted _ e => rw [e]; exact ⟨rfl, rfl⟩
    | deasserted _ e => rw [e]; exact ⟨rfl, rfl⟩

theorem assertRst_held (s : State) : ResetHeld (assertRst s) :=
  ⟨rfl, ⟨rfl, rfl, rfl, rfl, rfl, rfl⟩, ⟨rfl, rfl, rfl, rfl⟩, rfl, rfl⟩

theorem assertRst_mem_wf (s : State) (h : s.mem.wf) : (assertRst s).mem.wf := by
  rw [assertRst_mem]
  split
  · exact Memory.scrambleRegion_wf _ _ _ _ h
  · exact h

end Sys2Proof.Machine
end

