-- ==== Sys2Proof/Tests/Slice0.lean ====
section
/-! SUPPORT. The model's own tests: command words written out from `30_encoding.md` R91, ill-formed parameters and accesses, the
vectors of `95_test_vectors.md` (each one step), and for every obligation with hypotheses a witness that meets them. -/

namespace Sys2Proof.Tests

open Sys2Proof Sys2Proof.Machine

-- One theorem at a time: many kernel evaluations at once each take a thread and its stack.
set_option Elab.async false

/-! ### Decoding, from R90, R91 and R93 -/

theorem test_decode_nop : decodeWord 0b00000000000000000000000000000000#32 = .ok .nop := by decide
theorem test_decode_trieInit : decodeWord 0b00000000000000000000000000000001#32 = .ok .trieInit := by decide
theorem test_decode_triePut : decodeWord 0b00000000000000000000000000000010#32 = .ok .triePut := by decide
theorem test_decode_trieGet : decodeWord 0b00000000000000000000000000000011#32 = .ok .trieGet := by decide
theorem test_decode_trieDestroy : decodeWord 0b00000000000000000000000000000100#32 = .ok .trieDestroy := by decide
theorem test_decode_compress : decodeWord 0b00000000000000000000000000010000#32 = .ok .compress := by decide
theorem test_decode_decompress : decodeWord 0b00000000000000000000000000010001#32 = .ok .decompress := by decide

/-- The illegal words of vectors CT4, CT5 and CT6, and the ends of the ranges of R93. -/
theorem test_decode_illegal :
    ([0x05, 0x0F, 0x12, 0xFF].all fun w => decodeWord (BitVec.ofNat 32 w) = .error .unassignedOpcode) = true ∧
      ([0x100, 0x101, 0x110, 0x80000001, 0xFFFFFFFF].all fun w =>
        decodeWord (BitVec.ofNat 32 w) = .error .reservedBits) = true := by decide

theorem test_decodeTableWord :
    decodeTableWord 32 0x10 = some .compress ∧ decodeTableWord 32 0x101 = none ∧ decodeTableWord 32 0x100000010 = none := by
  decide

/-! ### Well-formedness. A command has no operand field (R94), so no term of Instr is ill formed; the checks are on parameters (R8) and
on register-port accesses (R218). -/

theorem test_wf_params_ok : Params.Legal Params.default ∧ Params.Legal ⟨9, 2, 512⟩ ∧ Params.Legal ⟨24, 4, 16777216⟩ := by decide
theorem test_wf_w_too_small : ¬Params.Legal ⟨8, 4, 65536⟩ := by decide
theorem test_wf_w_too_large : ¬Params.Legal ⟨25, 4, 4294967295⟩ := by decide
theorem test_wf_w_above_element : ¬Params.Legal ⟨17, 2, 4294967295⟩ := by decide
theorem test_wf_e_other : ¬Params.Legal ⟨16, 3, 65536⟩ := by decide
theorem test_wf_nodeCap_too_small : ¬Params.Legal ⟨16, 4, 65535⟩ := by decide
theorem test_wf_nodeCap_too_large : ¬Params.Legal ⟨16, 4, 4294967296⟩ := by decide
theorem test_wf_access : regAccessWf 0x3C 32 = true ∧ regAccessWf 0x40 32 = false ∧ regAccessWf 0x02 32 = false ∧
    regAccessWf 0x10 16 = false ∧ regAccessWf 0x10 8 = false := by decide
theorem test_wf_instr : ∀ i : Instr, i.wf = true := by intro i; cases i <;> rfl

/-! ### One step on small states. The start state is reset with these operands, memory bytes and trie. -/

/-- Reset with operands, bytes in memory, a trie and parameters. -/
def setup (p : Params) (a n d cap : Nat) (x : Nat) (bytes : Bytes) (t : Trie) : State :=
  { State.reset with
    params := p
    srcAddr := BitVec.ofNat 32 a
    srcLen := BitVec.ofNat 32 n
    dstAddr := BitVec.ofNat 32 d
    dstCap := BitVec.ofNat 32 cap
    mem := Memory.empty.writeBytes x bytes
    trie := t }

/-- The same with a command word placed where the engine takes it. -/
def ready (i : Instr) (p : Params) (a n d cap : Nat) (x : Nat) (bytes : Bytes) (t : Trie) : State :=
  (setup p a n d cap x bytes t).withFetchWord 32 (encode i).toNat

/-- RESULT, STATUS, NEXT_CW and NODE_COUNT, as a host reads them. -/
def view (s : State) : Nat × Nat × Nat × Nat :=
  ((readReg s .result).toNat, (readReg s .status).toNat, (readReg s .nextCw).toNat, (readReg s .nodeCount).toNat)

/-- The state after one step, or the state itself where the step does not answer a next state. -/
def next (s : State) : State :=
  match step s with
  | .next t => t
  | .fault _ => s
  | .refused _ => s

/-- The default parameters, and those of the freeze vectors. -/
abbrev p16 : Params := Params.default
abbrev p9 : Params := ⟨9, 2, 512⟩

/-- The ASCII strings of the vectors. -/
abbrev strA : Bytes := [0x41]
abbrev strAB : Bytes := [0x41, 0x42]
abbrev strABABABA : Bytes := [0x41, 0x42, 0x41, 0x42, 0x41, 0x42, 0x41]

/-- The trie after TR2: "AB" is entry 1, its prefixes are nodes. -/
def trieTR2 : Trie := ⟨true, [[0x41], [0x41, 0x42], []], [([0x41, 0x42], 1)], 2⟩

/-- The stream of R194, E = 4. -/
abbrev streamABABABA : Bytes :=
  [7, 0, 0, 0, 66, 0, 0, 0, 67, 0, 0, 0, 1, 1, 0, 0, 3, 1, 0, 0]

/-- CT3: NOP reads back STATUS 2 and RESULT 0. -/
theorem test_nop_CT3 : view (next (ready .nop p16 0 0 0 0 0 [] Trie.destroyed)) = (0, 0x02, 1, 0) := by decide +kernel

/-- TR1. -/
theorem test_trieInit_TR1 : view (next (ready .trieInit p16 0 0 0 0 0 [] Trie.destroyed)) = (0, 0x12, 1, 1) := by decide +kernel
/-- TR15: a live trie is discarded. -/
theorem test_trieInit_TR15 : view (next (ready .trieInit p16 0 0 0 0 0 [] trieTR2)) = (0, 0x12, 1, 1) := by decide +kernel

/-- TR2. -/
theorem test_triePut_TR2 : view (next (ready .triePut p16 0x1000 2 0 0 0x1000 strAB Trie.fresh)) = (1, 0x12, 2, 3) := by
  decide +kernel
/-- TR3, TR9, TR12, TR13: a node that is no entry; an empty key; not live before an empty key; a key past 2^32. -/
theorem test_triePut_cases :
    view (next (ready .triePut p16 0x1000 1 0 0 0x1000 strA trieTR2)) = (2, 0x12, 3, 3) ∧
      view (next (ready .triePut p16 0x1000 0 0 0 0 [] Trie.fresh)) = (0, 0x0B16, 1, 1) ∧
      view (next (ready .triePut p16 0x1000 0 0 0 0 [] Trie.destroyed)) = (0, 0x0906, 1, 0) ∧
      view (next (ready .triePut p16 0xFFFFFFFF 2 0 0 0 [] Trie.fresh)) = (0, 0x0216, 1, 1) := by decide +kernel

/-- TR5 without TR3, TR6: an entry is found, a beginning of one is not. -/
theorem test_trieGet_TR5_TR6 :
    view (next (ready .trieGet p16 0x1000 2 0 0 0x1000 strAB trieTR2)) = (1, 0x12, 2, 3) ∧
      view (next (ready .trieGet p16 0x1000 1 0 0 0x1000 strAB trieTR2)) = (0, 0x12, 2, 3) := by decide +kernel
/-- TR8, TR11: the empty key gives 0; a trie that is not live gives TRIE_NOT_LIVE. -/
theorem test_trieGet_TR8_TR11 :
    view (next (ready .trieGet p16 0x1000 0 0 0 0 [] Trie.fresh)) = (0, 0x12, 1, 1) ∧
      view (next (ready .trieGet p16 0x1000 1 0 0 0x1000 strA Trie.destroyed)) = (0, 0x0906, 1, 0) := by decide +kernel

/-- TR16, TR17. -/
theorem test_trieDestroy :
    view (next (ready .trieDestroy p16 0 0 0 0 0 [] trieTR2)) = (0, 0x02, 1, 0) ∧
      view (next (ready .trieDestroy p16 0 0 0 0 0 [] Trie.destroyed)) = (0, 0x02, 1, 0) := by decide +kernel

/-- EN4 (S1): the stream of "ABABABA", and the element after it is not written. -/
theorem test_compress_EN4 :
    (fun t => (view t, t.mem.readBytes 0x2000 24)) (next (ready .compress p16 0x1000 7 0x2000 8 0x1000 strABABABA trieTR2))
      = ((5, 0x02, 1, 0), streamABABABA ++ [0, 0, 0, 0]) := by decide +kernel
/-- EN1, EN2, EN9, EN12, and EN14 with E = 2: the empty input, and each operand check. -/
theorem test_compress_checks :
    view (next (ready .compress p16 0x1000 0 0x2000 2 0 [] Trie.destroyed)) = (2, 0x02, 1, 0) ∧
      view (next (ready .compress p16 0x1000 0 0x2000 1 0 [] Trie.destroyed)) = (0, 0x0406, 1, 0) ∧
      view (next (ready .compress p16 0x1000 7 0x1004 8 0 [] Trie.destroyed)) = (0, 0x0306, 1, 0) ∧
      view (next (ready .compress p16 0x1000 1 0xFFFFFFF0 5 0 [] Trie.destroyed)) = (0, 0x0206, 1, 0) ∧
      view (next (ready .compress p9 0x1000 65536 0x90000 1 0 [] Trie.destroyed)) = (0, 0x0506, 1, 0) := by decide +kernel

/-- DE1, DE20's trie: the stream of R194 decodes to "ABABABA", and the trie stays. -/
theorem test_decompress_DE1 :
    (fun t => (view t, t.mem.readBytes 0x3000 8))
        (next (ready .decompress p16 0x2000 5 0x3000 7 0x2000 streamABABABA trieTR2))
      = ((7, 0x12, 2, 3), strABABABA ++ [0]) := by decide +kernel
/-- DE2, DE4, DE6, DE10, DE12, DE15: the errors of DECOMPRESS. -/
theorem test_decompress_errors :
    view (next (ready .decompress p16 0x2000 5 0x3000 6 0x2000 streamABABABA Trie.destroyed)) = (0, 0x0406, 1, 0) ∧
      view (next (ready .decompress p16 0x2000 0 0x3000 6 0 [] Trie.destroyed)) = (0, 0x0706, 1, 0) ∧
      view (next (ready .decompress p16 0x2000 1 0x3000 5 0x2000 [5] Trie.destroyed)) = (0, 0x0806, 1, 0) ∧
      view (next (ready .decompress p16 0x2000 2 0x3000 3 0x2000 [3, 0, 0, 0, 1, 1] Trie.destroyed)) = (0, 0x0706, 1, 0) ∧
      view (next (ready .decompress p16 0x2000 3 0x3000 3 0x2000 [3, 0, 0, 0, 98, 0, 0, 0, 3, 1] Trie.destroyed))
        = (0, 0x0706, 1, 0) ∧
      view (next (ready .decompress p16 0x2000 2 0x3000 2 0x2000 [2, 0, 0, 0, 66] Trie.destroyed)) = (0, 0x0806, 1, 0) := by
  decide +kernel

/-- CT4: an illegal word. -/
theorem test_illegal_CT4 : view (next (State.reset.withFetchWord 32 5)) = (0, 0x0106, 1, 0) := by decide +kernel

/-! ### Registers -/

/-- CT1, CT2: the registers after reset, and PARAM of another instance. -/
theorem test_registers_CT1 :
    ([Reg.id, .param, .nodeCap, .status, .result, .nextCw, .nodeCount, .cmd, .reserved34].map fun r =>
        (readReg State.reset r).toNat) = [0x4C5A5701, 0x410, 0x10000, 0, 0, 1, 0, 0, 0] ∧
      (paramWord p9).toNat = 0x209 := by decide +kernel
/-- CT7, CT8: a STATUS write clears DONE and OVR and nothing else. -/
theorem test_status_CT7 :
    (readReg (writeReg (next (State.reset.withFetchWord 32 5)) .status 2#32) .status).toNat = 0x104 ∧
      (readReg (writeReg (next (State.reset.withFetchWord 32 5)) .status 0xFFFFFFFF#32) .status).toNat = 0x104 := by
  decide +kernel
/-- CT10 to CT12: OVR is set by a CMD write while BUSY, survives a start, and is cleared by bit 5. -/
theorem test_ovr_CT10 :
    (writeReg (startCommand State.reset 0x10#32) .cmd 0#32).ovr = true ∧
      (startCommand { State.reset with ovr := true } 0#32).ovr = true ∧
      (writeReg { State.reset with ovr := true } .status 0x20#32).ovr = false := by decide +kernel
/-- CT13, CT14: `irq`. -/
theorem test_irq_CT13 :
    irq (next { startCommand State.reset 0#32 with doneIe := true }) = true ∧
      irq (writeReg (next (startCommand State.reset 0#32)) .irqEn 1#32) = true ∧
      irq (writeReg (next { startCommand State.reset 0#32 with doneIe := true }) .status 2#32) = false := by decide +kernel
/-- CT15, CT16: read-only and reserved bits ignore writes. -/
theorem test_readOnly_CT15 :
    writeReg State.reset .result 5#32 = State.reset ∧ writeReg State.reset .id 0#32 = State.reset ∧
      writeReg State.reset .reserved38 7#32 = State.reset ∧
      readReg (writeReg State.reset .irqEn 0xFFFFFFFF#32) .irqEn = 1#32 := by decide +kernel
/-- R96: a pseudo-instruction stands for its register-port transactions. -/
theorem test_assembly :
    expandStmt Platform.default (.setSrc 0x1000#32 7#32) = [.write 0x18 32 0x1000#32, .write 0x1C 32 7#32] ∧
      expandStmt Platform.default (.cmd .compress) = [.write 0x0C 32 0x10#32] ∧
      expandStmt Platform.default .ackAll = [.write 0x10 32 0x22#32] := by decide +kernel

/-! ### Witnesses: for every obligation with hypotheses, concrete values that meet them, at the boundaries of its clauses -/

/-- Platforms with a bus error: at one address, for reads, for writes. -/
def badRead (x : Nat) : Platform := ⟨0, [⟨⟨x, x + 1⟩, true, false⟩], []⟩
def badWrite (x : Nat) : Platform := ⟨0, [⟨⟨x, x + 1⟩, false, true⟩], []⟩

/-- A platform without bus errors answers every access normally. -/
theorem busFreeFor_of_none (i : Instr) (s : State) (h : s.platform.busErrors = []) : BusFreeFor i s :=
  ⟨fun x _ _ => by simp [busOk, h], fun x _ _ => by simp [busOk, h]⟩

/-- An error completion, from its fields. -/
theorem failedWith_of {t : State} {c : ErrCode}
    (h : (t.mode, t.done, t.err, t.errcode, t.dictFull, t.result) = (Mode.idle, true, true, c, false, 0#32)) : FailedWith t c := by
  simp only [Prod.mk.injEq] at h
  exact ⟨h.1, h.2.1, h.2.2.1, h.2.2.2.1, h.2.2.2.2.1, h.2.2.2.2.2⟩

/-- States with a command running. -/
def putAB : State := ready .triePut p16 0x1000 2 0 0 0x1000 strAB Trie.fresh
def getAB : State := ready .trieGet p16 0x1000 2 0 0 0x1000 strAB Trie.fresh
def compressA : State := ready .compress p16 0x1000 1 0x2000 2 0x1000 strA Trie.destroyed
def decompressA : State := ready .decompress p16 0x2000 2 0x3000 1 0x2000 [1, 0, 0, 0, 66] Trie.destroyed

/-- COMPRESS of "A" into three elements at 0x2000, of which it writes two, with a hole for writes. -/
def compressHole (x : Nat) : State :=
  { ready .compress p16 0x1000 1 0x2000 3 0x1000 strA Trie.destroyed with platform := badWrite x }

theorem compressHole_ready : CompressReady (compressHole 0x2008) :=
  ⟨by decide +kernel, by decide +kernel, by decide +kernel, by decide +kernel, by decide +kernel⟩

/-- A DECOMPRESS of these bytes, with capacity 1. -/
def stream (n : Nat) (bytes : Bytes) : State := ready .decompress p16 0x2000 n 0x3000 1 0x2000 bytes Trie.destroyed

theorem witness_IllegalWordsAreTheUnassignedOnes :
    (∃ x, decodeWord 0x100#32 = .error x) ∧ (∃ x, decodeWord 0x05#32 = .error x) ∧ (∃ x, decodeWord 0x0F#32 = .error x) ∧
      (∃ x, decodeWord 0x12#32 = .error x) ∧ (∃ x, decodeWord 0xFF#32 = .error x) ∧ ∃ i, decodeWord 0x11#32 = .ok i :=
  ⟨⟨_, rfl⟩, ⟨_, rfl⟩, ⟨_, rfl⟩, ⟨_, rfl⟩, ⟨_, rfl⟩, ⟨_, rfl⟩⟩

theorem witness_StepRunsTheLatchedCommand : putAB.mode = .busy ∧ putAB.rst = false ∧ nextTurn putAB = .engine ∧
    decodeWord putAB.latch.word = .ok .triePut := by decide

theorem witness_HostTurnCarriesOutOneOperation :
    nextTurn { putAB with schedule := [.host], program := [.wait] } = .host ∧
      ({ putAB with schedule := [.host], program := [.wait] } : State).program = .wait :: [] := by decide

theorem witness_IllegalWordCompletesWithIllegalCmd :
    (State.reset.mode = .idle ∧ ∃ x, decodeWord 0x101#32 = .error x) ∧ (∃ x, decodeWord (State.reset.withFetchWord 32 0x12).latch.word = .error x) ∧
      (State.reset.withFetchWord 32 0x12).mode = .busy ∧ (State.reset.withFetchWord 32 0x12).rst = false ∧
      nextTurn (State.reset.withFetchWord 32 0x12) = .engine := ⟨⟨rfl, ⟨_, rfl⟩⟩, ⟨_, rfl⟩, rfl, rfl, rfl⟩

theorem witness_WaitingHostSeesTheCompletion :
    ({ startCommand State.reset 0#32 with program := [.wait], schedule := [.host, .host] } : State).mode = .busy ∧
      ({ startCommand State.reset 0#32 with program := [.wait], schedule := [.host, .host] } : State).rst = false ∧
      ({ startCommand State.reset 0#32 with program := [.wait], schedule := [.host, .host] } : State).schedule
        = List.replicate 2 .host ∧
      ({ startCommand State.reset 0#32 with program := [.wait], schedule := [] } : State).schedule = List.replicate 0 .host := by
  decide

theorem witness_ResetGivesEveryRegisterItsValue : State.reset.mode = .idle := rfl

/-- The last byte of the destination, the first and last of the source, and the bytes just outside. -/
theorem witness_ResetMidCommandAbandonsIt : compressA.mode = .busy ∧ compressA.mem.wf ∧
    inRegion (latchDst compressA.params compressA.latch) 0x2007 = true ∧
    inRegion (latchSrc compressA.params compressA.latch) 0x2007 = false ∧
    inRegion (latchDst compressA.params compressA.latch) 0x2008 = false ∧
    inRegion (latchSrc compressA.params compressA.latch) 0x1000 = true := by decide +kernel

theorem witness_StatusWordLayout : State.reset.mode = .idle ∧ ((6 = 6 ∨ 6 = 7 ∨ 16 ≤ 6) ∧ (16 = 6 ∨ 16 = 7 ∨ 16 ≤ 16)) := by decide

theorem witness_ParamRegisterLayout : Params.Legal ⟨24, 4, 4294967295⟩ ∧ ∃ t, step putAB = .next t :=
  ⟨by decide, ⟨_, rfl⟩⟩

theorem witness_TrieRegistersReadTheTrie : State.reset.params.Legal ∧ TrieOk State.reset.params State.reset.trie ∧
    State.reset.mode = .idle := ⟨by decide, destroyed_ok _, rfl⟩

theorem witness_CmdWriteStartsACommand : State.reset.mode = .idle := rfl

theorem witness_CmdWriteWhileBusyOnlySetsOvr : putAB.mode = .busy := rfl

theorem witness_CommandUsesOnlyLatchedOperands : State.reset.mode = .idle := rfl

theorem witness_RegisterWritesByAccessType : regOfOffset 0x34 = some .reserved34 ∧ regOfOffset 0x38 = some .reserved38 ∧
    regOfOffset 0x3C = some .reserved3C := by decide

theorem witness_StatusWriteClearsDoneAndOvr : (0x22#32).getLsbD 1 = true ∧ (0x22#32).getLsbD 5 = true ∧
    (0x1D#32).getLsbD 1 = false ∧ (0x1D#32).getLsbD 5 = false ∧ StatusOk putAB ∧ putAB.mode = .busy :=
  ⟨by decide, by decide, by decide, by decide, ⟨by decide, by decide, by decide⟩, rfl⟩

theorem witness_RegisterReadHasNoSideEffect :
    ({ State.reset with program := [.read 0x10 32] } : State).rst = false ∧
      nextTurn { State.reset with program := [.read 0x10 32] } = .host ∧
      ({ State.reset with program := [.read 0x10 32] } : State).program
        = .read (State.reset.platform.regBase + regOffset .status) 32 :: [] := by decide

theorem witness_OnlyAlignedWordAccessesReachTheWindow :
    (State.reset.rst = false ∧ regAccessWf 0x00 32 = true ∧ regAccessWf 0x3C 32 = true ∧
        startsOnDevice State.reset .reserved3C 0#32 = false) ∧
      (¬(State.reset.platform.regBase ≤ 0x40 ∧ regAccessWf (0x40 - State.reset.platform.regBase) 32 = true) ∧
        ¬(State.reset.platform.regBase ≤ 0x3E ∧ regAccessWf (0x3E - State.reset.platform.regBase) 32 = true) ∧
        ¬(State.reset.platform.regBase ≤ 0x3C ∧ regAccessWf (0x3C - State.reset.platform.regBase) 16 = true)) ∧
      (assertRst State.reset).rst = true := by decide +kernel

/-- The first byte of the source, the last byte of the destination, and the bytes just past them; in IDLE, the last byte of memory. -/
theorem witness_HostKeepsOutOfRunningRegions : compressA.mode = .busy ∧
    touchesDevice ⟨0, [], [⟨0x5000, 0x6000⟩]⟩ (regionAt 0x2008 1) = false ∧ 0x2008 + strA.length ≤ addressSpace ∧
    overlaps (regionAt 0x1000 1) (latchSrc compressA.params compressA.latch) = true ∧
    overlaps (regionAt 0x2007 1) (latchDst compressA.params compressA.latch) = true ∧
    (overlaps (regionAt 0x2008 1) (latchSrc compressA.params compressA.latch) = false ∧
      overlaps (regionAt 0x2008 1) (latchDst compressA.params compressA.latch) = false) ∧
    overlaps (regionAt 0x1000 1) (latchDst compressA.params compressA.latch) = false ∧
    (State.reset.mode = .idle ∧ touchesDevice State.reset.platform (regionAt 0xFFFFFFFF 1) = false ∧
      0xFFFFFFFF + strA.length ≤ addressSpace ∧ State.reset.mem.wf) := by decide +kernel

/-- `irq` rises at a completion, and when it is enabled after one. -/
theorem witness_InterruptFollowsDoneAndEnable :
    (irq { putAB with doneIe := true } = false ∧ irq (next { putAB with doneIe := true }) = true ∧
        ∃ t, step { putAB with doneIe := true } = .next t) ∧
      (irq { State.reset with done := true, program := [.write 0x14 32 1#32] } = false ∧
        irq (next { State.reset with done := true, program := [.write 0x14 32 1#32] }) = true ∧
        ∃ t, step { State.reset with done := true, program := [.write 0x14 32 1#32] } = .next t) :=
  ⟨⟨rfl, by decide +kernel, ⟨_, rfl⟩⟩, rfl, rfl, ⟨_, rfl⟩⟩

/-- OVR from 0 to 1 by a CMD write while BUSY, and from 1 to 0 by a STATUS write and by reset. -/
theorem witness_OvrChangesOnlyAsStated :
    ((next { putAB with schedule := [.host], program := [.write 0x0C 32 0#32] }).ovr = true ∧
        ∃ t, step { putAB with schedule := [.host], program := [.write 0x0C 32 0#32] } = .next t) ∧
      ((next { State.reset with ovr := true, program := [.write 0x10 32 0x20#32] }).ovr = false ∧
        ∃ t, step { State.reset with ovr := true, program := [.write 0x10 32 0x20#32] } = .next t) ∧
      ((next { State.reset with ovr := true, program := [.assertRst] }).ovr = false ∧
        ∃ t, step { State.reset with ovr := true, program := [.assertRst] } = .next t) :=
  ⟨⟨rfl, ⟨_, rfl⟩⟩, ⟨rfl, ⟨_, rfl⟩⟩, ⟨rfl, ⟨_, rfl⟩⟩⟩

/-- RESULT changes at a completion and at a reset; the core becomes BUSY at a CMD write. -/
theorem witness_ResultChangesOnlyAtCompletion :
    ((next putAB).result = 1#32 ∧ ∃ t, step putAB = .next t) ∧
      ((next { State.reset with result := 5, program := [.assertRst] }).result = 0#32 ∧
        ∃ t, step { State.reset with result := 5, program := [.assertRst] } = .next t) ∧
      ((next { State.reset with program := [.write 0x0C 32 2#32] }).mode = .busy ∧
        ∃ t, step { State.reset with program := [.write 0x0C 32 2#32] } = .next t) :=
  ⟨⟨by decide +kernel, ⟨_, rfl⟩⟩, ⟨rfl, ⟨_, rfl⟩⟩, ⟨rfl, ⟨_, rfl⟩⟩⟩

theorem witness_EveryCommandCompletes : putAB.params.Legal := by decide

theorem witness_CommandsWriteOnlyTheirDestination : compressA.params.Legal ∧ compressA.mem.wf ∧
    (∃ t, exec .compress compressA = .next t) ∧
    inRegion (srcRegion compressA.params .compress compressA.latch) 0x1000 = true ∧
    inRegion (dstRegion compressA.params .compress compressA.latch) 0x1FFF = false ∧
    inRegion (dstRegion compressA.params .compress compressA.latch) 0x2008 = false :=
  ⟨by decide, by decide +kernel, ⟨_, rfl⟩, by decide +kernel, by decide +kernel, by decide +kernel⟩

/-- Each kind of error: an operand check, BUS, CORRUPT and LENGTH past the header, CORRUPT without one. -/
theorem witness_MemoryAfterAnError :
    (∃ t, exec .compress (ready .compress p16 0x1000 1 0x2000 1 0x1000 strA Trie.destroyed) = .next t ∧ FailedWith t .dstCap) ∧
      (∃ t, exec .compress { compressA with platform := badRead 0x1000 } = .next t ∧ FailedWith t .bus) ∧
      (∃ t, exec .decompress (ready .decompress p16 0x2000 2 0x3000 1 0x2000 [1] Trie.destroyed) = .next t ∧
        FailedWith t .corrupt) ∧
      (∃ t, exec .decompress (ready .decompress p16 0x2000 2 0x3000 2 0x2000 [2, 0, 0, 0, 66] Trie.destroyed) = .next t ∧
        FailedWith t .length) ∧
      ∃ t, exec .decompress (ready .decompress p16 0x2000 0 0x3000 2 0 [] Trie.destroyed) = .next t ∧ FailedWith t .corrupt :=
  ⟨⟨_, rfl, failedWith_of (by decide +kernel)⟩, ⟨_, rfl, failedWith_of (by decide +kernel)⟩,
    ⟨_, rfl, failedWith_of (by decide +kernel)⟩, ⟨_, rfl, failedWith_of (by decide +kernel)⟩,
    ⟨_, rfl, failedWith_of (by decide +kernel)⟩⟩

/-- A hole just past the stream COMPRESS writes, inside its destination region of three elements, meets no access; one in its last
element does. -/
theorem witness_BusErrorsOnlyTurnTheOutcomeIntoBus : compressA.params.Legal ∧
    (CompressReady (compressHole 0x2008) ∧ AccessesAnswer .compress (compressHole 0x2008) ∧
      ¬BusFreeFor .compress (compressHole 0x2008)) ∧
    (¬AccessesAnswer .compress (compressHole 0x2007) ∧
      ∃ t, exec .compress (withoutBusErrors (compressHole 0x2007)) = .next t ∧ t.err = false) ∧
    ∃ t, exec .compress { compressA with platform := badRead 0x1000 } = .next t ∧ t.errcode = .bus := by
  refine ⟨by decide, ⟨compressHole_ready, (compress_accesses _).2 (by decide +kernel), fun h => ?_⟩,
    ⟨fun h => ?_, ⟨_, rfl, by decide +kernel⟩⟩, ⟨_, rfl, by decide +kernel⟩⟩
  · have := h.2 0x2008 (by decide +kernel) (by decide +kernel)
    revert this
    decide +kernel
  · have := (compress_accesses _).1 h
    revert this
    decide +kernel

/-- A stream whose element 2 is corrupt: a hole in the last byte of that element meets an access, a hole just after it does not, and
the outcome without bus errors is an error. -/
theorem witness_BusErrorsOnlyTurnTheOutcomeIntoBus_error :
    ¬AccessesAnswer .decompress { stream 3 [1, 0, 0, 0, 66] with platform := badRead 0x200B } ∧
      AccessesAnswer .decompress { stream 4 [1, 0, 0, 0, 66] with platform := badRead 0x200C } ∧
      ∃ t, exec .decompress (withoutBusErrors { stream 3 [1, 0, 0, 0, 66] with platform := badRead 0x200B }) = .next t ∧
        t.err = true :=
  ⟨fun h => absurd ((decompress_accesses _).1 h) (by decide +kernel), (decompress_accesses _).2 (by decide +kernel),
    ⟨_, rfl, by decide +kernel⟩⟩

/-- A bus error on the last byte of the key, on the last byte of the stream COMPRESS writes, and on the byte DECOMPRESS writes. -/
theorem witness_BusErrorOnAnAccessGivesBus :
    (∃ t, exec .triePut (withoutBusErrors { putAB with platform := badRead 0x1001 }) = .next t ∧ t.err = false ∧
        inRegion (srcRegion p16 .triePut putAB.latch) 0x1001 = true ∧ busOk (badRead 0x1001) .read 0x1001 = false) ∧
      (∃ t, exec .compress (withoutBusErrors { compressA with platform := badWrite 0x2007 }) = .next t ∧ t.err = false ∧
        0x2007 < 0x2000 + t.result.toNat * 4 ∧ busOk (badWrite 0x2007) .write 0x2007 = false) ∧
      ∃ t, exec .decompress (withoutBusErrors { decompressA with platform := badWrite 0x3000 }) = .next t ∧ t.err = false ∧
        0x3000 < 0x3000 + t.result.toNat ∧ busOk (badWrite 0x3000) .write 0x3000 = false :=
  ⟨⟨_, rfl, by decide +kernel⟩, ⟨_, rfl, by decide +kernel⟩, ⟨_, rfl, by decide +kernel⟩⟩

theorem witness_TriePutAssignsTheNextCodeword : putAB.params.Legal ∧ TrieOk putAB.params putAB.trie ∧ putAB.trie.live = true ∧
    1 ≤ putAB.latch.n.toNat ∧ putAB.latch.a.toNat + putAB.latch.n.toNat ≤ addressSpace ∧ BusFreeFor .triePut putAB ∧
    putAB.trie.cw (sourceBytes putAB) = 0 ∧ putAB.trie.next ≤ cwMax putAB.params ∧
    putAB.trie.nodes.length + (putAB.trie.missing (sourceBytes putAB)).length ≤ putAB.params.nodeCap :=
  ⟨by decide, fresh_ok _ (by decide), rfl, by decide, by decide, busFreeFor_of_none _ _ rfl, by decide +kernel,
    by decide +kernel, by decide +kernel⟩

theorem witness_TriePutOfAnEntryReturnsItsCodeword :
    ({ putAB with trie := trieTR2 } : State).trie.live = true ∧ 1 ≤ putAB.latch.n.toNat ∧
      putAB.latch.a.toNat + putAB.latch.n.toNat ≤ addressSpace ∧ BusFreeFor .triePut { putAB with trie := trieTR2 } ∧
      trieTR2.cw (sourceBytes { putAB with trie := trieTR2 }) ≠ 0 :=
  ⟨rfl, by decide, by decide, busFreeFor_of_none _ _ rfl, by decide +kernel⟩

/-- A frozen trie of W = 9: T.next is just past CW_MAX. -/
theorem witness_TriePutIntoAFrozenDictionary :
    (ready .triePut p9 0x1000 1 0 0 0x1000 strA ⟨true, [[]], [], 512⟩).trie.live = true ∧
      1 ≤ (ready .triePut p9 0x1000 1 0 0 0x1000 strA ⟨true, [[]], [], 512⟩).latch.n.toNat ∧
      (ready .triePut p9 0x1000 1 0 0 0x1000 strA ⟨true, [[]], [], 512⟩).latch.a.toNat + 1 ≤ addressSpace ∧
      BusFreeFor .triePut (ready .triePut p9 0x1000 1 0 0 0x1000 strA ⟨true, [[]], [], 512⟩) ∧
      Trie.cw ⟨true, [[]], [], 512⟩ strA = 0 ∧ cwMax p9 < 512 :=
  ⟨rfl, by decide, by decide +kernel, busFreeFor_of_none _ _ rfl, by decide +kernel, by decide⟩

/-- A trie that is not live; an empty key; the first length that leaves 2^32; a store of 512 nodes of which 512 are used. -/
theorem witness_TriePutErrorsInOrder : p9.Legal ∧ Trie.destroyed.live = false ∧
    (ready .triePut p9 0x1000 0 0 0 0 [] Trie.fresh).latch.n.toNat = 0 ∧
    addressSpace < (ready .triePut p9 0xFFFFFFFF 2 0 0 0 [] Trie.fresh).latch.a.toNat + 2 ∧
    (BusFreeFor .triePut (ready .triePut p9 0x1000 1 0 0 0x1000 strA ⟨true, List.replicate 512 [], [], 1⟩) ∧
      Trie.cw ⟨true, List.replicate 512 [], [], 1⟩ strA = 0 ∧
      p9.nodeCap < 512 + (Trie.missing ⟨true, List.replicate 512 [], [], 1⟩ strA).length) :=
  ⟨by decide, rfl, by decide +kernel, by decide +kernel, busFreeFor_of_none _ _ rfl, by decide +kernel, by decide +kernel⟩

theorem witness_TrieGetReturnsTheExactEntry : TrieOk getAB.params getAB.trie ∧ getAB.trie.live = true ∧
    getAB.latch.a.toNat + getAB.latch.n.toNat ≤ addressSpace ∧ BusFreeFor .trieGet getAB ∧
    sourceBytes getAB ∉ getAB.trie.nodes ∧ (ready .trieGet p16 0x1000 0 0 0 0 [] Trie.fresh).latch.n.toNat = 0 :=
  ⟨fresh_ok _ (by decide), rfl, by decide, busFreeFor_of_none _ _ rfl, by decide +kernel, by decide +kernel⟩

theorem witness_TrieGetErrorsInOrder : Trie.destroyed.live = false ∧
    addressSpace < (ready .trieGet p16 0xFFFFFFFF 2 0 0 0 [] Trie.fresh).latch.a.toNat + 2 ∧
    ¬BusFreeFor .trieGet { getAB with platform := badRead 0x1001 } := by
  refine ⟨rfl, by decide +kernel, fun h => ?_⟩
  have := h.1 0x1001 (by decide +kernel) (by decide +kernel)
  revert this
  decide +kernel

theorem witness_PutThenGetFindsTheKey : putAB.params.Legal ∧ TrieOk putAB.params putAB.trie ∧ BusFreeFor .triePut putAB ∧
    ∃ t, exec .triePut putAB = .next t ∧ t.err = false ∧ t.dictFull = false :=
  ⟨by decide, fresh_ok _ (by decide), busFreeFor_of_none _ _ rfl, ⟨_, rfl, by decide +kernel⟩⟩

theorem witness_TrieOnlyGrows : (∃ t, exec .triePut putAB = .next t) ∧ ∃ t, exec .compress compressA = .next t :=
  ⟨⟨_, rfl⟩, ⟨_, rfl⟩⟩

/-- Each check of COMPRESS at its bound, and a state that passes them all. -/
theorem witness_CompressOperandChecksInOrder :
    addressSpace < 0xFFFFFFF0 + 5 * p16.e ∧
      overlaps (srcRegion p16 .compress ⟨0x10, 0x1000, 7, 0x1006, 8⟩) (dstRegion p16 .compress ⟨0x10, 0x1000, 7, 0x1006, 8⟩) = true ∧
      elemMax p9 < 65536 ∧ 1 < max 0 1 + 1 := by decide +kernel

/-- An empty input into a destination of one element. -/
theorem witness_CompressOperandChecksInOrder_notReady :
    ¬CompressReady (ready .compress p16 0x1000 0 0x2000 1 0 [] Trie.destroyed) :=
  fun h => absurd h.cap (by decide +kernel)

theorem compressA_ready : CompressReady compressA :=
  ⟨by decide +kernel, by decide +kernel, by decide +kernel, by decide +kernel, by decide +kernel⟩

theorem witness_CompressWritesHeaderAndCodewords : compressA.params.Legal ∧ compressA.mem.wf ∧ CompressReady compressA ∧
    BusFreeFor .compress compressA :=
  ⟨by decide, by decide +kernel, compressA_ready, busFreeFor_of_none _ _ rfl⟩

theorem witness_SeedingNumbersTheBytes : p9.Legal := by decide

theorem witness_CompressOutputSize : compressA.params.Legal ∧
    (∃ t, exec .compress compressA = .next t ∧ t.err = false ∧ 1 ≤ compressA.latch.n.toNat) ∧
    ∃ t, exec .compress (ready .compress p16 0x1000 0 0x2000 2 0 [] Trie.destroyed) = .next t ∧ t.err = false :=
  ⟨by decide, ⟨_, rfl, by decide +kernel⟩, ⟨_, rfl, by decide +kernel⟩⟩

theorem witness_EmittedCodewordsAreCodewords : p9.Legal ∧ strA ≠ [] ∧ (encoderScan p9 []).cand = [] := ⟨by decide, by decide, rfl⟩

/-- After "A" the scan meets "AB", which is no entry. -/
theorem witness_ScanNeverRunsOutOfNodes : p9.Legal ∧
    (encoderScan p9 strA).trie.cw ((encoderScan p9 strA).cand ++ [0x42]) = 0 := ⟨by decide, by decide +kernel⟩

theorem witness_DictFullCountsTheInsertions : compressA.params.Legal ∧
    ∃ t, exec .compress compressA = .next t ∧ t.err = false ∧ 1 ≤ compressA.latch.n.toNat :=
  ⟨by decide, ⟨_, rfl, by decide +kernel⟩⟩

/-- The checks of DECOMPRESS at their bounds. -/
theorem witness_DecompressOperandChecksInOrder :
    addressSpace < 0xFFFFFFFD + 1 * p16.e ∧
      overlaps (srcRegion p16 .decompress ⟨0x11, 0x2000, 2, 0x2007, 1⟩) (dstRegion p16 .decompress ⟨0x11, 0x2000, 2, 0x2007, 1⟩)
        = true ∧
      ElementsReadable decompressA 1 ∧
      (ready .decompress p16 0x2000 2 0x3000 0 0x2000 [1, 0, 0, 0, 66] Trie.destroyed).latch.cap.toNat
        < sourceElem (ready .decompress p16 0x2000 2 0x3000 0 0x2000 [1, 0, 0, 0, 66] Trie.destroyed) 0 :=
  ⟨by decide, by decide +kernel, fun _ _ _ => rfl, by decide +kernel⟩

/-- A stream of no elements. -/
theorem witness_DecompressOperandChecksInOrder_notReady :
    ¬DecompressReady (ready .decompress p16 0x2000 0 0x3000 1 0 [] Trie.destroyed) :=
  fun h => absurd h.len (by decide +kernel)

theorem witness_HeaderOnlyStream :
    (DecompressReady (stream 1 [0]) ∧ ElementsReadable (stream 1 [0]) 1 ∧ (stream 1 [0]).latch.n.toNat = 1 ∧
        sourceElem (stream 1 [0]) 0 = 0) ∧
      (DecompressReady (stream 1 [1]) ∧ ElementsReadable (stream 1 [1]) 1 ∧ (stream 1 [1]).latch.n.toNat = 1 ∧
        sourceElem (stream 1 [1]) 0 = 1 ∧ sourceElem (stream 1 [1]) 0 ≤ (stream 1 [1]).latch.cap.toNat) :=
  ⟨⟨⟨by decide +kernel, by decide +kernel, by decide +kernel, by decide +kernel⟩, fun _ _ _ => rfl, by decide +kernel⟩,
    ⟨⟨by decide +kernel, by decide +kernel, by decide +kernel, by decide +kernel⟩, fun _ _ _ => rfl, by decide +kernel⟩⟩

/-- The stream [0, 0]; the stream [1, 257], whose first codeword is just past the seeds; the streams [1, 0] and [0, 256]. -/
theorem witness_FirstCodewordMustBeASeed :
    DecompressReady (stream 2 [0, 0, 0, 0, 0]) ∧ ElementsReadable (stream 2 [0, 0, 0, 0, 0]) 2 ∧
      2 ≤ (stream 2 [0, 0, 0, 0, 0]).latch.n.toNat ∧ sourceElem (stream 2 [0, 0, 0, 0, 0]) 0 ≤ 1 ∧
      (sourceElem (stream 2 [0, 0, 0, 0, 0]) 0 = 0 ∧ sourceElem (stream 2 [0, 0, 0, 0, 0]) 1 = 0) ∧
      (sourceElem (stream 2 [1, 0, 0, 0, 1, 1]) 0 = 1 ∧ 256 < sourceElem (stream 2 [1, 0, 0, 0, 1, 1]) 1) ∧
      sourceElem (stream 2 [1, 0, 0, 0, 0]) 1 = 0 ∧
      (sourceElem (stream 2 [0, 0, 0, 0, 0, 1]) 1 = 256 ∧ sourceElem (stream 2 [0, 0, 0, 0, 0, 1]) 0 = 0) :=
  ⟨⟨by decide +kernel, by decide +kernel, by decide +kernel, by decide +kernel⟩, fun _ _ _ => rfl, by decide +kernel,
    by decide +kernel, by decide +kernel, by decide +kernel, by decide +kernel, by decide +kernel⟩

/-- The decoder after the codeword 98 of "aaa", and one whose dictionary is frozen. -/
def decoderA : DecoderWork := ⟨[(98, [0x61])], 257, 98, 98, [0x61], false⟩
def decoderFrozen : DecoderWork := ⟨[(98, [0x61])], 512, 98, 98, [0x61], false⟩

/-- 0, 258 and 65536 are corrupt, 98 is known, 257 is the unknown case; with a frozen dictionary 98 is known and nothing is stored. -/
theorem witness_SubsequentCodeword :
    (cwMax p16 < 65536 ∧ decoderA.nextFree < 258) ∧
      (98 < decoderA.nextFree ∧ decoderA.output.length + (dictGet decoderA.dict 98).length ≤ 3 ∧
        decoderA.nextFree ≤ cwMax p16) ∧
      (257 = decoderA.nextFree ∧ 257 ≤ cwMax p16 ∧
        decoderA.output.length + (dictGet decoderA.dict decoderA.last).length + 1 ≤ 3) ∧
      (98 < decoderFrozen.nextFree ∧ decoderFrozen.output.length + (dictGet decoderFrozen.dict 98).length ≤ 3 ∧
        cwMax p9 < decoderFrozen.nextFree) ∧
      (98 < decoderA.nextFree ∧ 1 < decoderA.output.length + (dictGet decoderA.dict 98).length) ∧
      2 < decoderA.output.length + (dictGet decoderA.dict decoderA.last).length + 1 := by decide +kernel

/-- The decoder after the codeword 66. -/
def decoder66 : DecoderWork := ⟨seedDict, 257, 66, 66, strA, false⟩

/-- [1, 66, 0] is rejected at its element 2; [1, 66] is accepted whole. -/
theorem witness_SubsequentCodeword_exec :
    (DecompressReady (stream 3 [1, 0, 0, 0, 66]) ∧ 2 < (stream 3 [1, 0, 0, 0, 66]).latch.n.toNat ∧
        sourceElem (stream 3 [1, 0, 0, 0, 66]) 0 ≤ (stream 3 [1, 0, 0, 0, 66]).latch.cap.toNat ∧
        decoderFirst (sourceElem (stream 3 [1, 0, 0, 0, 66]) 0) (sourceElem (stream 3 [1, 0, 0, 0, 66]) 1) = .ok decoder66 ∧
        elementsFrom (stream 3 [1, 0, 0, 0, 66]) 2 2 = [] ∧
        decoderElem p16 1 decoder66 (sourceElem (stream 3 [1, 0, 0, 0, 66]) 2) = .error .corrupt ∧
        ElementsReadable (stream 3 [1, 0, 0, 0, 66]) 3 ∧ OutputWritable (stream 3 [1, 0, 0, 0, 66]) 1) ∧
      (DecompressReady (stream 2 [1, 0, 0, 0, 66]) ∧ elementsFrom (stream 2 [1, 0, 0, 0, 66]) 2 2 = [] ∧
        decoder66.output.length = sourceElem (stream 2 [1, 0, 0, 0, 66]) 0 ∧ (stream 2 [1, 0, 0, 0, 66]).mem.wf) :=
  ⟨⟨⟨by decide +kernel, by decide +kernel, by decide +kernel, by decide +kernel⟩, by decide +kernel, by decide +kernel, by decide +kernel, rfl, by decide +kernel,
      fun _ _ _ => rfl, fun _ _ _ => rfl⟩,
    ⟨by decide +kernel, by decide +kernel, by decide +kernel, by decide +kernel⟩, rfl, by decide +kernel, by decide +kernel⟩

/-- [2, 66] into two bytes is accepted whole and is too short. -/
theorem witness_SubsequentCodeword_short :
    DecompressReady (ready .decompress p16 0x2000 2 0x3000 2 0x2000 [2, 0, 0, 0, 66] Trie.destroyed) ∧
      decoderFirst 2 66 = .ok decoder66 ∧ decoder66.output.length ≠ 2 :=
  ⟨⟨by decide +kernel, by decide +kernel, by decide +kernel, by decide +kernel⟩, by decide +kernel, by decide +kernel⟩

/-- "aaa" is written as [3, 98, 257]. -/
theorem witness_DecoderKeepsItsEntries : ∃ (c1 : Nat) (cs : List Nat) (v0 v : DecoderWork),
    decoderFirst 3 c1 = .ok v0 ∧ cs.foldlM (decoderElem p16 3) v0 = .ok v := by
  have hp : p16.Legal := by decide
  obtain ⟨c1, cs, v0, v, -, h1, h2, -⟩ := inStep_catches_up p16 3 [0x61, 0x61, 0x61] _ (encoderScan_ok p16 hp _)
    (encoderScan_inStep p16 hp 3 _ (by decide)) (encoderScan_cand_ne p16 hp _ (by decide)) (by decide)
  exact ⟨c1, cs, v0, v, h1, h2⟩

theorem witness_DecompressWritesTheDecodedBytes : decompressA.mem.wf ∧ DecompressReady decompressA ∧
    BusFreeFor .decompress decompressA ∧
    decodeStream decompressA.params decompressA.latch.cap.toNat (sourceElem decompressA) decompressA.latch.n.toNat
      = ⟨.finish 1 false, 2, strA⟩ :=
  ⟨by decide +kernel, ⟨by decide +kernel, by decide +kernel, by decide +kernel, by decide +kernel⟩, busFreeFor_of_none _ _ rfl,
    by decide +kernel⟩

theorem witness_DecoderHoldsTheEncodersEntries : p16.Legal ∧ strABABABA ≠ [] ∧ strABABABA.length ≤ 7 := by decide

/-- COMPRESS of "A", and DECOMPRESS of what it wrote into one byte at 0x3000. -/
theorem witness_DecompressInvertsCompress : ∃ t, compressA.params.Legal ∧ compressA.mem.wf ∧ exec .compress compressA = .next t ∧
    t.err = false ∧ compressA.latch.n.toNat ≤ (1#32).toNat ∧
    DecompressReady { t with latch := ⟨encode .decompress, compressA.latch.d, t.result, 0x3000, 1⟩ } ∧
    BusFreeFor .decompress { t with latch := ⟨encode .decompress, compressA.latch.d, t.result, 0x3000, 1⟩ } :=
  ⟨_, by decide, by decide +kernel, rfl, by decide +kernel, by decide +kernel,
    ⟨by decide +kernel, by decide +kernel, by decide +kernel, by decide +kernel⟩, busFreeFor_of_none _ _ rfl⟩

theorem putAB_inv : StateInv putAB :=
  ⟨by decide, by decide +kernel, fresh_ok _ (by decide), ⟨by decide, by decide, by decide⟩, fun h => by cases h⟩

theorem witness_StepKeepsTheTrieInvariants : putAB.params.Legal ∧ TrieOk putAB.params putAB.trie ∧ ∃ t, step putAB = .next t :=
  ⟨putAB_inv.legal, putAB_inv.trie, ⟨_, rfl⟩⟩

theorem witness_StepKeepsTheMachineInvariant : StateInv putAB ∧ ∃ t, step putAB = .next t := ⟨putAB_inv, ⟨_, rfl⟩⟩

end Sys2Proof.Tests
end

section
/-! SUPPORT. The registers: what each reads as, what a host write does to each, and what a step can do to the flags
(`10_state.md`, `43_control.md`). -/

namespace Sys2Proof.Machine

/-! ### Reads -/

@[simp] theorem readReg_status (s : State) : readReg s .status = statusWord s := rfl

@[simp] theorem readReg_nextCw_idle (s : State) (h : s.mode = .idle) : readReg s .nextCw = BitVec.ofNat 32 s.trie.next := by
  simp [readReg, nextCwWord, h]

@[simp] theorem readReg_nodeCount_idle (s : State) (h : s.mode = .idle) :
    readReg s .nodeCount = BitVec.ofNat 32 s.trie.nodes.length := by
  simp [readReg, nodeCountWord, h]

/-- STATUS.TRIE_LIVE in IDLE (R36). -/
@[simp] theorem trieLiveBit_idle (s : State) (h : s.mode = .idle) : trieLiveBit s = s.trie.live := by
  simp [trieLiveBit, h]

/-- STATUS of a core that holds its reset values (R65). -/
theorem statusWord_of_resetHeld {s : State} (h : ResetHeld s) : statusWord s = 0#32 := by
  obtain ⟨hdone, herr, hfull, hovr, hcode, -⟩ := h.flags
  have hlive : trieLiveBit s = false := by rw [trieLiveBit_idle s h.mode, h.trie]; rfl
  rw [statusWord, busyBit_idle s h.mode, hlive, hdone, herr, hfull, hovr, hcode]
  rfl

/-- The bits of a word laid out as PARAM is. -/
theorem paramLayout_getLsbD (e : BitVec 3) (w : BitVec 5) (i : Nat) :
    (0#21 ++ e ++ 0#3 ++ w : BitVec (21 + 3 + 3 + 5)).getLsbD i
      = if i < 5 then w.getLsbD i else if i < 8 then false else e.getLsbD (i - 8) := by
  rw [BitVec.getLsbD_append, BitVec.getLsbD_append, BitVec.getLsbD_append]
  have h8 : i - 5 - 3 = i - 8 := by omega
  have hlt : i - 5 < 3 ↔ i < 8 := by omega
  split_ifs <;> simp_all

/-- Every bit of PARAM (R29). -/
theorem paramWord_getLsbD (p : Params) (i : Nat) :
    (paramWord p).getLsbD i
      = if i < 5 then (BitVec.ofNat 5 p.w).getLsbD i else if i < 8 then false else (BitVec.ofNat 3 p.e).getLsbD (i - 8) :=
  paramLayout_getLsbD _ _ i

/-- Bits [4:0] of PARAM hold W. -/
theorem paramWord_w (p : Params) : (paramWord p).extractLsb' 0 5 = BitVec.ofNat 5 p.w := by
  apply BitVec.eq_of_getLsbD_eq
  intro i hi
  simp [paramWord_getLsbD, hi]

/-- Bits [10:8] of PARAM hold E. -/
theorem paramWord_e (p : Params) : (paramWord p).extractLsb' 8 3 = BitVec.ofNat 3 p.e := by
  apply BitVec.eq_of_getLsbD_eq
  intro i hi
  rw [BitVec.getLsbD_extractLsb', paramWord_getLsbD, if_neg (by omega), if_neg (by omega)]
  simp [hi]

/-- Bits [7:5] of PARAM are 0. -/
theorem paramWord_low_reserved (p : Params) : (paramWord p).extractLsb' 5 3 = 0#3 := by
  apply BitVec.eq_of_getLsbD_eq
  intro i hi
  rw [BitVec.getLsbD_extractLsb', paramWord_getLsbD, if_neg (by omega), if_pos (by omega)]
  simp

/-- Bits [31:11] of PARAM are 0. -/
theorem paramWord_high_reserved (p : Params) : (paramWord p).extractLsb' 11 21 = 0#21 := by
  apply BitVec.eq_of_getLsbD_eq
  intro i hi
  rw [BitVec.getLsbD_extractLsb', paramWord_getLsbD, if_neg (by omega), if_neg (by omega),
    BitVec.getLsbD_of_ge _ _ (by omega)]
  simp

/-- Legal values of W and E fit in their fields of PARAM (R8, R29). -/
theorem legal_toNat_fields {p : Params} (h : p.Legal) :
    (BitVec.ofNat 5 p.w).toNat = p.w ∧ (BitVec.ofNat 3 p.e).toNat = p.e := by
  obtain ⟨-, hw, -, he, -, -⟩ := h
  rw [BitVec.toNat_ofNat, BitVec.toNat_ofNat]
  omega

/-! ### Writes -/

@[simp] theorem writeReg_cmd_idle (s : State) (w : Word) (h : s.mode = .idle) : writeReg s .cmd w = startCommand s w := by
  simp [writeReg, h]

@[simp] theorem writeReg_cmd_busy (s : State) (w : Word) (h : s.mode = .busy) : writeReg s .cmd w = { s with ovr := true } := by
  simp [writeReg, h]

@[simp] theorem writeReg_status (s : State) (v : Word) : writeReg s .status v = writeStatus s v := rfl
@[simp] theorem writeReg_irqEn (s : State) (v : Word) : writeReg s .irqEn v = { s with doneIe := v.getLsbD 0 } := rfl
@[simp] theorem writeReg_srcAddr (s : State) (v : Word) : writeReg s .srcAddr v = { s with srcAddr := v } := rfl
@[simp] theorem writeReg_srcLen (s : State) (v : Word) : writeReg s .srcLen v = { s with srcLen := v } := rfl
@[simp] theorem writeReg_dstAddr (s : State) (v : Word) : writeReg s .dstAddr v = { s with dstAddr := v } := rfl
@[simp] theorem writeReg_dstCap (s : State) (v : Word) : writeReg s .dstCap v = { s with dstCap := v } := rfl

/-- A read-only register ignores a write (R26). -/
theorem writeReg_readOnly (s : State) (v : Word) {r : Reg}
    (h : r = .id ∨ r = .param ∨ r = .nodeCap ∨ r = .result ∨ r = .nextCw ∨ r = .nodeCount) : writeReg s r v = s := by
  rcases h with rfl | rfl | rfl | rfl | rfl | rfl <;> rfl

/-- A reserved offset names a register that ignores a write and reads 0 (R26). -/
theorem reserved_ignores_write_reads_zero (s : State) (v : Word) {o : Nat} {r : Reg} (h : o = 0x34 ∨ o = 0x38 ∨ o = 0x3C)
    (hr : regOfOffset o = some r) : writeReg s r v = s ∧ readReg s r = 0#32 := by
  rcases h with rfl | rfl | rfl <;> cases hr <;> exact ⟨rfl, rfl⟩

/-! ### What a step can do to the flags -/

/-- Two states agree on the engine's mode and latch, the flags of STATUS, RESULT and the trie. -/
structure SameFlags (s t : State) : Prop where
  mode : t.mode = s.mode
  latch : t.latch = s.latch
  done : t.done = s.done
  err : t.err = s.err
  dictFull : t.dictFull = s.dictFull
  ovr : t.ovr = s.ovr
  errcode : t.errcode = s.errcode
  result : t.result = s.result
  trie : t.trie = s.trie

theorem SameFlags.trans {s t u : State} (h : SameFlags s t) (k : SameFlags t u) : SameFlags s u :=
  ⟨k.mode.trans h.mode, k.latch.trans h.latch, k.done.trans h.done, k.err.trans h.err, k.dictFull.trans h.dictFull,
    k.ovr.trans h.ovr, k.errcode.trans h.errcode, k.result.trans h.result, k.trie.trans h.trie⟩

/-- A write to any register but CMD and STATUS leaves the flags alone. -/
theorem writeReg_sameFlags (s : State) (v : Word) {r : Reg} (hc : r ≠ .cmd) (hs : r ≠ .status) :
    SameFlags s (writeReg s r v) := by
  cases r with
  | cmd => exact absurd rfl hc
  | status => exact absurd rfl hs
  | _ => constructor <;> rfl

/-- The causes for which a step changes the flags (R23, R37, R44, R215, R216, R233, R270). `s'` is the state in which the host
moves, its operation and the turn used up. -/
inductive FlagStep (s t : State) : Prop where
  /-- The running command completed. -/
  | completed (hbusy : s.mode = .busy) (hidle : t.mode = .idle) (hdone : t.done = true) (hovr : t.ovr = s.ovr)
  /-- A CMD write started a command. -/
  | started (addr bits : Nat) (v : Word) (rest : List HostOp) (hprog : s.program = .write addr bits v :: rest)
      (hreg : regOfAccess s.platform addr bits = some .cmd) (s' : State) (hs' : SameFlags s s') (e : t = startCommand s' v)
  /-- A CMD write was dropped. -/
  | dropped (addr bits : Nat) (v : Word) (rest : List HostOp) (hprog : s.program = .write addr bits v :: rest)
      (hreg : regOfAccess s.platform addr bits = some .cmd) (hbusy : s.mode = .busy) (s' : State) (hs' : SameFlags s s')
      (e : t = { s' with ovr := true })
  /-- A STATUS write. -/
  | acknowledged (addr bits : Nat) (v : Word) (rest : List HostOp) (hprog : s.program = .write addr bits v :: rest)
      (hreg : regOfAccess s.platform addr bits = some .status) (s' : State) (hs' : SameFlags s s') (e : t = writeStatus s' v)
  /-- `rst` was asserted. -/
  | reset (rest : List HostOp) (hprog : s.program = .assertRst :: rest) (s' : State) (e : t = assertRst s')
  /-- No cause: the flags stay. -/
  | quiet (h : SameFlags s t)

/-- A register write that is carried out changes the flags for one of the named causes. -/
theorem flagStep_of_write {s s' : State} {addr bits : Nat} {v : Word} {rest : List HostOp} {r : Reg} (hs' : SameFlags s s')
    (hprog : s.program = .write addr bits v :: rest) (hreg : regOfAccess s.platform addr bits = some r) :
    FlagStep s (writeReg s' r v) := by
  by_cases hc : r = .cmd
  · subst hc
    cases hm : s.mode with
    | idle => exact .started addr bits v rest hprog hreg s' hs' (writeReg_cmd_idle s' v (hs'.mode.trans hm))
    | busy => exact .dropped addr bits v rest hprog hreg hm s' hs' (writeReg_cmd_busy s' v (hs'.mode.trans hm))
  by_cases hst : r = .status
  · subst hst
    exact .acknowledged addr bits v rest hprog hreg s' hs' (writeReg_status s' v)
  exact .quiet (hs'.trans (writeReg_sameFlags s' v hc hst))

/-- Every step changes the flags for one of the named causes, or not at all. -/
theorem step_flagStep {s t : State} (h : step s = .next t) : FlagStep s t := by
  cases step_form h with
  | ran i _ hen _ e =>
    have hid := exec_idle_done e
    exact .completed ((engineEnabled_iff s).1 hen).1 hid.1 hid.2 (exec_sameOutside e).ovr
  | illegal x _ hen _ e => subst e; exact .completed ((engineEnabled_iff s).1 hen).1 rfl rfl rfl
  | nothing e => subst e; exact .quiet (by constructor <;> rfl)
  | host op rest _ hprog f =>
    cases f with
    | wrote addr bits v r hop _ hreg e =>
      subst hop e
      exact flagStep_of_write (by constructor <;> rfl) hprog hreg
    | asserted hop e => subst hop; exact .reset rest hprog _ e
    | readReg _ _ _ _ _ _ e => subst e; exact .quiet (by constructor <;> rfl)
    | waiting _ _ _ e => subst e; exact .quiet (by constructor <;> rfl)
    | waited _ _ _ e => subst e; exact .quiet (by constructor <;> rfl)
    | wroteMem _ _ _ _ _ e => subst e; exact .quiet (by constructor <;> rfl)
    | readMem _ _ _ _ _ e => subst e; exact .quiet (by constructor <;> rfl)
    | deasserted _ e => subst e; exact .quiet (by constructor <;> rfl)

/-! ### Commands and the operand registers -/

/-- A command never reads the operand registers, and hands them on unchanged (R24). -/
theorem exec_operands {i : Instr} {s t : State} (a n d c : Word) (h : exec i s = .next t) :
    exec i { s with srcAddr := a, srcLen := n, dstAddr := d, dstCap := c }
      = .next { t with srcAddr := a, srcLen := n, dstAddr := d, dstCap := c } := by
  cases i with
  | nop => cases h; rfl
  | trieInit => cases h; rfl
  | trieDestroy => cases h; rfl
  | triePut => cases h; exact congrArg _ (conclude_operands s _ a n d c)
  | trieGet => cases h; exact congrArg _ (conclude_operands s _ a n d c)
  | compress => cases h; exact congrArg _ (conclude_operands s _ a n d c)
  | decompress => cases h; exact congrArg _ (conclude_operands s _ a n d c)

end Sys2Proof.Machine
end

section
/-! SUPPORT. The obligations of `10_state.md`, settled. -/

namespace Sys2Proof.Machine

/-- Settles O12: the trie invariants and the bound on NODE_CAP keep every value below 2^32. -/
theorem trieRegistersReadTheTrie : Obligations.TrieRegistersReadTheTrie := by
  intro s hp ht hidle
  obtain ⟨-, -, -, -, hpow, (hcap : _ < 4294967296)⟩ := hp
  have hnext := ht.nextHigh
  have hnodes := ht.cap
  refine ⟨rfl, Nat.mod_eq_of_lt hcap, ?_, ht.nextLow, hnext, ?_, hnodes⟩
  · rw [readReg_nextCw_idle s hidle]
    exact Nat.mod_eq_of_lt (by omega)
  · rw [readReg_nodeCount_idle s hidle]
    exact Nat.mod_eq_of_lt (by omega)

/-- Settles O15: the CMD write latches, and `exec_operands` says that a command does not look at the registers again. -/
theorem commandUsesOnlyLatchedOperands : Obligations.CommandUsesOnlyLatchedOperands := by
  refine ⟨fun s w hidle => ?_, fun i s a n d c => ?_⟩
  · rw [writeReg_cmd_idle s w hidle]
    exact ⟨rfl, rfl, rfl, rfl, rfl⟩
  · obtain ⟨t, ht, -⟩ := exec_form i s
    exact ⟨t, ht, exec_operands (s := s) a n d c ht⟩

/-- Settles O22, by the causes of a change of the flags: a dropped CMD write sets OVR, a STATUS write or `rst` clears it. -/
theorem ovrChangesOnlyAsStated : Obligations.OvrChangesOnlyAsStated := by
  intro s t h
  cases step_flagStep h with
  | completed _ _ _ hovr => exact ⟨fun h0 h1 => by simp [hovr, h0] at h1, fun h0 h1 => by simp [hovr, h0] at h1⟩
  | started _ _ _ _ _ _ s' hs' e =>
    subst e
    exact ⟨fun h0 h1 => by simp [hs'.ovr, h0] at h1, fun h0 h1 => by simp [hs'.ovr, h0] at h1⟩
  | dropped addr bits v rest hprog hreg hbusy s' _ e =>
    subst e
    exact ⟨fun _ _ => ⟨hbusy, addr, bits, v, rest, hprog, hreg⟩, fun _ h1 => (by cases h1)⟩
  | acknowledged addr bits v rest hprog hreg s' hs' e =>
    subst e
    refine ⟨fun h0 h1 => ?_, fun h0 h1 => .inl ⟨addr, bits, v, rest, hprog, hreg, ?_⟩⟩
    · simp [hs'.ovr, h0] at h1
    · simpa [hs'.ovr, h0] using h1
  | reset rest hprog s' e =>
    subst e
    exact ⟨fun _ h1 => (by cases h1), fun _ _ => .inr ⟨rest, hprog⟩⟩
  | quiet hq => exact ⟨fun h0 h1 => by simp [hq.ovr, h0] at h1, fun h0 h1 => by simp [hq.ovr, h0] at h1⟩

/-- Settles O23, by the causes of a change of the flags: only a completion and `rst` touch RESULT, only a start makes the core
BUSY. -/
theorem resultChangesOnlyAtCompletion : Obligations.ResultChangesOnlyAtCompletion := by
  intro s t h
  cases step_flagStep h with
  | completed hbusy hidle hdone _ =>
    exact ⟨fun _ => .inl ⟨hbusy, hidle, hdone⟩, fun h0 => by simp [hbusy] at h0⟩
  | started addr bits v rest hprog hreg s' hs' e =>
    subst e
    exact ⟨fun hr => absurd hs'.result hr, fun _ _ => ⟨addr, bits, v, rest, hprog, hreg, rfl⟩⟩
  | dropped _ _ _ _ _ _ hbusy s' hs' e =>
    subst e
    exact ⟨fun hr => absurd hs'.result hr, fun h0 => by simp [hbusy] at h0⟩
  | acknowledged _ _ _ _ _ _ s' hs' e =>
    subst e
    exact ⟨fun hr => absurd hs'.result hr, fun h0 h1 => by simp [hs'.mode, h0] at h1⟩
  | reset rest hprog s' e =>
    subst e
    exact ⟨fun _ => .inr ⟨rest, hprog⟩, fun _ h1 => (by cases h1)⟩
  | quiet hq => exact ⟨fun hr => absurd hq.result hr, fun h0 h1 => by simp [hq.mode, h0] at h1⟩

/-- Settles O8: a core under `rst` holds its reset values, and an idle one has no destination region to lose. -/
theorem resetGivesEveryRegisterItsValue : Obligations.ResetGivesEveryRegisterItsValue := by
  intro s
  refine ⟨assertRst s, rfl, rfl, rfl, rfl, statusWord_of_resetHeld (assertRst_held s), rfl, rfl, rfl, rfl, rfl, rfl, rfl, rfl,
    fun _ => rfl, rfl, rfl, rfl, rfl, fun hidle => ?_⟩
  simp [hidle]

/-- Settles O10, from the model's lemmas on the bits of STATUS. -/
theorem statusWordLayout : Obligations.StatusWordLayout := by
  intro s
  refine ⟨status_busy s, status_done s, status_err s, status_dictFull s, fun hidle => ?_, status_ovr s, status_errcode s,
    status_reserved s⟩
  rw [readReg_status, status_trieLive, trieLiveBit_idle s hidle]

/-- Settles O11: the fields of PARAM, and that no step changes the parameters. -/
theorem paramRegisterLayout : Obligations.ParamRegisterLayout := by
  intro s hp
  obtain ⟨hw, he⟩ := legal_toNat_fields hp
  refine ⟨?_, paramWord_low_reserved _, ?_, paramWord_high_reserved _, fun t h => ?_⟩
  · exact (congrArg _ (paramWord_w s.params)).trans hw
  · exact (congrArg _ (paramWord_e s.params)).trans he
  · exact congrArg paramWord (step_constants h).1

/-- Settles O16, register by register; IRQ_EN keeps bit 0 of the word. -/
theorem registerWritesByAccessType : Obligations.RegisterWritesByAccessType := by
  intro s v
  exact ⟨rfl, rfl, rfl, rfl, rfl, rfl, rfl, rfl, rfl, BitVec.and_one_eq_setWidth_ofBool_getLsbD.symm,
    fun _ hr => writeReg_readOnly s v hr,
    fun _ _ ho hr => reserved_ignores_write_reads_zero s v ho hr, rfl⟩

end Sys2Proof.Machine
end

section
/-! SUPPORT. System memory: what the host's own accesses do to it, and what a command leaves unchanged (`20_memory.md`). -/

namespace Sys2Proof.Machine

/-! ### The host's own accesses -/

/-- What was written stands in memory. -/
theorem Memory.holdsBytes_writeBytes (m : Memory) (x : Nat) (bs : Bytes) (h : m.wf) (hr : x + bs.length ≤ addressSpace) :
    HoldsBytes (m.writeBytes x bs) x bs :=
  fun i hi => Memory.read_writeBytes_in m x i bs h hi hr

/-- A write leaves every byte outside its own region. -/
theorem Memory.sameMemOutside_writeBytes (m : Memory) (x : Nat) (bs : Bytes) (h : m.wf) :
    SameMemOutside m (m.writeBytes x bs) (regionAt x bs.length) :=
  fun y hy => Memory.read_writeBytes_out m x y bs h (by simp only [regionAt] at hy; omega)

/-- A host write to ordinary memory: the ownership of the running command decides alone (R82, R281). -/
theorem hostMemWrite_ordinary (s : State) (addr : Nat) (bytes : Bytes)
    (hdev : touchesDevice s.platform (regionAt addr bytes.length) = false) (hin : addr + bytes.length ≤ addressSpace) :
    hostMemWrite s addr bytes =
      if busyBit s && (overlaps (regionAt addr bytes.length) (latchSrc s.params s.latch)
          || overlaps (regionAt addr bytes.length) (latchDst s.params s.latch)) then .refused .hostTouchesRegion
      else .next { s with mem := s.mem.writeBytes addr bytes } := by
  have hrange : inRange (regionAt addr bytes.length) = true := (inRange_iff _).2 hin
  simp [hostMemWrite, hrange, hdev]

/-- A host read of ordinary memory: the ownership of the running command decides alone (R82, R281). -/
theorem hostMemRead_ordinary (s : State) (addr n : Nat) (hdev : touchesDevice s.platform (regionAt addr n) = false)
    (hin : addr + n ≤ addressSpace) :
    hostMemRead s addr n =
      if busyBit s && overlaps (regionAt addr n) (latchDst s.params s.latch) then .refused .hostTouchesRegion
      else .next { s with observed := s.observed ++ [.mem addr (s.mem.readBytes addr n)] } := by
  have hrange : inRange (regionAt addr n) = true := (inRange_iff _).2 hin
  simp [hostMemRead, hrange, hdev]

/-! ### Commands -/

/-- A command changes no byte outside its destination region (R80, R236). -/
theorem exec_sameMemOutside_dst {i : Instr} {s t : State} (h : exec i s = .next t) (hp : s.params.Legal) (hm : s.mem.wf) :
    SameMemOutside s.mem t.mem (dstRegion s.params i s.latch) := by
  intro x hx
  cases exec_form_of h with
  | plain tr _ e => rw [e]; rfl
  | ran r hreg ok _ e =>
    rw [e]
    exact conclude_mem_frame s r hm ((ok hp).writes.trans (le_max_left _ _)) x (by rwa [hreg.2])

/-- A command changes no byte of its source region (R80, R236). -/
theorem exec_read_src {i : Instr} {s t : State} (h : exec i s = .next t) (hp : s.params.Legal) (hm : s.mem.wf) (x : Nat)
    (hx : inRegion (srcRegion s.params i s.latch) x = true) : t.mem.read x = s.mem.read x := by
  cases exec_form_of h with
  | plain tr _ e => rw [e]; rfl
  | ran r hreg ok _ e =>
    rw [e]
    exact conclude_mem_src s r hm (ok hp) x (by rwa [hreg.1])

end Sys2Proof.Machine
end

section
/-! SUPPORT. The obligations of `20_memory.md`, settled. -/

namespace Sys2Proof.Machine

/-- Settles O26: a completion stays in the run's destination region and spares its source region. -/
theorem commandsWriteOnlyTheirDestination : Obligations.CommandsWriteOnlyTheirDestination :=
  fun _ _ _ hp hm h => ⟨exec_sameMemOutside_dst h hp hm, exec_read_src h hp hm⟩

/-- Settles O20: the mode and the overlaps decide each access, and a write stores its bytes there and nowhere else. -/
theorem hostKeepsOutOfRunningRegions : Obligations.HostKeepsOutOfRunningRegions := by
  intro s addr bytes hdev hin
  have hwrite := hostMemWrite_ordinary s addr bytes hdev hin
  have hread := hostMemRead_ordinary s addr bytes.length hdev hin
  refine ⟨fun hbusy hmeets => ?_, fun hbusy hmeets => ?_, fun hfree => ?_, fun hfree => ?_⟩
  · refine hwrite.trans (if_pos ?_)
    simpa [hbusy] using hmeets
  · refine hread.trans (if_pos ?_)
    simpa [hbusy] using hmeets
  · refine hread.trans (if_neg ?_)
    rcases hfree with hidle | hdst
    · simp [hidle]
    · simp [hdst]
  · refine ⟨_, hwrite.trans (if_neg ?_), rfl, fun hm => ⟨Memory.holdsBytes_writeBytes _ _ _ hm hin,
      Memory.sameMemOutside_writeBytes _ _ _ hm, Memory.readBytes_writeBytes _ _ _ hm hin⟩⟩
    rcases hfree with hidle | ⟨hsrc, hdst⟩
    · simp [hidle]
    · simp [hsrc, hdst]

end Sys2Proof.Machine
end

section
/-! SUPPORT. Decoding a word by its number: the fields (R90), the rows of the opcode map (R91) and the words of no row (R92, R93). -/

namespace Sys2Proof

theorem rsvField_eq_zero_iff (w : Word) : rsvField w = 0 ↔ w.toNat < 256 := by
  have hsplit := rsv_opc_split w
  have hopc := (opcField w).isLt
  rw [← BitVec.toNat_inj, show (0 : BitVec 24).toNat = 0 from rfl]
  omega

theorem opcField_toNat_of_lt {w : Word} (h : w.toNat < 256) : (opcField w).toNat = w.toNat := by
  have hsplit := rsv_opc_split w
  omega

/-- The bytes that are in no row of the opcode map (R93). -/
theorem decodeOpc_eq_none_iff {b : Nat} (hb : b < 256) :
    decodeOpc b = none ↔ (0x05 ≤ b ∧ b ≤ 0x0F) ∨ (0x12 ≤ b ∧ b ≤ 0xFF) := by
  interval_cases b <;> decide

/-- A word with a reserved bit set is rejected, whatever its OPC. -/
theorem decodeWord_of_ge {w : Word} (h : 256 ≤ w.toNat) : decodeWord w = .error .reservedBits :=
  if_pos fun hz => absurd ((rsvField_eq_zero_iff w).1 hz) (by omega)

theorem decodeWord_of_row {w : Word} {i : Instr} (h : w.toNat < 256) (hrow : decodeOpc w.toNat = some i) :
    decodeWord w = .ok i := by
  simp [decodeWord, (rsvField_eq_zero_iff w).2 h, opcField_toNat_of_lt h, hrow]

theorem decodeWord_of_no_row {w : Word} (h : w.toNat < 256) (hrow : decodeOpc w.toNat = none) :
    decodeWord w = .error .unassignedOpcode := by
  simp [decodeWord, (rsvField_eq_zero_iff w).2 h, opcField_toNat_of_lt h, hrow]

/-- What the decoder can do with a word: reject it for its reserved bits or for its OPC, or read the command of its row. -/
theorem decodeWord_cases (w : Word) :
    (256 ≤ w.toNat ∧ decodeWord w = .error .reservedBits) ∨
      (w.toNat < 256 ∧ decodeOpc w.toNat = none ∧ decodeWord w = .error .unassignedOpcode) ∨
      ∃ i, w = encode i ∧ decodeWord w = .ok i := by
  rcases Nat.lt_or_ge w.toNat 256 with hlt | hge
  · cases hrow : decodeOpc w.toNat with
    | none => exact .inr (.inl ⟨hlt, rfl, decodeWord_of_no_row hlt hrow⟩)
    | some i =>
      have hword : encode i = w := BitVec.eq_of_toNat_eq ((decodeOpc_iff _ hlt i).1 hrow)
      exact .inr (.inr ⟨i, hword.symm, decodeWord_of_row hlt hrow⟩)
  · exact .inl ⟨hge, decodeWord_of_ge hge⟩

/-- Decode and encode agree (R91). -/
theorem decodeWord_eq_ok_iff (w : Word) (i : Instr) : decodeWord w = .ok i ↔ w = encode i := by
  constructor
  · intro hok
    rcases decodeWord_cases w with ⟨_, herr⟩ | ⟨_, _, herr⟩ | ⟨j, hword, hj⟩
    · cases herr.symm.trans hok
    · cases herr.symm.trans hok
    · cases hj.symm.trans hok
      exact hword
  · rintro rfl
    exact decode_encode i

theorem decodeWord_error_of_no_match {w : Word} (h : ¬∃ i, w = encode i) : ∃ x, decodeWord w = .error x := by
  rcases decodeWord_cases w with ⟨_, herr⟩ | ⟨_, _, herr⟩ | ⟨i, hword, _⟩
  · exact ⟨_, herr⟩
  · exact ⟨_, herr⟩
  · exact absurd ⟨i, hword⟩ h

/-- The illegal words: a reserved bit is set, or OPC is in no row (R93). -/
theorem decodeWord_error_iff (w : Word) :
    (∃ x, decodeWord w = .error x) ↔ 256 ≤ w.toNat ∨ (w.toNat < 256 ∧ decodeOpc w.toNat = none) := by
  constructor
  · rintro ⟨x, hx⟩
    rcases decodeWord_cases w with ⟨hge, _⟩ | ⟨hlt, hrow, _⟩ | ⟨i, _, hi⟩
    · exact .inl hge
    · exact .inr ⟨hlt, hrow⟩
    · cases hi.symm.trans hx
  · rintro (hge | ⟨hlt, hrow⟩)
    · exact ⟨_, decodeWord_of_ge hge⟩
    · exact ⟨_, decodeWord_of_no_row hlt hrow⟩

end Sys2Proof
end

section
/-! SUPPORT. The obligations of `30_encoding.md`, settled. -/

namespace Sys2Proof.Machine

/-- Settles O1, by `decodeWord_eq_ok_iff`: the match values of R91 are the words `encode` writes. -/
theorem commandSelectedExactlyByItsWord : Obligations.CommandSelectedExactlyByItsWord := fun w =>
  have h := decodeWord_eq_ok_iff w
  ⟨h, h .nop, h .trieInit, h .triePut, h .trieGet, h .trieDestroy, h .compress, h .decompress⟩

/-- Settles O3: `decode_encode` for the words of the rows, and the bytes of no row for the illegal ranges. -/
theorem illegalWordsAreTheUnassignedOnes : Obligations.IllegalWordsAreTheUnassignedOnes := by
  intro w
  refine ⟨fun i => (decodeWord_eq_ok_iff w i).2, decodeWord_error_of_no_match, (decodeWord_error_iff w).trans ?_⟩
  rcases Nat.lt_or_ge w.toNat 256 with hlt | hge
  · rw [decodeOpc_eq_none_iff hlt]
    simp [hlt]
  · simp [hge]

end Sys2Proof.Machine
end

section
/-! SUPPORT. The trie commands: what an insertion does to the codewords and the nodes, and how TRIE_PUT and TRIE_GET complete
(`40_trie.md`). -/

namespace Sys2Proof.Machine

/-! ### Completions, and what a command reads -/

/-- A run that stops at an operand check completes with that error (R236). -/
theorem conclude_stopRun (s : State) (c : ErrCode) (src dst : Region) (t : Trie) :
    FailedWith (conclude s (stopRun c src dst t)) c :=
  (conclude_of_error s _ c false (busVerdict_stopRun s c src dst t)).1

/-- A completion with an error leaves the trie of an error. -/
theorem conclude_trie_of_err (s : State) (r : Run) (h : (conclude s r).err = true) : (conclude s r).trie = r.trieErr := by
  cases hv : busVerdict s r with
  | finish v full => simp [(conclude_of_finish s r v full hv).1.err] at h
  | error c touched => exact (conclude_of_error s r c touched hv).2.2

/-- A success with an access that does not answer normally becomes BUS (R238). -/
theorem conclude_bus (s : State) (r : Run) {v : Nat} {full : Bool} (ha : accessesOk s.platform r = false)
    (hv : r.verdict = .finish v full) : FailedWith (conclude s r) .bus := by
  have hbus : busVerdict s r = .error .bus true := by simp [busVerdict, ha, hv]
  exact (conclude_of_error s r _ _ hbus).1

/-- Bus errors on a command's regions depend on what no command changes. -/
theorem busFreeFor_of_sameOutside {i : Instr} {s t : State} (h : SameOutside s t) (hb : BusFreeFor i s) : BusFreeFor i t := by
  simpa only [BusFreeFor, BusFree, h.params, h.platform, h.latch] using hb

/-- The empty key (R126). -/
theorem sourceBytes_eq_nil {s : State} (h : s.latch.n.toNat = 0) : sourceBytes s = [] := by
  rw [sourceBytes, h, Memory.readBytes]

/-! ### Insertion -/

/-- R118: a complete entry is found. -/
theorem trieInsert_of_entry (p : Params) {t : Trie} {k : Bytes} (h : t.cw k ≠ 0) :
    trieInsert p t k = (.present (t.cw k), t) := by
  simp [trieInsert, h]

/-- R119: a frozen dictionary takes no new entry. -/
theorem trieInsert_of_frozen {p : Params} {t : Trie} {k : Bytes} (h : t.cw k = 0) (hf : cwMax p < t.next) :
    trieInsert p t k = (.suppressed, t) := by
  simp [trieInsert, h, hf]

/-- R121: the missing nodes do not fit. -/
theorem trieInsert_of_noSpace {p : Params} {t : Trie} {k : Bytes} (h : t.cw k = 0) (hn : t.next ≤ cwMax p)
    (hc : p.nodeCap < t.nodes.length + (t.missing k).length) : trieInsert p t k = (.noSpace, t) := by
  simp [trieInsert, h, Nat.not_lt.2 hn, hc]

/-- R120: a new entry with room. -/
theorem trieInsert_of_room {p : Params} {t : Trie} {k : Bytes} (h : t.cw k = 0) (hn : t.next ≤ cwMax p)
    (hc : t.nodes.length + (t.missing k).length ≤ p.nodeCap) :
    trieInsert p t k = (.assigned t.next,
      { t with nodes := t.missing k ++ t.nodes, codes := (k, t.next) :: t.codes, next := t.next + 1 }) := by
  simp [trieInsert, h, Nat.not_lt.2 hn, Nat.not_lt.2 hc]

@[simp] theorem trieInsert_live (p : Params) (t : Trie) (k : Bytes) : (trieInsert p t k).2.live = t.live := by
  rcases trieInsert_cases p t k with ⟨-, e⟩ | ⟨-, -, e⟩ | ⟨-, -, -, e⟩ | ⟨-, -, -, e⟩ <;> rw [e]

/-- An insertion leaves every other string's codeword. -/
theorem trieInsert_cw_of_ne (p : Params) (t : Trie) {k q : Bytes} (h : q ≠ k) : (trieInsert p t k).2.cw q = t.cw q := by
  rcases trieInsert_cases p t k with ⟨-, e⟩ | ⟨-, -, e⟩ | ⟨-, -, -, e⟩ | ⟨-, -, -, e⟩ <;> rw [e]
  rw [cw_cons, if_neg h.symm]

/-- An insertion renumbers no complete entry (R132). -/
theorem trieInsert_keeps_entry (p : Params) (t : Trie) (k : Bytes) {q : Bytes} (h : t.cw q ≠ 0) :
    (trieInsert p t k).2.cw q = t.cw q := by
  by_cases hq : q = k
  · subst hq
    rw [trieInsert_of_entry p h]
  · exact trieInsert_cw_of_ne p t hq

/-- An insertion removes no node (R132). -/
theorem trieInsert_keeps_node (p : Params) (t : Trie) (k : Bytes) {q : Bytes} (h : q ∈ t.nodes) :
    q ∈ (trieInsert p t k).2.nodes := by
  rcases trieInsert_cases p t k with ⟨-, e⟩ | ⟨-, -, e⟩ | ⟨-, -, -, e⟩ | ⟨-, -, -, e⟩ <;> rw [e]
  · exact h
  · exact h
  · exact h
  · exact List.mem_append_right _ h

/-- The nodes after an insertion with room: the old ones and the nonempty beginnings of the key (R120). -/
theorem mem_missing_append (t : Trie) (k q : Bytes) :
    q ∈ t.missing k ++ t.nodes ↔ q ∈ t.nodes ∨ ∃ j, 1 ≤ j ∧ j ≤ k.length ∧ q = k.take j := by
  have hbeg : q ∈ beginnings k ↔ ∃ j, 1 ≤ j ∧ j ≤ k.length ∧ q = k.take j := by
    rw [mem_beginnings]
    constructor
    · rintro ⟨i, hi, e⟩
      exact ⟨i + 1, by omega, hi, e⟩
    · rintro ⟨j, hj, hjk, e⟩
      exact ⟨j - 1, by omega, by rw [e, Nat.sub_add_cancel hj]⟩
  rw [List.mem_append, mem_missing, ← hbeg]
  tauto

/-- The path of a node is complete: R54 (c). -/
theorem missing_eq_nil_of_node {p : Params} {t : Trie} {k : Bytes} (ht : TrieOk p t) (h : k ∈ t.nodes) :
    t.missing k = [] := by
  refine List.eq_nil_iff_forall_not_mem.2 fun q hq => ?_
  obtain ⟨hbeg, hnot⟩ := (mem_missing t k q).1 hq
  obtain ⟨i, -, rfl⟩ := (mem_beginnings k q).1 hbeg
  exact hnot (ht.closed k (i + 1) h)

/-- A string that is no node has no codeword (R52). -/
theorem cw_eq_zero_of_not_node {p : Params} {t : Trie} {k : Bytes} (ht : TrieOk p t) (h : k ∉ t.nodes) : t.cw k = 0 :=
  of_not_not fun hc => h (ht.entryIsNode k hc)

/-- The codeword of a complete entry is not lost in the 32 bits of RESULT. -/
theorem codeword_word_ne_zero {p : Params} {t : Trie} {k : Bytes} (hp : p.Legal) (ht : TrieOk p t) (h : t.cw k ≠ 0) :
    BitVec.ofNat 32 (t.cw k) ≠ 0#32 := by
  have hbelow := ht.below k
  have hhigh := ht.nextHigh
  have hsucc := cwMax_succ p
  have hmax := cwMax_lt p hp
  intro e
  have hmod : t.cw k % 2 ^ 32 = 0 := congrArg BitVec.toNat e
  omega

/-! ### TRIE_PUT -/

/-- How TRIE_PUT ends after each outcome of the insertion (R115). -/
def insertVerdict (o : InsertOutcome) : Verdict :=
  match o with
  | .present c => .finish c false
  | .suppressed => .finish 0 true
  | .noSpace => .error .trieFull false
  | .assigned c => .finish c false

/-- The codeword TRIE_PUT returns is the key's, and it is none only when the insertion was suppressed. -/
theorem trieInsert_cw_self {p : Params} {t : Trie} {k : Bytes} {v : Nat} (ht : TrieOk p t)
    (h : insertVerdict (trieInsert p t k).1 = .finish v false) : (trieInsert p t k).2.cw k = v ∧ v ≠ 0 := by
  rcases trieInsert_cases p t k with ⟨hk, e⟩ | ⟨-, -, e⟩ | ⟨-, -, -, e⟩ | ⟨-, -, -, e⟩ <;>
    rw [e] at h ⊢ <;> cases h
  · exact ⟨rfl, hk⟩
  · exact ⟨(cw_cons t _ k k t.next _).trans (if_pos rfl), Nat.one_le_iff_ne_zero.1 ht.nextLow⟩

/-- A TRIE_PUT whose operand checks pass, with a key free of bus errors (R115 to R117). -/
structure TriePutReady (s : State) : Prop where
  live : s.trie.live = true
  len : 1 ≤ s.latch.n.toNat
  range : s.latch.a.toNat + s.latch.n.toNat ≤ addressSpace
  bus : BusFreeFor .triePut s

theorem exec_triePut (s : State) : exec .triePut s = .next (conclude s (triePutRun s.params s.trie s.latch s.mem)) := rfl

/-- TRIE_PUT past its checks ends as the insertion of the key does, with the trie of the insertion. -/
theorem triePutRun_insert (s : State) (hl : s.trie.live = true) (hn : 1 ≤ s.latch.n.toNat)
    (hr : s.latch.a.toNat + s.latch.n.toNat ≤ addressSpace) :
    (triePutRun s.params s.trie s.latch s.mem).verdict = insertVerdict (trieInsert s.params s.trie (sourceBytes s)).1 ∧
      (triePutRun s.params s.trie s.latch s.mem).trieOk = (trieInsert s.params s.trie (sourceBytes s)).2 := by
  rw [triePutRun_read s hl hn hr]
  rcases trieInsert_cases s.params s.trie (sourceBytes s) with ⟨-, e⟩ | ⟨-, -, e⟩ | ⟨-, -, -, e⟩ | ⟨-, -, -, e⟩ <;>
    rw [e] <;> exact ⟨rfl, rfl⟩

theorem triePutRun_of_notLive (p : Params) {t : Trie} (l : Latch) (m : Memory) (h : t.live = false) :
    triePutRun p t l m = stopRun .trieNotLive (srcRegion p .triePut l) emptyRegion t := by
  simp [triePutRun, h]

theorem triePutRun_of_emptyKey (p : Params) {t : Trie} {l : Latch} (m : Memory) (h : t.live = true) (hn : l.n.toNat = 0) :
    triePutRun p t l m = stopRun .keyLen (srcRegion p .triePut l) emptyRegion t := by
  simp only [triePutRun, h, hn, Bool.not_true, Bool.false_eq_true, if_false, if_true]

theorem triePutRun_of_outOfRange (p : Params) {t : Trie} {l : Latch} (m : Memory) (h : t.live = true) (hn : l.n.toNat ≠ 0)
    (hr : addressSpace < l.a.toNat + l.n.toNat) :
    triePutRun p t l m = stopRun .range (srcRegion p .triePut l) emptyRegion t := by
  have hout : inRange (srcRegion p .triePut l) = false := decide_eq_false (Nat.not_le.2 hr)
  simp only [triePutRun, h, hn, hout, Bool.not_true, Bool.not_false, Bool.false_eq_true, if_false, if_true]

/-- The trie a TRIE_PUT leaves after a success is the old one or that of the insertion. -/
theorem triePutRun_trieOk_cases (s : State) :
    (triePutRun s.params s.trie s.latch s.mem).trieOk = s.trie ∨
      (triePutRun s.params s.trie s.latch s.mem).trieOk = (trieInsert s.params s.trie (sourceBytes s)).2 := by
  by_cases hl : s.trie.live = true
  · by_cases hn : s.latch.n.toNat = 0
    · exact .inl (by rw [triePutRun_of_emptyKey s.params s.mem hl hn]; rfl)
    · by_cases hr : s.latch.a.toNat + s.latch.n.toNat ≤ addressSpace
      · exact .inr (triePutRun_insert s hl (Nat.pos_of_ne_zero hn) hr).2
      · exact .inl (by rw [triePutRun_of_outOfRange s.params s.mem hl hn (Nat.not_le.1 hr)]; rfl)
  · exact .inl (by rw [triePutRun_of_notLive s.params s.latch s.mem (Bool.eq_false_iff.2 hl)]; rfl)

/-- TRIE_PUT writes no memory (R79). -/
theorem triePut_mem (s : State) : (conclude s (triePutRun s.params s.trie s.latch s.mem)).mem = s.mem := by
  obtain ⟨-, hdst, hwritten⟩ := triePutRun_regions s.params s.trie s.latch s.mem
  exact conclude_mem_noDst s _ hdst hwritten

/-- A ready TRIE_PUT meets no bus error: it ends as the insertion of its key. -/
theorem busVerdict_triePut {s : State} (h : TriePutReady s) :
    busVerdict s (triePutRun s.params s.trie s.latch s.mem) = insertVerdict (trieInsert s.params s.trie (sourceBytes s)).1 := by
  obtain ⟨hsrc, hdst, -⟩ := triePutRun_regions s.params s.trie s.latch s.mem
  exact (busVerdict_of_busFreeFor .triePut s _ h.bus (triePutRun_runOk _ _ _ _) hsrc hdst).trans
    (triePutRun_insert s h.live h.len h.range).1

/-- A ready TRIE_PUT whose insertion finds, assigns or suppresses a codeword succeeds (R118 to R120). -/
theorem exec_triePut_of_finish {s : State} {v : Nat} {full : Bool} (h : TriePutReady s)
    (hv : insertVerdict (trieInsert s.params s.trie (sourceBytes s)).1 = .finish v full) :
    ∃ t, exec .triePut s = .next t ∧ Succeeded t v full ∧ t.trie = (trieInsert s.params s.trie (sourceBytes s)).2 ∧
      t.mem = s.mem ∧ SameOutside s t := by
  obtain ⟨hok, -, htrie⟩ := conclude_of_finish s _ v full ((busVerdict_triePut h).trans hv)
  exact ⟨_, exec_triePut s, hok, htrie.trans (triePutRun_insert s h.live h.len h.range).2, triePut_mem s,
    conclude_sameOutside s _⟩

/-! ### TRIE_GET -/

theorem exec_trieGet (s : State) : exec .trieGet s = .next (conclude s (trieGetRun s.params s.trie s.latch s.mem)) := rfl

theorem trieGetRun_of_notLive (p : Params) {t : Trie} (l : Latch) (m : Memory) (h : t.live = false) :
    trieGetRun p t l m = stopRun .trieNotLive (srcRegion p .trieGet l) emptyRegion t := by
  simp [trieGetRun, h]

theorem trieGetRun_of_outOfRange (p : Params) {t : Trie} {l : Latch} (m : Memory) (h : t.live = true)
    (hr : addressSpace < l.a.toNat + l.n.toNat) :
    trieGetRun p t l m = stopRun .range (srcRegion p .trieGet l) emptyRegion t := by
  have hout : inRange (srcRegion p .trieGet l) = false := decide_eq_false (Nat.not_le.2 hr)
  simp only [trieGetRun, h, hout, Bool.not_true, Bool.not_false, Bool.false_eq_true, if_false, if_true]

/-- TRIE_GET never changes the trie (R126). -/
theorem trieGet_trie (s : State) : (conclude s (trieGetRun s.params s.trie s.latch s.mem)).trie = s.trie := by
  rcases conclude_trie s (trieGetRun s.params s.trie s.latch s.mem) with e | e <;> simp [e]

/-- TRIE_GET writes no memory (R79). -/
theorem trieGet_mem (s : State) : (conclude s (trieGetRun s.params s.trie s.latch s.mem)).mem = s.mem := by
  obtain ⟨-, hdst, hwritten⟩ := trieGetRun_regions s.params s.trie s.latch s.mem
  exact conclude_mem_noDst s _ hdst hwritten

/-- TRIE_GET past its checks reads its whole key. -/
theorem trieGet_accessesOk_iff (s : State) (hl : s.trie.live = true)
    (hr : s.latch.a.toNat + s.latch.n.toNat ≤ addressSpace) :
    accessesOk s.platform (trieGetRun s.params s.trie s.latch s.mem) = true ↔ BusFreeFor .trieGet s := by
  rw [trieGetRun_read s hl hr]
  exact accessesOk_iff _ _

/-- TRIE_GET past its checks, without bus errors, returns the key's codeword (R125, R126). -/
theorem exec_trieGet_of_busFree (s : State) (hl : s.trie.live = true)
    (hr : s.latch.a.toNat + s.latch.n.toNat ≤ addressSpace) (hb : BusFreeFor .trieGet s) :
    ∃ t, exec .trieGet s = .next t ∧ Succeeded t (s.trie.cw (sourceBytes s)) false ∧ t.trie = s.trie ∧ t.mem = s.mem ∧
      SameOutside s t := by
  have hv : busVerdict s (trieGetRun s.params s.trie s.latch s.mem) = .finish (s.trie.cw (sourceBytes s)) false := by
    rw [busVerdict_of_accessesOk s _ ((trieGet_accessesOk_iff s hl hr).2 hb), trieGetRun_read s hl hr]
  exact ⟨_, exec_trieGet s, (conclude_of_finish s _ _ _ hv).1, trieGet_trie s, trieGet_mem s, conclude_sameOutside s _⟩

/-! ### The trie after any command -/

/-- TRIE_INIT, TRIE_DESTROY and COMPRESS leave the fresh or the destroyed trie (R110, R130, R150). -/
theorem exec_trie_of_removing {i : Instr} {s t : State} (h : exec i s = .next t)
    (hi : i = .trieInit ∨ i = .trieDestroy ∨ i = .compress) : t.trie = Trie.fresh ∨ t.trie = Trie.destroyed := by
  rcases hi with rfl | rfl | rfl
  · cases h
    exact .inl rfl
  · cases h
    exact .inr rfl
  · cases h
    have htries := compressRun_tries s.params s.latch s.mem
    exact .inr ((conclude_trie s (compressRun s.params s.latch s.mem)).elim (·.trans htries.1) (·.trans htries.2))

/-- Every other command leaves the trie, or inserts the key of TRIE_PUT. -/
theorem exec_trie_of_keeping {i : Instr} {s t : State} (h : exec i s = .next t) (h1 : i ≠ .trieInit) (h2 : i ≠ .trieDestroy)
    (h3 : i ≠ .compress) : t.trie = s.trie ∨ t.trie = (trieInsert s.params s.trie (sourceBytes s)).2 := by
  cases i with
  | trieInit => exact absurd rfl h1
  | trieDestroy => exact absurd rfl h2
  | compress => exact absurd rfl h3
  | nop =>
    cases h
    exact .inl rfl
  | trieGet =>
    cases h
    exact .inl (trieGet_trie s)
  | decompress =>
    cases h
    have htries := decompressRun_tries s.params s.trie s.latch s.mem
    exact .inl ((conclude_trie s (decompressRun s.params s.trie s.latch s.mem)).elim (·.trans htries.1) (·.trans htries.2))
  | triePut =>
    cases h
    rcases conclude_trie s (triePutRun s.params s.trie s.latch s.mem) with e | e
    · exact (triePutRun_trieOk_cases s).imp e.trans e.trans
    · exact .inl (e.trans (triePutRun_trieErr _ _ _ _))

end Sys2Proof.Machine
end

section
/-! SUPPORT. The obligations of `40_trie.md`, settled. -/

namespace Sys2Proof.Machine

/-- Settles O33, by the insertion with room: the new entry shadows no other string, and the new nodes are the missing ones. -/
theorem triePutAssignsTheNextCodeword : Obligations.TriePutAssignsTheNextCodeword := by
  intro s _ ht hl hn hr hb hcw hnext hroom
  have e := trieInsert_of_room hcw hnext hroom
  obtain ⟨t, hexec, hok, htrie, hmem, hout⟩ := exec_triePut_of_finish ⟨hl, hn, hr, hb⟩ (congrArg (insertVerdict ·.1) e)
  have hothers : ∀ k, k ≠ sourceBytes s → t.trie.cw k = s.trie.cw k := fun k hk => by
    rw [htrie, trieInsert_cw_of_ne _ _ hk]
  rw [e] at htrie
  refine ⟨t, hexec, hok, by rw [htrie], ?_, hothers, fun k => ?_, fun hnode => ?_, by rw [htrie]; exact hl, hmem, hout⟩
  · rw [htrie, cw_cons, if_pos rfl]
  · rw [htrie]
    exact mem_missing_append s.trie (sourceBytes s) k
  · rw [htrie, missing_eq_nil_of_node ht hnode, List.nil_append]

/-- Settles O34: the insertion finds the entry before it looks at the counter. -/
theorem triePutOfAnEntryReturnsItsCodeword : Obligations.TriePutOfAnEntryReturnsItsCodeword := by
  intro s hl hn hr hb hcw
  have e := trieInsert_of_entry s.params hcw
  obtain ⟨t, hexec, hok, htrie, hframe⟩ := exec_triePut_of_finish ⟨hl, hn, hr, hb⟩ (congrArg (insertVerdict ·.1) e)
  exact ⟨t, hexec, hok, htrie.trans (by rw [e]), hframe⟩

/-- Settles O35: the insertion is suppressed, which TRIE_PUT reports as a success with DICT_FULL. -/
theorem triePutIntoAFrozenDictionary : Obligations.TriePutIntoAFrozenDictionary := by
  intro s hl hn hr hb hcw hfrozen
  have e := trieInsert_of_frozen hcw hfrozen
  obtain ⟨t, hexec, hok, htrie, hframe⟩ := exec_triePut_of_finish ⟨hl, hn, hr, hb⟩ (congrArg (insertVerdict ·.1) e)
  exact ⟨t, hexec, hok, htrie.trans (by rw [e]), hframe⟩

/-- Settles O36: each check that fails stops the run, and the insertion without room fails after them. -/
theorem triePutErrorsInOrder : Obligations.TriePutErrorsInOrder := by
  intro s _
  refine ⟨_, exec_triePut s, triePut_mem s, fun herr => ?_, ?_⟩
  · exact (conclude_trie_of_err s _ herr).trans (triePutRun_trieErr _ _ _ _)
  · split_ifs with hl hn hr
    · rw [triePutRun_of_notLive _ _ _ hl]
      exact conclude_stopRun _ _ _ _ _
    · rw [triePutRun_of_emptyKey _ _ (by simpa using hl) hn]
      exact conclude_stopRun _ _ _ _ _
    · rw [triePutRun_of_outOfRange _ _ (by simpa using hl) hn hr]
      exact conclude_stopRun _ _ _ _ _
    · intro hb hcw hnext hfull
      have hv := busVerdict_triePut ⟨by simpa using hl, Nat.pos_of_ne_zero hn, Nat.not_lt.1 hr, hb⟩
      rw [trieInsert_of_noSpace hcw hnext hfull] at hv
      exact (conclude_of_error s _ _ _ hv).1

/-- Settles O37: the lookup is exact, and under the invariants neither a string that is no node nor the root has a codeword. -/
theorem trieGetReturnsTheExactEntry : Obligations.TrieGetReturnsTheExactEntry := by
  refine ⟨fun s => ⟨_, exec_trieGet s, trieGet_trie s⟩, fun s ht hl hr hb => ?_⟩
  obtain ⟨t, hexec, hok, hframe⟩ := exec_trieGet_of_busFree s hl hr hb
  refine ⟨t, hexec, hok, fun hnode => ?_, fun hempty => ?_, hframe⟩
  · rw [hok.result, cw_eq_zero_of_not_node ht hnode]
  · rw [hok.result, sourceBytes_eq_nil hempty, ht.rootUnset]

/-- Settles O38: each check that fails stops the run, and past them the whole key is read. -/
theorem trieGetErrorsInOrder : Obligations.TrieGetErrorsInOrder := by
  intro s
  refine ⟨_, exec_trieGet s, trieGet_trie s, trieGet_mem s, ?_⟩
  split_ifs with hl hr
  · rw [trieGetRun_of_notLive _ _ _ hl]
    exact conclude_stopRun _ _ _ _ _
  · rw [trieGetRun_of_outOfRange _ _ (by simpa using hl) hr]
    exact conclude_stopRun _ _ _ _ _
  · intro hb
    have hlive : s.trie.live = true := by simpa using hl
    have hin := Nat.not_lt.1 hr
    have hbad := Bool.eq_false_iff.2 (mt (trieGet_accessesOk_iff s hlive hin).1 hb)
    exact conclude_bus s _ hbad (congrArg Run.verdict (trieGetRun_read s hlive hin))

/-- A TRIE_PUT without bus errors that succeeds passed its checks (R116, R117). -/
theorem triePutReady_of_success {s t : State} (hp : s.params.Legal) (hb : BusFreeFor .triePut s)
    (h : exec .triePut s = .next t) (herr : t.err = false) : TriePutReady s := by
  obtain ⟨t', h', -, -, hchecks⟩ := triePutErrorsInOrder s hp
  cases h.symm.trans h'
  have hnot : ∀ c, ¬FailedWith t c := fun c hc => by simp [hc.err] at herr
  split_ifs at hchecks with hl hn hr
  · exact absurd hchecks (hnot _)
  · exact absurd hchecks (hnot _)
  · exact absurd hchecks (hnot _)
  · exact ⟨by simpa using hl, Nat.pos_of_ne_zero hn, Nat.not_lt.1 hr, hb⟩

/-- What a TRIE_PUT that succeeds without DICT_FULL leaves: RESULT is the key's codeword in the trie of the insertion. -/
theorem triePut_success {s t : State} (hs : TriePutReady s) (ht : TrieOk s.params s.trie) (h : exec .triePut s = .next t)
    (herr : t.err = false) (hfull : t.dictFull = false) :
    t.trie = (trieInsert s.params s.trie (sourceBytes s)).2 ∧ t.mem = s.mem ∧ t.trie.cw (sourceBytes s) ≠ 0 ∧
      t.result = BitVec.ofNat 32 (t.trie.cw (sourceBytes s)) := by
  cases hv : insertVerdict (trieInsert s.params s.trie (sourceBytes s)).1 with
  | error c touched =>
    have hfail := (conclude_of_error s _ c touched ((busVerdict_triePut hs).trans hv)).1
    cases h
    simp [hfail.err] at herr
  | finish v full =>
    obtain ⟨t', h', hok, htrie, hmem, -⟩ := exec_triePut_of_finish hs hv
    cases h.symm.trans h'
    rw [← hok.dictFull, hfull] at hv
    obtain ⟨hcw, hne⟩ := trieInsert_cw_self ht hv
    rw [htrie, hcw]
    exact ⟨rfl, hmem, hne, hok.result⟩

/-- Settles O39: TRIE_GET finds in the trie of the insertion the codeword that TRIE_PUT returned. -/
theorem putThenGetFindsTheKey : Obligations.PutThenGetFindsTheKey := by
  intro s t hp ht hb h herr hfull
  have hs := triePutReady_of_success hp hb h herr
  obtain ⟨htrie, hmem, hne, hresult⟩ := triePut_success hs ht h herr hfull
  have hout := exec_sameOutside h
  have hkey : sourceBytes t = sourceBytes s := by rw [sourceBytes, sourceBytes, hmem, hout.latch]
  obtain ⟨u, hu, hok, -⟩ := exec_trieGet_of_busFree t (by rw [htrie, trieInsert_live, hs.live])
    (by rw [hout.latch]; exact hs.range) (busFreeFor_of_sameOutside (i := .trieGet) hout hb)
  have hures : u.result = t.result := by rw [hok.result, hkey, hresult]
  refine ⟨u, hu, hok.err, hures, ?_, fun k hk => by rw [htrie, trieInsert_cw_of_ne _ _ hk]⟩
  rw [hures, hresult]
  exact codeword_word_ne_zero hp (exec_trieOk h hp ht) hne

/-- Settles O40: the trie after a command is the old one, that of an insertion, the fresh one or the destroyed one. -/
theorem trieOnlyGrows : Obligations.TrieOnlyGrows := by
  refine fun i s t h => ⟨fun h1 h2 h3 => ?_, fun hi => ?_⟩
  · rcases exec_trie_of_keeping h h1 h2 h3 with e | e <;> rw [e]
    · exact ⟨fun _ _ => rfl, fun _ hk => hk⟩
    · exact ⟨fun _ hk => trieInsert_keeps_entry _ _ _ hk, fun _ hk => trieInsert_keeps_node _ _ _ hk⟩
  · rcases exec_trie_of_removing h hi with e | e <;> rw [e]
    · exact ⟨fun _ => rfl, fun _ hk => List.mem_singleton.1 hk⟩
    · exact ⟨fun _ => rfl, fun _ hk => (by cases hk)⟩

/-- Settles O31: the completion puts the fresh trie in place of whatever stood there. -/
theorem trieInitGivesAFreshTrie : Obligations.TrieInitGivesAFreshTrie := fun _ =>
  ⟨_, rfl, ⟨rfl, rfl, rfl, rfl, rfl, rfl⟩, rfl, rfl, fun _ => rfl, rfl, status_trieLive _, rfl, rfl, rfl,
    exec_sameOutside (i := .trieInit) rfl⟩

/-- Settles O32: the completion puts the destroyed trie in place of whatever stood there. -/
theorem trieDestroyEmptiesTheTrie : Obligations.TrieDestroyEmptiesTheTrie := fun _ =>
  ⟨_, rfl, ⟨rfl, rfl, rfl, rfl, rfl, rfl⟩, rfl, rfl, fun _ => rfl, rfl, status_trieLive _, rfl, rfl, rfl,
    exec_sameOutside (i := .trieDestroy) rfl⟩

end Sys2Proof.Machine
end

section
/-! SUPPORT. COMPRESS: the operand check at which it stops (R142), and what it writes when all of them pass (R148, `41_encoder.md`). -/

namespace Sys2Proof.Machine

theorem exec_compress (s : State) : exec .compress s = .next (conclude s (compressRun s.params s.latch s.mem)) := rfl

/-! ### The operand checks -/

/-- The RANGE check of a region fails when it ends past the address space (R79). -/
theorem not_inRange_iff (r : Region) : (!inRange r) = true ↔ addressSpace < r.hi := by
  rw [Bool.not_eq_true', Bool.eq_false_iff, ne_eq, inRange_iff, Nat.not_le]

/-- COMPRESS with these operands stops at an operand check with code `c`, whatever memory holds (R142). -/
def CompressStops (p : Params) (l : Latch) (c : ErrCode) : Prop :=
  ∀ m, compressRun p l m = stopRun c (srcRegion p .compress l) (dstRegion p .compress l) Trie.destroyed

/-- The operand checks in their order: the first that fails stops the run, and past them the command is ready (R142). -/
theorem compress_checks (s : State) :
    if addressSpace < s.latch.a.toNat + s.latch.n.toNat ∨ addressSpace < s.latch.d.toNat + s.latch.cap.toNat * s.params.e then
      CompressStops s.params s.latch .range
    else if overlaps (srcRegion s.params .compress s.latch) (dstRegion s.params .compress s.latch) = true then
      CompressStops s.params s.latch .overlap
    else if elemMax s.params < s.latch.n.toNat then CompressStops s.params s.latch .lenTooLarge
    else if s.latch.cap.toNat < max s.latch.n.toNat 1 + 1 then CompressStops s.params s.latch .dstCap
    else CompressReady s := by
  have hrange : (!inRange (srcRegion s.params .compress s.latch) || !inRange (dstRegion s.params .compress s.latch)) = true ↔
      addressSpace < s.latch.a.toNat + s.latch.n.toNat ∨
        addressSpace < s.latch.d.toNat + s.latch.cap.toNat * s.params.e := by
    rw [Bool.or_eq_true, not_inRange_iff, not_inRange_iff]
    rfl
  split_ifs with hout hover hlong hcap
  · exact fun m => if_pos (hrange.2 hout)
  · exact fun m => (if_neg (mt hrange.1 hout)).trans (if_pos hover)
  · exact fun m => (if_neg (mt hrange.1 hout)).trans ((if_neg hover).trans (if_pos hlong))
  · exact fun m => (if_neg (mt hrange.1 hout)).trans ((if_neg hover).trans ((if_neg hlong).trans (if_pos hcap)))
  · obtain ⟨hsrc, hdst⟩ := not_or.1 hout
    exact ⟨Nat.not_lt.1 hsrc, Nat.not_lt.1 hdst, Bool.eq_false_iff.2 hover, Nat.not_lt.1 hlong, Nat.not_lt.1 hcap⟩

/-- A COMPRESS that is not ready stops at one of its checks. -/
theorem compressStops_of_not_ready {s : State} (h : ¬CompressReady s) : ∃ c, CompressStops s.params s.latch c := by
  have hchecks := compress_checks s
  split_ifs at hchecks
  · exact ⟨_, hchecks⟩
  · exact ⟨_, hchecks⟩
  · exact ⟨_, hchecks⟩
  · exact ⟨_, hchecks⟩
  · exact absurd hchecks h

/-- A failing check writes no memory and leaves the trie destroyed (R142, R150). -/
theorem CompressStops.outcome {s t : State} {c : ErrCode} (h : CompressStops s.params s.latch c)
    (ht : exec .compress s = .next t) : FailedWith t c ∧ t.mem = s.mem ∧ t.trie = Trie.destroyed := by
  rw [exec_compress, h s.mem] at ht
  cases ht
  exact conclude_of_error s _ c false (busVerdict_stopRun s c _ _ _)

/-- A completion at an operand check carries memory through. -/
theorem conclude_stopRun_any_mem (s : State) (m : Memory) (c : ErrCode) (src dst : Region) (tr : Trie) :
    conclude { s with mem := m } (stopRun c src dst tr) = { conclude s (stopRun c src dst tr) with mem := m } := by
  simp only [conclude, busVerdict_stopRun]
  rfl

/-- A failing check reads no memory (R142). -/
theorem CompressStops.any_mem {s t : State} {c : ErrCode} (h : CompressStops s.params s.latch c)
    (ht : exec .compress s = .next t) (m : Memory) : exec .compress { s with mem := m } = .next { t with mem := m } := by
  rw [exec_compress, h s.mem] at ht
  cases ht
  rw [exec_compress, h m, conclude_stopRun_any_mem]

/-! ### The trie -/

/-- COMPRESS leaves the trie destroyed in every outcome (R150). -/
theorem exec_compress_trie {s t : State} (ht : exec .compress s = .next t) : t.trie = Trie.destroyed := by
  obtain ⟨hok, herr⟩ := compressRun_tries s.params s.latch s.mem
  cases ht
  exact (conclude_trie s (compressRun s.params s.latch s.mem)).elim (·.trans hok) (·.trans herr)

/-- COMPRESS neither reads the trie nor keeps it (R141). -/
theorem exec_compress_any_trie (s : State) (tr : Trie) : exec .compress { s with trie := tr } = exec .compress s := by
  rw [exec_compress, exec_compress, conclude_any_trie]

/-! ### What a COMPRESS writes -/

@[simp] theorem sourceBytes_length (s : State) : (sourceBytes s).length = s.latch.n.toNat := Memory.readBytes_length _ _ _

/-- The stream of a ready COMPRESS fits its destination (R144, R152). -/
theorem encodedStream_le_cap {s : State} (hp : s.params.Legal) (h : CompressReady s) :
    (encodedStream s.params (sourceBytes s)).length ≤ s.latch.cap.toNat := by
  have hlen := (encodedStream_length s.params hp (sourceBytes s)).2
  rw [sourceBytes_length] at hlen
  exact hlen.trans h.cap

/-- The stream of a ready COMPRESS ends inside the address space. -/
theorem streamBytes_in_range {s : State} (hp : s.params.Legal) (h : CompressReady s) :
    s.latch.d.toNat + (streamBytes s.params (encodedStream s.params (sourceBytes s))).length ≤ addressSpace := by
  rw [streamBytes_length]
  exact (Nat.add_le_add_left (Nat.mul_le_mul_right _ (encodedStream_le_cap hp h)) _).trans h.dst

/-- A ready COMPRESS without bus errors succeeds and writes its stream (R148). -/
theorem exec_compress_of_ready {s t : State} (ht : exec .compress s = .next t) (hp : s.params.Legal) (h : CompressReady s)
    (hb : BusFreeFor .compress s) :
    Succeeded t (encodedStream s.params (sourceBytes s)).length (encoderScan s.params (sourceBytes s)).dictFull ∧
      t.mem = s.mem.writeBytes s.latch.d.toNat (streamBytes s.params (encodedStream s.params (sourceBytes s))) := by
  obtain ⟨hsrc, hdst⟩ := compressRun_regions s.params s.latch s.mem
  have hv := busVerdict_of_busFreeFor .compress s _ hb (compressRun_runOk s.params hp s.latch s.mem) hsrc hdst
  cases ht
  rw [compressRun_ready s h] at hv ⊢
  obtain ⟨hok, hmem, -⟩ := conclude_of_finish s _ _ _ hv
  exact ⟨hok, hmem⟩

/-- A stream that was written reads back element by element, when its values fit their elements (R74, R75). -/
theorem elem_writeBytes_streamBytes {m : Memory} {p : Params} {base : Nat} {elems : List Nat} (hm : m.wf)
    (hr : base + (streamBytes p elems).length ≤ addressSpace) (hfit : ∀ v ∈ elems, v < 256 ^ p.e) {i : Nat}
    (hi : i < elems.length) : (m.writeBytes base (streamBytes p elems)).elem p base i = elems.getD i 0 := by
  rw [elem_of_holds _ p base elems i hi (Memory.holdsBytes_writeBytes m base _ hm hr), List.getD_eq_getElem _ _ hi]
  exact Nat.mod_eq_of_lt (hfit _ (List.getElem_mem hi))

end Sys2Proof.Machine
end

section
/-! SUPPORT. The obligations of `41_encoder.md`, settled. -/

namespace Sys2Proof.Machine

/-- Settles O41: the first check that fails stops the run, which then makes no access to memory. -/
theorem compressOperandChecksInOrder : Obligations.CompressOperandChecksInOrder := by
  intro s
  obtain ⟨t, ht, -⟩ := exec_form .compress s
  refine ⟨t, ht, fun hnot m => ?_, ?_⟩
  · obtain ⟨c, hstops⟩ := compressStops_of_not_ready hnot
    exact hstops.any_mem ht m
  · have hchecks := compress_checks s
    split_ifs at hchecks ⊢
    · exact hchecks.outcome ht
    · exact hchecks.outcome ht
    · exact hchecks.outcome ht
    · exact hchecks.outcome ht
    · exact hchecks

/-- Settles O42: the bytes written are those of the stream, whose length the capacity bounds and whose values fit their elements. -/
theorem compressWritesHeaderAndCodewords : Obligations.CompressWritesHeaderAndCodewords := by
  intro s hp hm hready hbus
  obtain ⟨t, ht, -⟩ := exec_form .compress s
  obtain ⟨hok, hmem⟩ := exec_compress_of_ready ht hp hready hbus
  have hlen : (encodedStream s.params (sourceBytes s)).length = 1 + (emitted (encoderScan s.params (sourceBytes s))).length :=
    Nat.add_comm _ _
  have hresult : t.result.toNat = (encodedStream s.params (sourceBytes s)).length := by
    rw [hok.result, BitVec.toNat_ofNat]
    exact Nat.mod_eq_of_lt ((encodedStream_le_cap hp hready).trans_lt s.latch.cap.isLt)
  have helem : ∀ i, i < (encodedStream s.params (sourceBytes s)).length →
      t.mem.elem s.params s.latch.d.toNat i = (encodedStream s.params (sourceBytes s)).getD i 0 := fun i hi => by
    rw [hmem]
    exact elem_writeBytes_streamBytes hm (streamBytes_in_range hp hready)
      (encodedStream_fits s.params hp _ ((sourceBytes_length s).trans_le hready.len)) hi
  refine ⟨t, ht, hlen ▸ hok, hresult.trans hlen, ?_, fun k hk => ?_, ?_, exec_compress_trie ht, exec_sameOutside ht⟩
  · exact (helem 0 (by omega)).trans (sourceBytes_length s)
  · exact helem (k + 1) (by omega)
  · rw [hresult, hmem, ← streamBytes_length]
    exact Memory.sameMemOutside_writeBytes _ _ _ hm

/-- Settles O48: the run does not read the trie, and the completion puts the destroyed trie in its place. -/
theorem compressIgnoresTheTrie : Obligations.CompressIgnoresTheTrie := by
  intro s tr
  obtain ⟨t, ht, -⟩ := exec_form .compress s
  refine ⟨t, ht, (exec_compress_any_trie s tr).trans ht, ?_⟩
  rw [exec_compress_trie ht]
  exact ⟨rfl, rfl, fun _ => rfl, rfl⟩

end Sys2Proof.Machine
end

section
/-! SUPPORT. DECOMPRESS: the operand check at which it stops (R171, R172), how its decoding goes, stream by stream (R173 to R178),
and how it completes (R184 to R186, R192, `42_decoder.md`). -/

namespace Sys2Proof.Machine

theorem exec_decompress (s : State) :
    exec .decompress s = .next (conclude s (decompressRun s.params s.trie s.latch s.mem)) := rfl

/-! ### The operand checks -/

/-- DECOMPRESS with these operands stops at an operand check with code `c`, whatever the trie and memory hold (R171, R172). -/
def DecompressStops (p : Params) (l : Latch) (c : ErrCode) : Prop :=
  ∀ tr m, decompressRun p tr l m = stopRun c (srcRegion p .decompress l) (dstRegion p .decompress l) tr

/-- The operand checks in their order: the first that fails stops the run, and past them the command is ready (R171, R172). -/
theorem decompress_checks (s : State) :
    if addressSpace < s.latch.a.toNat + s.latch.n.toNat * s.params.e ∨ addressSpace < s.latch.d.toNat + s.latch.cap.toNat then
      DecompressStops s.params s.latch .range
    else if overlaps (srcRegion s.params .decompress s.latch) (dstRegion s.params .decompress s.latch) = true then
      DecompressStops s.params s.latch .overlap
    else if s.latch.n.toNat = 0 then DecompressStops s.params s.latch .corrupt
    else DecompressReady s := by
  have hrange : (!inRange (srcRegion s.params .decompress s.latch) || !inRange (dstRegion s.params .decompress s.latch)) = true ↔
      addressSpace < s.latch.a.toNat + s.latch.n.toNat * s.params.e ∨
        addressSpace < s.latch.d.toNat + s.latch.cap.toNat := by
    rw [Bool.or_eq_true, not_inRange_iff, not_inRange_iff]
    rfl
  split_ifs with hout hover hempty
  · exact fun tr m => if_pos (hrange.2 hout)
  · exact fun tr m => (if_neg (mt hrange.1 hout)).trans (if_pos hover)
  · exact fun tr m => (if_neg (mt hrange.1 hout)).trans ((if_neg hover).trans (if_pos hempty))
  · obtain ⟨hsrc, hdst⟩ := not_or.1 hout
    exact ⟨Nat.not_lt.1 hsrc, Nat.not_lt.1 hdst, Bool.eq_false_iff.2 hover, Nat.pos_of_ne_zero hempty⟩

/-- A DECOMPRESS that is not ready stops at one of its checks. -/
theorem decompressStops_of_not_ready {s : State} (h : ¬DecompressReady s) : ∃ c, DecompressStops s.params s.latch c := by
  have hchecks := decompress_checks s
  split_ifs at hchecks
  · exact ⟨_, hchecks⟩
  · exact ⟨_, hchecks⟩
  · exact ⟨_, hchecks⟩
  · exact absurd hchecks h

/-- A failing check writes no memory (R171). -/
theorem DecompressStops.outcome {s t : State} {c : ErrCode} (h : DecompressStops s.params s.latch c)
    (ht : exec .decompress s = .next t) : FailedWith t c ∧ t.mem = s.mem := by
  rw [exec_decompress, h s.trie s.mem] at ht
  cases ht
  obtain ⟨hfail, hmem, -⟩ := conclude_of_error s _ c false (busVerdict_stopRun s c _ _ _)
  exact ⟨hfail, hmem⟩

/-- A failing check reads no memory (R171). -/
theorem DecompressStops.any_mem {s t : State} {c : ErrCode} (h : DecompressStops s.params s.latch c)
    (ht : exec .decompress s = .next t) (m : Memory) : exec .decompress { s with mem := m } = .next { t with mem := m } := by
  rw [exec_decompress, h s.trie s.mem] at ht
  cases ht
  rw [exec_decompress, h s.trie m, conclude_stopRun_any_mem]

/-! ### One subsequent codeword -/

/-- R179, R182: a codeword that stands for no string. -/
theorem decoderElem_of_corrupt {p : Params} {w : DecoderWork} {cw : Nat} (h : Nat)
    (hcw : cw = 0 ∨ cwMax p < cw ∨ w.nextFree < cw) : decoderElem p h w cw = .error .corrupt := by
  rcases resolve_cases p w cw with ⟨-, e⟩ | ⟨hpos, hmax, hknown, -⟩ | ⟨hpos, hmax, hnext, -⟩
  · rw [decoderElem, e]
  · omega
  · omega

/-- R180: the known case. -/
theorem resolve_of_known {p : Params} {w : DecoderWork} {cw : Nat} (hpos : 1 ≤ cw) (hmax : cw ≤ cwMax p) (hcw : cw < w.nextFree) :
    resolve p w cw = .ok (dictGet w.dict cw, dictGet w.dict w.prev ++ [firstByte (dictGet w.dict cw)], cw) := by
  rcases resolve_cases p w cw with ⟨hbad, -⟩ | ⟨-, -, -, e⟩ | ⟨-, -, hnext, -⟩
  · omega
  · exact e
  · omega

/-- R181: the unknown case. -/
theorem resolve_of_next {p : Params} {w : DecoderWork} {cw : Nat} (hpos : 1 ≤ cw) (hmax : cw ≤ cwMax p) (hcw : cw = w.nextFree) :
    resolve p w cw = .ok (dictGet w.dict w.last ++ [firstByte (dictGet w.dict w.last)],
      dictGet w.dict w.last ++ [firstByte (dictGet w.dict w.last)], cw) := by
  rcases resolve_cases p w cw with ⟨hbad, -⟩ | ⟨-, -, hknown, -⟩ | ⟨-, -, -, e⟩
  · omega
  · omega
  · rw [e, hcw]

/-- R184: a string that would pass the header. -/
theorem decoderElem_of_long {p : Params} {h cw : Nat} {w : DecoderWork} {s pending : Bytes} {last : Nat}
    (hr : resolve p w cw = .ok (s, pending, last)) (hlong : h < w.output.length + s.length) :
    decoderElem p h w cw = .error .length := by
  rcases emit_cases h { w with last := last } s with ⟨-, he⟩ | ⟨hle, -⟩
  · simp only [decoderElem, hr, he]
  · exact absurd hle (Nat.not_le.2 hlong)

/-- R183: with room the pending entry is stored at `nextFree`. -/
theorem appendEntry_of_room {p : Params} {w : DecoderWork} (hroom : w.nextFree ≤ cwMax p) (pending : Bytes) :
    appendEntry p w pending = { w with dict := (w.nextFree, pending) :: w.dict, nextFree := w.nextFree + 1 } := if_pos hroom

/-- R183: a frozen dictionary takes no entry. -/
theorem appendEntry_of_frozen {p : Params} {w : DecoderWork} (hfrozen : cwMax p < w.nextFree) (pending : Bytes) :
    appendEntry p w pending = { w with dictFull := true } := if_neg (Nat.not_le.2 hfrozen)

/-- What an accepted known codeword leaves (R180, R183). -/
theorem decoderElem_of_known {p : Params} {h cw : Nat} {w : DecoderWork} (hpos : 1 ≤ cw) (hmax : cw ≤ cwMax p)
    (hcw : cw < w.nextFree) (hfit : w.output.length + (dictGet w.dict cw).length ≤ h) :
    ∃ w', decoderElem p h w cw = .ok w' ∧ w'.output = w.output ++ dictGet w.dict cw ∧ w'.last = cw ∧ w'.prev = cw ∧
      (w.nextFree ≤ cwMax p → w'.nextFree = w.nextFree + 1 ∧ w'.dictFull = w.dictFull ∧
        dictGet w'.dict w.nextFree = dictGet w.dict w.prev ++ [firstByte (dictGet w.dict cw)]) ∧
      (cwMax p < w.nextFree → w'.dict = w.dict ∧ w'.nextFree = w.nextFree ∧ w'.dictFull = true) := by
  refine ⟨_, decoderElem_of_resolve (resolve_of_known hpos hmax hcw) hfit, appendEntry_output _ _ _, appendEntry_last _ _ _, rfl,
    fun hroom => ?_, fun hfrozen => ?_⟩
  · simp [appendEntry_of_room, hroom, dictGet_cons]
  · simp [appendEntry_of_frozen, hfrozen]

/-- What an accepted next codeword leaves (R181, R183). -/
theorem decoderElem_of_next {p : Params} {h cw : Nat} {w : DecoderWork} (hcw : cw = w.nextFree) (hpos : 1 ≤ cw)
    (hmax : cw ≤ cwMax p) (hfit : w.output.length + (dictGet w.dict w.last).length + 1 ≤ h) :
    ∃ w', decoderElem p h w cw = .ok w' ∧
      w'.output = w.output ++ (dictGet w.dict w.last ++ [firstByte (dictGet w.dict w.last)]) ∧ w'.last = cw ∧
      w'.prev = cw ∧ w'.nextFree = w.nextFree + 1 ∧ w'.dictFull = w.dictFull ∧
      dictGet w'.dict cw = dictGet w.dict w.last ++ [firstByte (dictGet w.dict w.last)] := by
  refine ⟨_, decoderElem_of_resolve (resolve_of_next hpos hmax hcw) (by simpa [Nat.add_assoc] using hfit),
    appendEntry_output _ _ _, appendEntry_last _ _ _, rfl, ?_⟩
  subst hcw
  simp [appendEntry_of_room, hmax, dictGet_cons]

/-! ### The decoding, stream by stream -/

theorem decoded_of_header_above_cap {s : State} (h : s.latch.cap.toNat < sourceElem s 0) :
    decoded s = ⟨.error .dstCap false, 1, []⟩ := if_pos h

theorem decoded_of_header_only {s : State} (hn : s.latch.n.toNat = 1) (hcap : sourceElem s 0 ≤ s.latch.cap.toNat) :
    decoded s = if sourceElem s 0 = 0 then ⟨.finish 0 false, 1, []⟩ else ⟨.error .length true, 1, []⟩ :=
  (if_neg (Nat.not_lt.2 hcap)).trans (if_pos hn)

/-- R175: the stream [0, 0]. -/
theorem decoded_of_empty_output {s : State} (hn : s.latch.n.toNat = 2) (h0 : sourceElem s 0 = 0) (h1 : sourceElem s 1 = 0) :
    decoded s = ⟨.finish 0 false, 2, []⟩ :=
  (if_neg (by omega)).trans ((if_neg (by omega)).trans (if_pos ⟨h0, hn, h1⟩))

/-- A stream other than [0, 0] whose first codeword is rejected ends there (R177). -/
theorem decoded_of_first_rejected {s : State} {c : ErrCode} (hn : 2 ≤ s.latch.n.toNat)
    (hcap : sourceElem s 0 ≤ s.latch.cap.toNat)
    (hother : ¬(s.latch.n.toNat = 2 ∧ sourceElem s 0 = 0 ∧ sourceElem s 1 = 0))
    (hf : decoderFirst (sourceElem s 0) (sourceElem s 1) = .error c) : decoded s = ⟨.error c true, 2, []⟩ := by
  simp only [decoded, decodeStream, decoderBody, hf]
  rw [if_neg (Nat.not_lt.2 hcap), if_neg (by omega), if_neg (by tauto)]

/-- The first rejected element after the first codeword ends the decoding (R178). -/
theorem decoded_of_rejected {s : State} {v0 v : DecoderWork} {i : Nat} {c : ErrCode} (hn : 2 ≤ s.latch.n.toNat)
    (hcap : sourceElem s 0 ≤ s.latch.cap.toNat) (hf : decoderFirst (sourceElem s 0) (sourceElem s 1) = .ok v0) (hi : 2 ≤ i)
    (hin : i < s.latch.n.toNat) (hv : (elementsFrom s 2 i).foldlM (decoderElem s.params (sourceElem s 0)) v0 = .ok v)
    (hc : decoderElem s.params (sourceElem s 0) v (sourceElem s i) = .error c) :
    decoded s = ⟨.error c true, i + 1, v.output⟩ := by
  have hlen : 2 + (elementsFrom s 2 i).length = i := by rw [elementsFrom_length]; omega
  rw [decoded_of_first s v0 hn hcap hf, decoderLoop_stop _ _ _ (elementsFrom s 2 i) _ 2 v0 v c (by omega)
    (elementsFrom_getD s 2 i) hv (by rw [hlen, hc]), hlen]

/-- A stream whose elements are all accepted ends with the check of the length (R185). -/
theorem decoded_of_accepted {s : State} {v0 v : DecoderWork} (hn : 2 ≤ s.latch.n.toNat)
    (hcap : sourceElem s 0 ≤ s.latch.cap.toNat) (hf : decoderFirst (sourceElem s 0) (sourceElem s 1) = .ok v0)
    (hv : (elementsFrom s 2 s.latch.n.toNat).foldlM (decoderElem s.params (sourceElem s 0)) v0 = .ok v) :
    decoded s = if v.output.length ≠ sourceElem s 0 then ⟨.error .length true, s.latch.n.toNat, v.output⟩
      else ⟨.finish v.output.length v.dictFull, s.latch.n.toNat, v.output⟩ := by
  have hloop := decoderLoop_eq s.params _ (sourceElem s) _ 2 v0 v (elementsFrom_getD s 2 s.latch.n.toNat) hv
  rw [elementsFrom_length, Nat.add_sub_cancel' hn] at hloop
  rw [decoded_of_first s v0 hn hcap hf, hloop]

/-! ### The completion -/

/-- A decoding that ends with an error is how the command ends, when its accesses answer normally (R236, R238). -/
theorem exec_decompress_of_error {s t : State} {c : ErrCode} {touched : Bool} {k : Nat} {out : Bytes}
    (ht : exec .decompress s = .next t) (h : DecompressReady s) (hd : decoded s = ⟨.error c touched, k, out⟩)
    (hr : ElementsReadable s k) (hw : OutputWritable s out.length) :
    FailedWith t c ∧ (touched = false → t.mem = s.mem) := by
  have hv := decompress_verdict_of_readable s h (by rwa [hd]) (by rwa [hd])
  rw [hd] at hv
  cases ht
  obtain ⟨hfail, hmem, -⟩ := conclude_of_error s _ c touched hv
  exact ⟨hfail, fun hu => by simpa [hu] using hmem⟩

/-- A decoding that succeeds is how the command ends, when its accesses answer normally: its output is written (R185, R186). -/
theorem exec_decompress_of_finish {s t : State} {v k : Nat} {full : Bool} {out : Bytes}
    (ht : exec .decompress s = .next t) (h : DecompressReady s) (hd : decoded s = ⟨.finish v full, k, out⟩)
    (hr : ElementsReadable s k) (hw : OutputWritable s out.length) :
    Succeeded t v full ∧ t.mem = s.mem.writeBytes s.latch.d.toNat out := by
  have hv := decompress_verdict_of_readable s h (by rwa [hd]) (by rwa [hd])
  rw [hd] at hv
  cases ht
  obtain ⟨hok, hmem, -⟩ := conclude_of_finish s _ v full hv
  refine ⟨hok, hmem.trans ?_⟩
  rw [decompressRun_ready s h]
  exact congrArg (Memory.writeBytes _ _) (congrArg Decoded.output hd)

/-- A decoding that succeeds returns the header, which is the number of bytes it output and fits the capacity (R173, R185). -/
theorem decoded_finish_header {s : State} {v k : Nat} {full : Bool} {out : Bytes} (h : DecompressReady s)
    (hd : decoded s = ⟨.finish v full, k, out⟩) :
    v = sourceElem s 0 ∧ out.length = sourceElem s 0 ∧ sourceElem s 0 ≤ s.latch.cap.toNat ∧ k = s.latch.n.toNat := by
  obtain ⟨-, -, -, hfinish, -⟩ := decodeStream_bounds s.params s.latch.cap.toNat (sourceElem s) s.latch.n.toNat h.len
  rw [← decoded, hd] at hfinish
  exact hfinish v full rfl

/-- RESULT of a success whose value fits the capacity. -/
theorem result_toNat_of_succeeded {t : State} {v : Nat} {full : Bool} {cap : Word} (h : Succeeded t v full)
    (hcap : v ≤ cap.toNat) : t.result.toNat = v := by
  rw [h.result, BitVec.toNat_ofNat]
  exact Nat.mod_eq_of_lt (hcap.trans_lt cap.isLt)

/-! ### Accesses that answer normally -/

theorem outputWritable_nil (s : State) : OutputWritable s ([] : Bytes).length :=
  fun _ hlo hhi => absurd hhi (Nat.not_lt.2 hlo)

theorem elementsReadable_of_busFree {s : State} {k : Nat} (hb : BusFreeFor .decompress s) (hk : k ≤ s.latch.n.toNat) :
    ElementsReadable s k :=
  fun x hlo hhi => hb.1 x hlo (hhi.trans_le (Nat.add_le_add_left (Nat.mul_le_mul_right _ hk) _))

theorem outputWritable_of_busFree {s : State} {k : Nat} (hb : BusFreeFor .decompress s) (hk : k ≤ s.latch.cap.toNat) :
    OutputWritable s k :=
  fun x hlo hhi => hb.2 x hlo (hhi.trans_le (Nat.add_le_add_left hk _))

/-! ### The trie -/

/-- DECOMPRESS leaves the trie as it was (R192). -/
theorem exec_decompress_trie {s t : State} (ht : exec .decompress s = .next t) : t.trie = s.trie := by
  obtain ⟨hok, herr⟩ := decompressRun_tries s.params s.trie s.latch s.mem
  cases ht
  exact (conclude_trie s (decompressRun s.params s.trie s.latch s.mem)).elim (·.trans hok) (·.trans herr)

/-- The run of DECOMPRESS only carries the trie through (R192). -/
theorem decompressRun_any_trie (p : Params) (tr tr' : Trie) (l : Latch) (m : Memory) :
    decompressRun p tr' l m = { decompressRun p tr l m with trieOk := tr', trieErr := tr' } := by
  simp only [decompressRun]
  split_ifs <;> rfl

/-- A completion puts the run's trie in place and does nothing else with it. -/
theorem conclude_run_trie (s : State) (r : Run) (tr : Trie) :
    conclude s { r with trieOk := tr, trieErr := tr } = { conclude s r with trie := tr } := by
  have h : busVerdict s { r with trieOk := tr, trieErr := tr } = busVerdict s r := rfl
  simp only [conclude, h]
  cases busVerdict s r <;> rfl

/-- DECOMPRESS does not read the trie (R192). -/
theorem exec_decompress_any_trie {s t : State} (ht : exec .decompress s = .next t) (tr : Trie) :
    exec .decompress { s with trie := tr } = .next { t with trie := tr } := by
  cases ht
  rw [exec_decompress, decompressRun_any_trie _ s.trie, conclude_any_trie, conclude_run_trie]

end Sys2Proof.Machine
end

section
/-! SUPPORT. The obligations of `42_decoder.md`, settled. -/

namespace Sys2Proof.Machine

/-- Settles O49: the first check that fails stops the run, which then makes no access to memory. -/
theorem decompressOperandChecksInOrder : Obligations.DecompressOperandChecksInOrder := by
  intro s
  obtain ⟨t, ht, -⟩ := exec_form .decompress s
  refine ⟨t, ht, fun hnot m => ?_, ?_⟩
  · obtain ⟨c, hstops⟩ := decompressStops_of_not_ready hnot
    exact hstops.any_mem ht m
  · have hchecks := decompress_checks s
    split_ifs at hchecks ⊢
    · exact hchecks.outcome ht
    · exact hchecks.outcome ht
    · exact hchecks.outcome ht
    · refine ⟨hchecks, fun hread hcap => ?_⟩
      exact (exec_decompress_of_error ht hchecks (decoded_of_header_above_cap hcap) hread (outputWritable_nil s)).imp_right
        (· rfl)

/-- Settles O50: the decoding ends after the header, with a verdict that the header decides. -/
theorem headerOnlyStream : Obligations.HeaderOnlyStream := by
  intro s hready hread hn hcap
  obtain ⟨t, ht, -⟩ := exec_form .decompress s
  have hd := decoded_of_header_only hn hcap
  refine ⟨t, ht, fun h0 => ?_, fun h0 => ?_⟩
  · exact exec_decompress_of_finish ht hready (hd.trans (if_pos h0)) hread (outputWritable_nil s)
  · exact (exec_decompress_of_error ht hready (hd.trans (if_neg h0)) hread (outputWritable_nil s)).1

/-- Settles O51: the stream [0, 0] has a case of its own, and `decoderFirst_cases` says which first codewords are rejected. -/
theorem firstCodewordMustBeASeed : Obligations.FirstCodewordMustBeASeed := by
  intro s hready hread hn hcap
  obtain ⟨t, ht, -⟩ := exec_form .decompress s
  refine ⟨t, ht, ?_⟩
  split_ifs with hempty
  · obtain ⟨hn2, h0, h1⟩ := hempty
    exact exec_decompress_of_finish ht hready (decoded_of_empty_output hn2 h0 h1) hread (outputWritable_nil s)
  · have hfails : ∀ c, decoderFirst (sourceElem s 0) (sourceElem s 1) = .error c → FailedWith t c := fun c hf =>
      (exec_decompress_of_error ht hready (decoded_of_first_rejected hn hcap hempty hf) hread (outputWritable_nil s)).1
    rcases decoderFirst_cases (sourceElem s 0) (sourceElem s 1) with ⟨hbad, hf⟩ | ⟨hseed, -, hf⟩ | ⟨hseed, hpos, -⟩
    · exact ⟨fun _ => hfails _ hf, fun hlo hhi => by omega⟩
    · exact ⟨fun hbad => by omega, fun _ _ _ => hfails _ hf⟩
    · exact ⟨fun hbad => by omega, fun _ _ h0 => by omega⟩

/-- Settles O52: one codeword by the cases of `resolve`, and the stream by the decoding's equations for a rejected element and for
its end. -/
theorem subsequentCodeword : Obligations.SubsequentCodeword := by
  refine ⟨fun p h w cw => ⟨decoderElem_of_corrupt h, fun hpos hmax hlong => ?_, decoderElem_of_known, decoderElem_of_next⟩,
    fun s v0 hready hn hcap hf => ⟨fun i v c hi hin hv hc hread hwrite => ?_, fun v hv hread hwrite => ?_⟩⟩
  · rcases hlong with ⟨hcw, hlong⟩ | ⟨hcw, hlong⟩
    · exact decoderElem_of_long (resolve_of_known hpos hmax hcw) hlong
    · exact decoderElem_of_long (resolve_of_next hpos hmax hcw) (by simpa [Nat.add_assoc] using hlong)
  · exact ⟨_, exec_decompress s,
      (exec_decompress_of_error rfl hready (decoded_of_rejected hn hcap hf hi hin hv hc) hread hwrite).1⟩
  · have hd := decoded_of_accepted hn hcap hf hv
    refine ⟨_, exec_decompress s, fun hne => ?_, fun heq => ?_⟩
    · exact (exec_decompress_of_error rfl hready (hd.trans (if_pos hne)) hread hwrite).1
    · obtain ⟨hok, hmem⟩ := exec_decompress_of_finish rfl hready (hd.trans (if_neg (not_not.2 heq))) hread hwrite
      rw [heq] at hok
      refine ⟨hok, result_toNat_of_succeeded hok hcap, fun hm => ?_⟩
      rw [hmem]
      exact Memory.holdsBytes_writeBytes _ _ _ hm (heq ▸ (Nat.add_le_add_left hcap _).trans hready.dst)

/-- Settles O54: the completion writes the output, whose length the header says and the capacity bounds. -/
theorem decompressWritesTheDecodedBytes : Obligations.DecompressWritesTheDecodedBytes := by
  intro s v k full bytes hm hready hbus hd
  obtain ⟨t, ht, -⟩ := exec_form .decompress s
  obtain ⟨rfl, hlen, hcap, hk⟩ := decoded_finish_header hready hd
  obtain ⟨hok, hmem⟩ := exec_decompress_of_finish ht hready hd (elementsReadable_of_busFree hbus hk.le)
    (outputWritable_of_busFree hbus (hlen.trans_le hcap))
  refine ⟨t, ht, hok, rfl, result_toNat_of_succeeded hok hcap, hlen, ?_, ?_, exec_decompress_trie ht, exec_sameOutside ht⟩
  · rw [hmem]
    exact Memory.holdsBytes_writeBytes _ _ _ hm (hlen ▸ (Nat.add_le_add_left hcap _).trans hready.dst)
  · rw [hmem, ← hlen]
    exact Memory.sameMemOutside_writeBytes _ _ _ hm

/-- Settles O55: the run carries the trie through unread, and the registers of an idle core read the trie. -/
theorem decompressLeavesTheTrieAlone : Obligations.DecompressLeavesTheTrieAlone := by
  intro s
  obtain ⟨t, ht, -⟩ := exec_form .decompress s
  have htrie := exec_decompress_trie ht
  have hidle := (exec_idle_done ht).1
  refine ⟨t, ht, htrie, ?_, ?_, ?_, exec_decompress_any_trie ht⟩
  · rw [readReg_status, status_trieLive, trieLiveBit_idle t hidle, htrie]
  · rw [readReg_nextCw_idle t hidle, htrie]
  · rw [readReg_nodeCount_idle t hidle, htrie]

end Sys2Proof.Machine
end

section
/-! SUPPORT. Control: which register a port access reaches, how an illegal word completes, and the invariant of the whole machine
under each thing that a step can do (`43_control.md`). -/

namespace Sys2Proof.Machine

/-! ### The register port -/

/-- The register at an offset is the one that has this offset (R25). -/
theorem regOffset_of_regOfOffset {o : Nat} {r : Reg} (h : regOfOffset o = some r) : regOffset r = o := by
  unfold regOfOffset at h
  split at h <;> cases h <;> rfl

/-- An aligned 32-bit access in the window reaches the register at its offset (R218). -/
theorem regOfAccess_of_wf {pf : Platform} {addr bits : Nat} (hbase : pf.regBase ≤ addr)
    (hwf : regAccessWf (addr - pf.regBase) bits = true) :
    ∃ r, regOffset r = addr - pf.regBase ∧ regOfAccess pf addr bits = some r := by
  have hbits : bits = 32 := by
    simp only [regAccessWf, Bool.and_eq_true, beq_iff_eq] at hwf
    exact hwf.1.1
  subst hbits
  obtain ⟨r, hr⟩ := Option.isSome_iff_exists.1 ((regOfOffset_isSome _).trans hwf)
  exact ⟨r, regOffset_of_regOfOffset hr, (if_pos ⟨rfl, hbase⟩).trans hr⟩

/-- Any other access reaches no register (R218). -/
theorem regOfAccess_of_not_wf {pf : Platform} {addr bits : Nat}
    (h : ¬(pf.regBase ≤ addr ∧ regAccessWf (addr - pf.regBase) bits = true)) : regOfAccess pf addr bits = none := by
  by_cases hc : bits = 32 ∧ pf.regBase ≤ addr
  · obtain ⟨rfl, hbase⟩ := hc
    have hnone : ¬(regOfOffset (addr - pf.regBase)).isSome = true := fun hs =>
      h ⟨hbase, (regOfOffset_isSome _).symm.trans hs⟩
    exact (if_pos ⟨rfl, hbase⟩).trans (Option.not_isSome_iff_eq_none.1 hnone)
  · exact if_neg hc

/-- While `rst` is asserted no access has a meaning (R273). -/
theorem portReg_of_rst {s : State} (addr bits : Nat) (hr : s.rst = true) : portReg s addr bits = .error .accessInReset :=
  if_pos hr

theorem portReg_of_reg {s : State} {addr bits : Nat} {r : Reg} (hr : s.rst = false)
    (h : regOfAccess s.platform addr bits = some r) : portReg s addr bits = .ok r := by
  simp [portReg, hr, h]

theorem portReg_of_no_reg {s : State} {addr bits : Nat} (hr : s.rst = false)
    (h : regOfAccess s.platform addr bits = none) : portReg s addr bits = .error .badRegisterAccess := by
  simp [portReg, hr, h]

/-- A read of a register records its value (R217). -/
theorem hostOp_read_of_port {s : State} {addr bits : Nat} {r : Reg} (h : portReg s addr bits = .ok r) :
    hostOp s (.read addr bits) = .next (observeReg s r) := by
  simp only [hostOp, hostRead, h]

/-- A write of a register is carried out, unless it starts a command on a device range (R214, R283). -/
theorem hostOp_write_of_port {s : State} {addr bits : Nat} {r : Reg} {v : Word} (h : portReg s addr bits = .ok r)
    (hdev : startsOnDevice s r v = false) : hostOp s (.write addr bits v) = .next (writeReg s r v) := by
  simp [hostOp, hostWrite, h, hdev]

/-- An access that has no meaning is refused by the port's reason, whether it reads or writes (R218, R273). -/
theorem hostOp_access_refused {s : State} {addr bits : Nat} {e : Refusal} (v : Word) (h : portReg s addr bits = .error e) :
    hostOp s (.read addr bits) = .refused e ∧ hostOp s (.write addr bits v) = .refused e := by
  simp [hostOp, hostRead, hostWrite, h]

/-! ### Illegal words -/

/-- The step that completes an illegal word: the completion with ILLEGAL_CMD and the turn used up, nothing else (R212). -/
theorem step_of_illegal {s : State} (hd : ∃ x, decodeWord s.latch.word = .error x) (hbusy : s.mode = .busy)
    (hr : s.rst = false) (hturn : nextTurn s = .engine) :
    step s = .next (raiseError { s with schedule := s.schedule.tail } .illegalCmd) := by
  obtain ⟨x, hx⟩ := hd
  rw [step_engine hturn ((engineEnabled_iff s).2 ⟨hbusy, hr⟩)]
  simp only [runLatched, hx, execIllegal]

/-! ### The invariant of the whole machine -/

/-- The invariant does not look at the outside world, and asks of memory only its canonical form. -/
theorem stateInv_outside {s : State} (h : StateInv s) {m : Memory} (hm : m.wf) (prog : List HostOp)
    (obs : List Observation) (sched : List Turn) (k : Nat) :
    StateInv { s with mem := m, program := prog, observed := obs, schedule := sched, draws := k } where
  legal := h.legal
  mem := hm
  trie := h.trie
  status := ⟨h.status.errIff, h.status.errZero, h.status.busyClear⟩
  inReset := fun hr =>
    have held := h.inReset hr
    ⟨held.mode, held.flags, held.operands, held.result, held.trie⟩

/-- A command keeps the invariant: it runs only while `rst` is deasserted. -/
theorem exec_stateInv {i : Instr} {s t : State} (h : StateInv s) (hr : s.rst = false) (ht : exec i s = .next t) :
    StateInv t := by
  have hout := exec_sameOutside ht
  exact
    { legal := by rw [hout.params]; exact h.legal
      mem := exec_mem_wf ht h.mem
      trie := by rw [hout.params]; exact exec_trieOk ht h.legal h.trie
      status := exec_statusOk ht h.legal
      inReset := fun hrst => by simp [hout.rst, hr] at hrst }

/-- A completion with an error keeps the invariant (R235). -/
theorem raiseError_stateInv {s : State} {c : ErrCode} (h : StateInv s) (hr : s.rst = false) (hc : c ≠ .ok) :
    StateInv (raiseError s c) where
  legal := h.legal
  mem := h.mem
  trie := h.trie
  status := ⟨by simpa using hc, fun _ => ⟨rfl, rfl⟩, fun hbusy => (by cases hbusy)⟩
  inReset := fun hrst => by simp [hr] at hrst

/-- A host register write keeps the invariant: the port is open only while `rst` is deasserted (R273). -/
theorem writeReg_stateInv {s : State} (h : StateInv s) (hr : s.rst = false) (r : Reg) (v : Word) :
    StateInv (writeReg s r v) := by
  obtain ⟨hparams, -, htrie, hmem, -, hrst, -⟩ := writeReg_frame s r v
  exact
    { legal := by rw [hparams]; exact h.legal
      mem := by rw [hmem]; exact h.mem
      trie := by rw [hparams, htrie]; exact h.trie
      status := writeReg_statusOk s r v h.status
      inReset := fun hrst' => by simp [hrst, hr] at hrst' }

/-- Asserting `rst` gives the reset values, which agree with each other (R270). -/
theorem assertRst_stateInv {s : State} (h : StateInv s) : StateInv (assertRst s) where
  legal := h.legal
  mem := assertRst_mem_wf s h.mem
  trie := destroyed_ok s.params
  status := ⟨by simp, fun herr => (by cases herr), fun hbusy => (by cases hbusy)⟩
  inReset := fun _ => assertRst_held s

/-- Deasserting `rst` changes nothing else (R271). -/
theorem deassertRst_stateInv {s : State} (h : StateInv s) : StateInv (deassertRst s) where
  legal := h.legal
  mem := h.mem
  trie := h.trie
  status := ⟨h.status.errIff, h.status.errZero, h.status.busyClear⟩
  inReset := fun hrst => by cases hrst

/-- Every operation of the outside world that is carried out keeps the invariant. -/
theorem hostForm_stateInv {s t : State} {op : HostOp} (h : StateInv s) (f : HostForm s op t) : StateInv t := by
  cases f with
  | wrote addr bits v r _ hr _ e => subst e; exact writeReg_stateInv h hr r v
  | readReg _ _ _ _ _ _ e => subst e; exact stateInv_outside h h.mem _ _ _ _
  | waiting _ _ _ e => subst e; exact stateInv_outside h h.mem _ _ _ _
  | waited _ _ _ e => subst e; exact stateInv_outside h h.mem _ _ _ _
  | wroteMem addr bytes _ _ _ e =>
    subst e
    exact stateInv_outside h (Memory.writeBytes_wf s.mem addr bytes h.mem) _ _ _ _
  | readMem _ _ _ _ _ e => subst e; exact stateInv_outside h h.mem _ _ _ _
  | asserted _ e => subst e; exact assertRst_stateInv h
  | deasserted _ e => subst e; exact deassertRst_stateInv h

end Sys2Proof.Machine
end

section
/-! SUPPORT. The obligations of `43_control.md`, settled. -/

namespace Sys2Proof.Machine

/-- Settles O59, by everything a step can do: the turn and the operation are outside the invariant, and each move keeps it. -/
theorem stepKeepsTheMachineInvariant : Obligations.StepKeepsTheMachineInvariant := by
  intro s t h hstep
  have htail : StateInv { s with schedule := s.schedule.tail } := stateInv_outside h h.mem _ _ _ _
  cases step_form hstep with
  | ran i _ hen _ e => exact exec_stateInv htail ((engineEnabled_iff s).1 hen).2 e
  | illegal x _ hen _ e => subst e; exact raiseError_stateInv htail ((engineEnabled_iff s).1 hen).2 (by decide)
  | nothing e => subst e; exact htail
  | host op rest _ _ f => exact hostForm_stateInv (stateInv_outside htail htail.mem rest _ _ _) f

/-- Settles O6: the start is that of any command, and the completion looks at neither the latched operands nor memory. -/
theorem illegalWordCompletesWithIllegalCmd : Obligations.IllegalWordCompletesWithIllegalCmd := by
  refine ⟨fun s w hidle hw => ?_, fun s hd hbusy hr hturn => ?_⟩
  · have hstart := writeReg_cmd_idle s w hidle
    exact ⟨hstart, by rw [hstart]; rfl, by rw [hstart]; exact hw⟩
  · refine ⟨_, step_of_illegal hd hbusy hr hturn, ⟨rfl, rfl, rfl, rfl, rfl, rfl⟩, rfl, rfl, rfl, ?_, rfl, fun l m hl => ?_⟩
    · constructor <;> rfl
    · exact step_of_illegal (s := { s with latch := l, mem := m }) (by rw [hl]; exact hd) hbusy hr hturn

/-- Settles O19: `rst` and the form of the access decide at the port what a read and a write do. -/
theorem onlyAlignedWordAccessesReachTheWindow : Obligations.OnlyAlignedWordAccessesReachTheWindow := by
  refine fun s addr bits v => ⟨fun hr hbase hwf => ?_, fun hr hbad => ?_, fun hr => ?_⟩
  · obtain ⟨r, hoff, hreg⟩ := regOfAccess_of_wf hbase hwf
    have hport := portReg_of_reg hr hreg
    exact ⟨r, hoff, hostOp_read_of_port hport, hostOp_write_of_port hport⟩
  · exact hostOp_access_refused v (portReg_of_no_reg hr (regOfAccess_of_not_wf hbad))
  · obtain ⟨hread, hwrite⟩ := hostOp_access_refused v (portReg_of_rst addr bits hr)
    exact ⟨hread, hwrite, if_pos hr⟩

/-- Settles O5: a step at the host's turn. -/
theorem hostTurnCarriesOutOneOperation : Obligations.HostTurnCarriesOutOneOperation :=
  fun _ _ _ hturn hprog => step_host hturn hprog

/-- Settles O13: in IDLE the write is `startCommand`. -/
theorem cmdWriteStartsACommand : Obligations.CmdWriteStartsACommand := by
  intro s w hidle
  rw [writeReg_cmd_idle s w hidle]
  exact ⟨rfl, status_busy _, rfl, rfl, rfl, rfl, rfl, rfl, rfl, rfl, rfl, rfl, rfl, rfl, rfl, rfl⟩

/-- Settles O14: while BUSY the write only sets OVR. -/
theorem cmdWriteWhileBusyOnlySetsOvr : Obligations.CmdWriteWhileBusyOnlySetsOvr := by
  intro s w hbusy
  rw [writeReg_cmd_busy s w hbusy]
  exact ⟨rfl, status_ovr _⟩

/-- Settles O17: bit 1 masks DONE, bit 5 masks OVR, and a running command has cleared DONE already. -/
theorem statusWriteClearsDoneAndOvr : Obligations.StatusWriteClearsDoneAndOvr := by
  intro s w
  rw [writeReg_status]
  refine ⟨fun hw => ?_, fun hw => ?_, fun hw => ?_, fun hw => ?_, rfl, fun hok hbusy => ?_⟩
  · have hdone : (writeStatus s w).done = false := by rw [writeStatus_done, hw, Bool.not_true, Bool.and_false]
    exact ⟨hdone, by rw [irq, hdone, Bool.false_and]⟩
  · rw [writeStatus_done, hw, Bool.not_false, Bool.and_true]
  · rw [writeStatus_ovr, hw, Bool.not_true, Bool.and_false]
  · rw [writeStatus_ovr, hw, Bool.not_false, Bool.and_true]
  · obtain ⟨hdone, -⟩ := hok.busyClear hbusy
    rw [writeStatus_done, hdone, Bool.false_and]

/-- Settles O18: the host's turn is the read, which the port carries out as `observeReg`. -/
theorem registerReadHasNoSideEffect : Obligations.RegisterReadHasNoSideEffect := fun s r rest hr hturn hprog =>
  (step_host hturn hprog).trans <| hostOp_read_of_port <|
    portReg_of_reg (s := { s with schedule := s.schedule.tail, program := rest }) hr (regOfAccess_regOffset s.platform r)

/-- Settles O30: the completion of NOP is `finish(0)`. -/
theorem nopOnlyCompletes : Obligations.NopOnlyCompletes := fun _ =>
  ⟨_, rfl, ⟨rfl, rfl, rfl, rfl, rfl, rfl⟩, rfl, rfl, exec_sameOutside (i := .nop) rfl⟩

end Sys2Proof.Machine
end

section
/-! SUPPORT. Completion and errors: the run behind a command, how it ends, what an error leaves in memory (R236), what a bus
error does to the outcome (R238), and a host that waits (R96) (`60_exceptions.md`). -/

namespace Sys2Proof.Machine

/-! ### The run behind a command -/

/-- The command makes accesses to memory, and `r` is its run (R115, R125, R140, R170). -/
def RunsAs (i : Instr) (s : State) (r : Run) : Prop :=
  (i = .triePut ∧ r = triePutRun s.params s.trie s.latch s.mem) ∨
    (i = .trieGet ∧ r = trieGetRun s.params s.trie s.latch s.mem) ∨
    (i = .compress ∧ r = compressRun s.params s.latch s.mem) ∨
    (i = .decompress ∧ r = decompressRun s.params s.trie s.latch s.mem)

theorem RunsAs.exec_eq {i : Instr} {s : State} {r : Run} (h : RunsAs i s r) : exec i s = .next (conclude s r) := by
  rcases h with ⟨rfl, rfl⟩ | ⟨rfl, rfl⟩ | ⟨rfl, rfl⟩ | ⟨rfl, rfl⟩
  · exact exec_triePut s
  · exact exec_trieGet s
  · exact exec_compress s
  · exact exec_decompress s

/-- The run does not look at the platform. -/
theorem RunsAs.without_bus_errors {i : Instr} {s : State} {r : Run} (h : RunsAs i s r) : RunsAs i (withoutBusErrors s) r := h

/-- The accesses of the run are those of A (R80, R238). -/
theorem RunsAs.accessesAnswer_iff {i : Instr} {s : State} {r : Run} (h : RunsAs i s r) :
    AccessesAnswer i s ↔ accessesOk s.platform r = true := by
  rcases h with ⟨rfl, rfl⟩ | ⟨rfl, rfl⟩ | ⟨rfl, rfl⟩ | ⟨rfl, rfl⟩
  · exact triePut_accesses s
  · exact trieGet_accesses s
  · exact compress_accesses s
  · exact decompress_accesses s

/-- A run never ends with BUS, and the errors that touch the destination are LENGTH, and CORRUPT past the header (R236). -/
theorem RunsAs.error_code {i : Instr} {s : State} {r : Run} {c : ErrCode} {touched : Bool} (h : RunsAs i s r)
    (hv : r.verdict = .error c touched) :
    c ≠ .bus ∧ (touched = true ↔ c = .length ∨ (c = .corrupt ∧ s.latch.n.toNat ≠ 0)) := by
  rcases h with ⟨rfl, rfl⟩ | ⟨rfl, rfl⟩ | ⟨rfl, rfl⟩ | ⟨rfl, rfl⟩
  · obtain ⟨rfl, rfl | rfl | rfl | rfl⟩ := (triePutRun_verdict _ _ _ _).1 c touched hv <;> simp
  · obtain ⟨rfl, rfl | rfl⟩ := (trieGetRun_verdict _ _ _ _).1 c touched hv <;> simp
  · obtain ⟨rfl, rfl | rfl | rfl | rfl⟩ := (compressRun_verdict _ _ _).1 c touched hv <;> simp
  · rcases (decompressRun_verdict _ _ _ _).1 c touched hv with ⟨rfl, rfl | rfl | rfl | ⟨rfl, hn⟩⟩ | ⟨rfl, rfl | ⟨rfl, hn⟩⟩
    · simp
    · simp
    · simp
    · simp [hn]
    · simp
    · simp [hn]

/-- A successful run reads its whole source region, and writes as much as its result says (R80, R148, R186). -/
theorem RunsAs.success_accesses {i : Instr} {s : State} {r : Run} {v : Nat} {full : Bool} (h : RunsAs i s r)
    (hv : r.verdict = .finish v full) :
    r.src = regionAt r.src.lo r.readLen ∧ (i = .compress → r.written.length = v * s.params.e) ∧
      (i = .decompress → r.written.length = v) := by
  rcases h with ⟨rfl, rfl⟩ | ⟨rfl, rfl⟩ | ⟨rfl, rfl⟩ | ⟨rfl, rfl⟩
  · have hread := (triePutRun_verdict _ _ _ _).2 v full hv
    have hsrc := (triePutRun_regions s.params s.trie s.latch s.mem).1
    exact ⟨by rw [hsrc, hread]; rfl, by simp, by simp⟩
  · have hread := (trieGetRun_verdict _ _ _ _).2 v full hv
    have hsrc := (trieGetRun_regions s.params s.trie s.latch s.mem).1
    exact ⟨by rw [hsrc, hread]; rfl, by simp, by simp⟩
  · obtain ⟨hread, hwritten, -⟩ := (compressRun_verdict _ _ _).2 v full hv
    have hsrc := (compressRun_regions s.params s.latch s.mem).1
    exact ⟨by rw [hsrc, hread]; rfl, fun _ => hwritten, by simp⟩
  · obtain ⟨hread, hwritten, -⟩ := (decompressRun_verdict _ _ _ _).2 v full hv
    have hsrc := (decompressRun_regions s.params s.trie s.latch s.mem).1
    exact ⟨by rw [hsrc, hread]; rfl, by simp, fun _ => hwritten⟩

/-- An error leaves the trie as it was, but for COMPRESS (R122, R126, R192). -/
theorem RunsAs.trieErr_eq {i : Instr} {s : State} {r : Run} (h : RunsAs i s r) (hi : i ≠ .compress) : r.trieErr = s.trie := by
  rcases h with ⟨-, rfl⟩ | ⟨-, rfl⟩ | ⟨rfl, -⟩ | ⟨-, rfl⟩
  · exact triePutRun_trieErr _ _ _ _
  · exact trieGetRun_trieErr _ _ _ _
  · exact absurd rfl hi
  · exact (decompressRun_tries _ _ _ _).2

/-! ### How a completion ends -/

/-- A completion is a success or an error with a code of its own (R234, R235). -/
theorem conclude_completed (s : State) (r : Run) (h : ∀ touched, r.verdict ≠ .error .ok touched) :
    (∃ v full, Succeeded (conclude s r) v full) ∨ ∃ c, c ≠ .ok ∧ FailedWith (conclude s r) c := by
  cases hv : busVerdict s r with
  | finish v full => exact .inl ⟨v, full, (conclude_of_finish s r v full hv).1⟩
  | error c touched =>
    have hf := (conclude_of_error s r c touched hv).1
    exact .inr ⟨c, hf.errcode ▸ (conclude_statusOk s r h).errIff.1 hf.err, hf⟩

/-- ERRCODE after a completion is OK, BUS or the run's own error: it is in every list that holds these. -/
theorem conclude_errcode_mem {s : State} {r : Run} {codes : List ErrCode} (hok : .ok ∈ codes) (hbus : .bus ∈ codes)
    (h : ∀ c touched, r.verdict = .error c touched → c ∈ codes) : (conclude s r).errcode ∈ codes := by
  cases hv : busVerdict s r with
  | finish v full => rwa [(conclude_of_finish s r v full hv).1.errcode]
  | error c touched =>
    rcases conclude_failed s r (conclude_of_error s r c touched hv).1.err with ⟨_, hown, -⟩ | ⟨hcode, -, -⟩
    · exact h _ _ hown
    · rwa [hcode]

/-- The engine completes whatever word is latched (R92, R212, R233). -/
theorem runLatched_completes (s : State) :
    ∃ t, runLatched s = .next t ∧ t.mode = .idle ∧ t.done = true ∧ SameOutside s t := by
  unfold runLatched
  cases decodeWord s.latch.word with
  | ok i =>
    obtain ⟨t, ht, -⟩ := exec_form i s
    obtain ⟨hidle, hdone⟩ := exec_idle_done ht
    exact ⟨t, ht, hidle, hdone, exec_sameOutside ht⟩
  | error x => exact ⟨_, rfl, rfl, rfl, by constructor <;> rfl⟩

/-! ### Memory after an error -/

/-- The errors after which the destination region is unspecified (R236). -/
def TouchesDst (l : Latch) (c : ErrCode) : Prop := c = .bus ∨ c = .length ∨ (c = .corrupt ∧ l.n.toNat ≠ 0)

/-- After an error memory is the old one, or the destination region, which the source does not meet, is unspecified (R236). -/
theorem RunsAs.mem_after_error {i : Instr} {s : State} {r : Run} (h : RunsAs i s r) (ok : RunOk r)
    (he : (conclude s r).err = true) :
    (TouchesDst s.latch (conclude s r).errcode ∧ overlaps r.src r.dst = false ∧
        (conclude s r).mem = s.mem.scrambleRegion s.draws r.src r.dst) ∨
      (¬TouchesDst s.latch (conclude s r).errcode ∧ (conclude s r).mem = s.mem) := by
  rcases conclude_failed s r he with ⟨touched, hv, hm⟩ | ⟨hbus, ha, hm⟩
  · obtain ⟨hne, htouched⟩ := h.error_code hv
    cases touched with
    | false => exact .inr ⟨fun hc => absurd (htouched.2 (hc.resolve_left hne)) Bool.false_ne_true, hm⟩
    | true => exact .inl ⟨.inr (htouched.1 rfl), ok.apart (.inr (.inr ⟨_, hv⟩)), hm⟩
  · exact .inl ⟨.inl hbus, ok.apart ((accessesOk_false _ r ha).imp_right .inl), hm⟩

/-- A byte of a region is in no region that does not overlap it. -/
theorem not_inRegion_of_apart {r d : Region} {x : Nat} (h : overlaps r d = false) (hx : inRegion d x = true) :
    inRegion r x = false := by
  rw [Bool.eq_false_iff] at h ⊢
  exact fun hr => h ((overlaps_iff r d).2 ⟨x, (inRegion_iff r x).1 hr, (inRegion_iff d x).1 hx⟩)

/-! ### Bus errors -/

/-- Without bus errors a run never ends with BUS. -/
theorem RunsAs.errcode_ne_bus {i : Instr} {s : State} {r : Run} (h : RunsAs i s r) :
    (conclude (withoutBusErrors s) r).errcode ≠ .bus := by
  have hb := busVerdict_withoutBusErrors s r
  cases hv : r.verdict with
  | finish v full =>
    rw [(conclude_of_finish _ r v full (hb.trans hv)).1.errcode]
    decide
  | error c touched =>
    rw [(conclude_of_error _ r c touched (hb.trans hv)).1.errcode]
    exact (h.error_code hv).1

/-- A command and the same command without bus errors: they agree when every access of A answers normally, and otherwise the command
fails with BUS, or keeps the other's error (R238). -/
theorem exec_bus_cases {i : Instr} {s t : State} (h : exec i s = .next t) :
    ∃ t0, exec i (withoutBusErrors s) = .next t0 ∧ t0.errcode ≠ .bus ∧
      ((AccessesAnswer i s ∧ t = { t0 with platform := s.platform }) ∨
        (¬AccessesAnswer i s ∧ (FailedWith t .bus ∨ (t0.err = true ∧ t = { t0 with platform := s.platform })))) := by
  cases exec_form_of h with
  | plain tr hi e =>
    subst e
    rcases hi with ⟨rfl, rfl⟩ | ⟨rfl, rfl⟩ | ⟨rfl, rfl⟩ <;>
      exact ⟨_, rfl, by simp, .inl ⟨⟨fun _ hx => hx.elim, fun _ hx => hx.elim⟩, rfl⟩⟩
  | ran r _ _ hrun e =>
    subst e
    have hrun : RunsAs i s r := hrun
    refine ⟨_, hrun.without_bus_errors.exec_eq, hrun.errcode_ne_bus, ?_⟩
    rw [hrun.accessesAnswer_iff]
    rcases busVerdict_cases s r with ⟨ha, hb⟩ | ⟨ha, -, hb⟩ | ⟨ha, c, touched, hv, ⟨-, hb⟩ | ⟨-, hb⟩⟩
    · exact .inl ⟨ha, conclude_withoutBusErrors s r hb⟩
    · exact .inr ⟨by simp [ha], .inl (conclude_of_error s r _ _ hb).1⟩
    · exact .inr ⟨by simp [ha], .inl (conclude_of_error s r _ _ hb).1⟩
    · have herr := (conclude_of_error _ r c touched ((busVerdict_withoutBusErrors s r).trans hv)).1.err
      exact .inr ⟨by simp [ha], .inr ⟨herr, conclude_withoutBusErrors s r (hb.trans hv.symm)⟩⟩

/-- When every access of a command's regions answers normally, so does every access in A (R80). -/
theorem accessesAnswer_of_busFreeFor {i : Instr} {s : State} (hp : s.params.Legal) (hb : BusFreeFor i s) : AccessesAnswer i s := by
  obtain ⟨t, -, form⟩ := exec_form i s
  cases form with
  | plain tr hi _ =>
    rcases hi with ⟨rfl, -⟩ | ⟨rfl, -⟩ | ⟨rfl, -⟩ <;> exact ⟨fun _ hx => hx.elim, fun _ hx => hx.elim⟩
  | ran r hreg ok hrun _ =>
    have ok := ok hp
    rw [RunsAs.accessesAnswer_iff hrun, accessesOk_iff]
    rw [BusFreeFor, ← hreg.1, ← hreg.2] at hb
    exact ⟨fun x hlo hhi => hb.1 x hlo (hhi.trans_le ok.reads), fun x hlo hhi => hb.2 x hlo (hhi.trans_le ok.writes)⟩

/-- When the bus-free outcome `t0` is a success, A holds a read of every source byte, a write of every byte of the stream of
COMPRESS and of the output of DECOMPRESS: a bus error on one of them is one on an access in A (R80, R238). -/
theorem not_accessesAnswer_of_bad {i : Instr} {s t0 : State} {x : Nat} (h0 : exec i (withoutBusErrors s) = .next t0)
    (hok : t0.err = false)
    (hx : (inRegion (srcRegion s.params i s.latch) x = true ∧ busOk s.platform .read x = false) ∨
      (i = .compress ∧ s.latch.d.toNat ≤ x ∧ x < s.latch.d.toNat + t0.result.toNat * s.params.e ∧
        busOk s.platform .write x = false) ∨
      (i = .decompress ∧ s.latch.d.toNat ≤ x ∧ x < s.latch.d.toNat + t0.result.toNat ∧
        busOk s.platform .write x = false)) : ¬AccessesAnswer i s := by
  cases exec_form_of h0 with
  | plain tr hi _ =>
    rcases hi with ⟨rfl, -⟩ | ⟨rfl, -⟩ | ⟨rfl, -⟩ <;> simp [srcRegion, emptyRegion, inRegion] at hx
  | ran r hreg _ hrun e =>
    subst e
    have hrun : RunsAs i s r := hrun
    obtain ⟨hsrc, hdst⟩ : r.src = srcRegion s.params i s.latch ∧ r.dst = dstRegion s.params i s.latch := hreg
    have hb := busVerdict_withoutBusErrors s r
    cases hv : r.verdict with
    | error c touched => simp [(conclude_of_error _ r c touched (hb.trans hv)).1.err] at hok
    | finish v full =>
      have hle : (conclude (withoutBusErrors s) r).result.toNat ≤ v := by
        rw [(conclude_of_finish _ r v full (hb.trans hv)).1.result, BitVec.toNat_ofNat]
        exact Nat.mod_le _ _
      obtain ⟨hread, hcompress, hdecompress⟩ := hrun.success_accesses hv
      have hbad : accessesOk s.platform r = false := by
        apply accessesOk_of_bad s.platform r x
        rcases hx with ⟨hin, hbus⟩ | ⟨rfl, hlo, hhi, hbus⟩ | ⟨rfl, hlo, hhi, hbus⟩
        · rw [← hsrc, hread, inRegion_iff] at hin
          exact .inl ⟨hin.1, hin.2, hbus⟩
        · rw [hcompress rfl, hdst]
          exact .inr ⟨hlo, hhi.trans_le (Nat.add_le_add_left (Nat.mul_le_mul_right _ hle) _), hbus⟩
        · rw [hdecompress rfl, hdst]
          exact .inr ⟨hlo, hhi.trans_le (Nat.add_le_add_left hle _), hbus⟩
      rw [hrun.accessesAnswer_iff, hbad]
      exact Bool.false_ne_true

/-- A command that fails leaves the trie as it was, but for COMPRESS (R122, R126, R192). -/
theorem exec_trie_of_err {i : Instr} {s t : State} (h : exec i s = .next t) (he : t.err = true) (hi : i ≠ .compress) :
    t.trie = s.trie := by
  cases exec_form_of h with
  | plain tr _ e => subst e; cases he
  | ran r _ _ hrun e =>
    subst e
    exact (conclude_trie_of_err s r he).trans (RunsAs.trieErr_eq hrun hi)

/-! ### A host that waits -/

/-- A round of the WAIT while BUSY records STATUS and puts the WAIT back (R96). -/
theorem hostOp_wait_of_busy {s : State} (hr : s.rst = false) (hbusy : s.mode = .busy) :
    hostOp s .wait = .next { observeReg s .status with program := .wait :: s.program } :=
  (if_neg (by simp [hr])).trans (if_pos (busyBit_busy s hbusy))

/-- In IDLE the WAIT records STATUS once and is over (R96). -/
theorem hostOp_wait_of_idle {s : State} (hr : s.rst = false) (hidle : s.mode = .idle) :
    hostOp s .wait = .next (observeReg s .status) :=
  (if_neg (by simp [hr])).trans (if_neg (by simp [hidle]))

/-- A command runs, and the host stands at its WAIT (R96). -/
structure HostWaits (s : State) (rest : List HostOp) : Prop where
  busy : s.mode = .busy
  rst : s.rst = false
  program : s.program = .wait :: rest

/-- A round of the WAIT while BUSY leaves the host there and uses up one turn (R96). -/
theorem HostWaits.step_host_turn {s : State} {rest : List HostOp} {sched : List Turn} (h : HostWaits s rest)
    (hs : s.schedule = .host :: sched) : ∃ s', step s = .next s' ∧ HostWaits s' rest ∧ s'.schedule = sched := by
  have hturn : nextTurn s = .host := by simp [nextTurn, hs]
  exact ⟨_, (step_host hturn h.program).trans (hostOp_wait_of_busy h.rst h.busy), ⟨h.busy, h.rst, rfl⟩,
    congrArg List.tail hs⟩

/-- However many turns of the host the schedule holds, they end with the host at its WAIT (R96). -/
theorem HostWaits.run_host_turns {rest : List HostOp} (k : Nat) {s : State} (h : HostWaits s rest)
    (hs : s.schedule = List.replicate k .host) :
    ∃ s', (∀ j, Host.Core.run core (k + j) s = Host.Core.run core j s') ∧ HostWaits s' rest ∧ s'.schedule = [] := by
  induction k generalizing s with
  | zero => exact ⟨s, fun j => by rw [Nat.zero_add], h, hs⟩
  | succ k ih =>
    obtain ⟨s1, hstep, h1, hs1⟩ := h.step_host_turn (hs.trans List.replicate_succ)
    obtain ⟨s2, hrun, h2⟩ := ih h1 hs1
    exact ⟨s2, fun j => by rw [Nat.succ_add, run_next _ hstep, hrun], h2⟩

/-- When the schedule is used up, the engine completes the command under the waiting host (R233, R290). -/
theorem HostWaits.step_engine_turn {s : State} {rest : List HostOp} (h : HostWaits s rest) (hs : s.schedule = []) :
    ∃ t, step s = .next t ∧ t.mode = .idle ∧ t.done = true ∧ SameOutside s t := by
  have hen : engineEnabled s = true := (engineEnabled_iff s).2 ⟨h.busy, h.rst⟩
  have hturn : nextTurn s = .engine := by simp [nextTurn, hs, hen]
  obtain ⟨t, ht, hidle, hdone, hout⟩ := runLatched_completes { s with schedule := s.schedule.tail }
  have hsched : s.schedule.tail = s.schedule := by rw [hs]; rfl
  rw [hsched] at ht hout
  exact ⟨t, (step_engine hturn hen).trans (by rw [hsched]; exact ht), hidle, hdone, hout⟩

/-- In IDLE the WAIT reads STATUS once more and the host goes on (R96, R219). -/
theorem step_wait_of_idle {t : State} {rest : List HostOp} (hidle : t.mode = .idle) (hr : t.rst = false)
    (hs : t.schedule = []) (hp : t.program = .wait :: rest) :
    step t = .next { t with
      program := rest, observed := t.observed ++ [.reg .status (readReg t .status)], draws := t.draws + 1 } := by
  have hturn : nextTurn t = .host := by simp [nextTurn, hs, engineEnabled, hidle]
  have hsched : t.schedule.tail = t.schedule := by rw [hs]; rfl
  rw [step_host hturn hp, hsched]
  exact hostOp_wait_of_idle hr hidle

end Sys2Proof.Machine
end

section
/-! SUPPORT. The obligations of `60_exceptions.md`, settled. -/

namespace Sys2Proof.Machine

/-- Settles O28: `exec_bus_cases` says how the outcome depends on the accesses in A, which lie in the command's regions. -/
theorem busErrorsOnlyTurnTheOutcomeIntoBus : Obligations.BusErrorsOnlyTurnTheOutcomeIntoBus := by
  intro i s hp
  obtain ⟨t, ht, -⟩ := exec_form i s
  obtain ⟨t0, ht0, hcode, hcases⟩ := exec_bus_cases ht
  have hsame : AccessesAnswer i s → t = { t0 with platform := s.platform } := fun ha =>
    hcases.elim And.right fun hbad => absurd ha hbad.1
  have hfree : BusFreeFor i s → t = { t0 with platform := s.platform } := fun hb =>
    hsame (accessesAnswer_of_busFreeFor hp hb)
  refine ⟨t, t0, ht, ht0, hcode, hsame, fun hna hok => ?_, fun hna _ => ?_, fun hne => ?_, fun hbus hb => ?_, hfree⟩
  · obtain ⟨ha, -⟩ | ⟨-, hf | ⟨herr, -⟩⟩ := hcases
    · exact absurd ha hna
    · exact hf
    · simp [hok] at herr
  · exact hcases.elim (fun hgood => absurd hgood.1 hna) fun hbad => hbad.2.imp_right And.right
  · obtain ⟨-, e⟩ | ⟨-, hf | ⟨-, e⟩⟩ := hcases
    · exact e
    · exact absurd hf.errcode hne
    · exact e
  · rw [hfree hb] at hbus
    exact hcode hbus

/-- Settles O29: the access is one of A, so the success becomes BUS. -/
theorem busErrorOnAnAccessGivesBus : Obligations.BusErrorOnAnAccessGivesBus := by
  intro i s t0 x _ h0 hok hx
  obtain ⟨t, ht, -⟩ := exec_form i s
  have hna := not_accessesAnswer_of_bad h0 hok hx
  have hf : FailedWith t .bus := by
    obtain ⟨t0', h0', -, ⟨ha, -⟩ | ⟨-, hf | ⟨herr, -⟩⟩⟩ := exec_bus_cases ht
    · exact absurd ha hna
    · exact hf
    · rw [h0'] at h0
      cases h0
      simp [hok] at herr
  exact ⟨t, ht, hf, exec_trie_of_err ht hf.err, fun hi => exec_compress_trie (hi ▸ ht)⟩

/-- Settles O27: the code of the error says whether the destination region is touched, and a region that is touched does not
meet the source. -/
theorem memoryAfterAnError : Obligations.MemoryAfterAnError := by
  refine ⟨fun s => ⟨_, rfl, ⟨rfl, rfl, rfl, rfl, rfl, rfl⟩, rfl⟩, fun i s t c hp hm h hf => ?_⟩
  cases exec_form_of h with
  | plain tr _ e => subst e; cases hf.err
  | ran r hreg ok hrun e =>
    subst e
    have hmem := RunsAs.mem_after_error hrun (ok hp) hf.err
    rw [hf.errcode] at hmem
    refine ⟨fun hc => ?_, fun hc => ⟨exec_sameMemOutside_dst h hp hm, fun x hx ha => ?_⟩, exec_read_src h hp hm⟩
    · have hnot : ¬TouchesDst s.latch c := by
        rintro (rfl | rfl | ⟨rfl, hn⟩)
        · simp at hc
        · simp at hc
        · simp [hn] at hc
      exact hmem.elim (fun hin => absurd hin.1 hnot) And.right
    · obtain ⟨-, hapart, hscr⟩ := hmem.resolve_right fun hout => hout.1 hc
      rw [← hreg.2] at hx
      rw [hscr]
      exact Memory.read_scrambleRegion_in _ _ _ _ x hm hx ha (not_inRegion_of_apart hapart hx)

/-- Settles O24, by the two forms of a command. -/
theorem everyCommandCompletes : Obligations.EveryCommandCompletes := by
  intro i s hp
  obtain ⟨t, ht, form⟩ := exec_form i s
  obtain ⟨hidle, hdone⟩ := exec_idle_done ht
  refine ⟨t, ht, hidle, hdone, exec_sameOutside ht, ?_⟩
  cases form with
  | plain tr _ e => subst e; exact .inl ⟨0, false, rfl, rfl, rfl, rfl, rfl, rfl⟩
  | ran r _ ok _ e => subst e; exact conclude_completed s r (ok hp).notOk

/-- Settles O25: the codes each run can end with, and BUS. -/
theorem errorCodesOfEachCommand : Obligations.ErrorCodesOfEachCommand := by
  intro s
  refine ⟨⟨_, rfl, rfl⟩, ⟨_, rfl, rfl⟩, ⟨_, rfl, rfl⟩, ⟨_, exec_triePut s, ?_⟩, ⟨_, exec_trieGet s, ?_⟩,
    ⟨_, exec_compress s, ?_⟩, ⟨_, exec_decompress s, ?_⟩⟩
  · refine conclude_errcode_mem (by decide) (by decide) fun c u hv => ?_
    obtain ⟨-, rfl | rfl | rfl | rfl⟩ := (triePutRun_verdict _ _ _ _).1 c u hv <;> decide
  · refine conclude_errcode_mem (by decide) (by decide) fun c u hv => ?_
    obtain ⟨-, rfl | rfl⟩ := (trieGetRun_verdict _ _ _ _).1 c u hv <;> decide
  · refine conclude_errcode_mem (by decide) (by decide) fun c u hv => ?_
    obtain ⟨-, rfl | rfl | rfl | rfl⟩ := (compressRun_verdict _ _ _).1 c u hv <;> decide
  · refine conclude_errcode_mem (by decide) (by decide) fun c u hv => ?_
    obtain ⟨-, rfl | rfl | rfl | ⟨rfl, -⟩⟩ | ⟨-, rfl | ⟨rfl, -⟩⟩ := (decompressRun_verdict _ _ _ _).1 c u hv <;> decide

/-- Settles O21: the level is that of two flags, and the causes of a change of DONE are those of `step_flagStep`. -/
theorem interruptFollowsDoneAndEnable : Obligations.InterruptFollowsDoneAndEnable := by
  refine ⟨fun _ => rfl, fun i s => ?_, fun _ => rfl, fun s t h _ hirq => ?_⟩
  · obtain ⟨t, ht, -⟩ := exec_form i s
    obtain ⟨hidle, hdone⟩ := exec_idle_done ht
    have hie := (exec_sameOutside ht).doneIe
    refine ⟨t, ht, ?_, ?_, ?_, hdone, ?_, fun w => ?_⟩
    · simp [irq, hdone, hie]
    · simp [irq, hdone]
    · simp [irq]
    · simp [irq]
    · simp [irq, writeReg_cmd_idle t w hidle]
  · obtain ⟨hdone, hie⟩ : t.done = true ∧ t.doneIe = true := by simpa [irq] using hirq
    cases step_flagStep h with
    | completed hbusy hidle _ _ => exact .inl ⟨hbusy, hidle⟩
    | started _ _ _ _ _ _ s' _ e => subst e; cases hdone
    | dropped _ _ _ _ _ _ _ s' hs' e => subst e; exact .inr ⟨hs'.done.symm.trans hdone, hdone, hie⟩
    | acknowledged _ _ _ _ _ _ s' hs' e =>
      have hbefore : s'.done = true := by
        rw [e] at hdone
        exact (Bool.and_eq_true_iff.1 hdone).1
      exact .inr ⟨hs'.done.symm.trans hbefore, hdone, hie⟩
    | reset _ _ s' e => subst e; cases hdone
    | quiet hq => exact .inr ⟨hq.done.symm.trans hdone, hdone, hie⟩

/-- Settles O7: the host's turns leave it at its WAIT, the engine's turn completes the command, and the next round is the last. -/
theorem waitingHostSeesTheCompletion : Obligations.WaitingHostSeesTheCompletion := by
  intro k s rest hbusy hr hsched hprog
  obtain ⟨s', hrun, hwaits, hempty⟩ := HostWaits.run_host_turns k ⟨hbusy, hr, hprog⟩ hsched
  obtain ⟨t, hstep, hidle, hdone, hout⟩ := hwaits.step_engine_turn hempty
  have htprog : t.program = .wait :: rest := hout.program.trans hwaits.program
  have hread := step_wait_of_idle hidle (hout.rst.trans hwaits.rst) (hout.schedule.trans hempty) htprog
  refine ⟨t, readReg t .status, ?_, hidle, hdone, htprog, ?_, ?_, ?_, rfl⟩
  · rw [hrun, run_next 0 hstep]
    rfl
  · rw [hrun, run_next 1 hstep, run_next 0 hread]
    rfl
  · rw [readReg_status, status_busy, busyBit_idle t hidle]
  · rw [readReg_status, status_done, hdone]

end Sys2Proof.Machine
end

section
namespace Sys2Proof.Machine

/-- The memory a reset leaves when it abandons a running command (R272; log 10, 19). -/
theorem assertRst_mem_busy {s : State} (hbusy : s.mode = .busy) :
    (assertRst s).mem = s.mem.scrambleRegion s.draws (latchSrc s.params s.latch) (latchDst s.params s.latch) :=
  if_pos (busyBit_busy s hbusy)

/-- Settles O9: the memory of the reset core is the scrambled one, and a byte of it is either left alone (outside the destination,
or kept as a byte of the source) or free. -/
theorem resetMidCommandAbandonsIt : Obligations.ResetMidCommandAbandonsIt := by
  intro s hbusy hm
  refine ⟨assertRst s, rfl, assertRst_mode s, assertRst_done s, assertRst_result s, rfl, ?_⟩
  rw [assertRst_mem_busy hbusy]
  refine ⟨fun x hout => ?_, fun x hsrc => ?_, fun x hdst hsrc hx => ?_⟩
  · exact Memory.read_scrambleRegion_out _ _ _ _ x hm (.inl hout)
  · exact Memory.read_scrambleRegion_out _ _ _ _ x hm (.inr hsrc)
  · exact Memory.read_scrambleRegion_in _ _ _ _ x hm hdst hx hsrc

end Sys2Proof.Machine
end

section
/-! SUPPORT. What a COMPRESS that succeeds has done (R140, R148, `41_encoder.md`). -/

namespace Sys2Proof.Machine

/-- A COMPRESS that succeeds passed its operand checks and wrote its stream. -/
theorem exec_compress_success {s t : State} (ht : exec .compress s = .next t) (hok : t.err = false) :
    CompressReady s ∧
      Succeeded t (encodedStream s.params (sourceBytes s)).length (encoderScan s.params (sourceBytes s)).dictFull ∧
      t.mem = s.mem.writeBytes s.latch.d.toNat (streamBytes s.params (encodedStream s.params (sourceBytes s))) := by
  have hready : CompressReady s := by
    by_contra hnot
    obtain ⟨c, hstops⟩ := compressStops_of_not_ready hnot
    simp [(hstops.outcome ht).1.err] at hok
  cases ht
  cases hv : busVerdict s (compressRun s.params s.latch s.mem) with
  | error c touched => simp [(conclude_of_error s _ c touched hv).1.err] at hok
  | finish v full =>
    obtain ⟨hsucc, hmem, -⟩ := conclude_of_finish s _ v full hv
    have hrun := (busVerdict_finish s _ v full hv).2
    rw [compressRun_ready s hready] at hrun hsucc hmem ⊢
    cases hrun
    exact ⟨hready, hsucc, hmem⟩

/-- RESULT of a COMPRESS that succeeds is the length of its stream. -/
theorem exec_compress_result {s t : State} (hp : s.params.Legal) (ht : exec .compress s = .next t) (hok : t.err = false) :
    t.result.toNat = (encodedStream s.params (sourceBytes s)).length := by
  obtain ⟨hready, hsucc, -⟩ := exec_compress_success ht hok
  exact result_toNat_of_succeeded hsucc (encodedStream_le_cap hp hready)

/-- The stream holds the header, one codeword per insertion, and the trailing one (R148). -/
theorem encodedStream_length_eq (p : Params) (x : Bytes) :
    (encodedStream p x).length = (encoderScan p x).out.length + 2 := by
  simp [encodedStream, emitted]

/-- DICT_FULL of a scan says that it made more insertions than codewords were free (R146, R153). -/
theorem encoderScan_dictFull_iff (p : Params) (hp : p.Legal) (x : Bytes) :
    (encoderScan p x).dictFull = true ↔ cwMax p - 256 < (encoderScan p x).out.length := by
  have hsucc := cwMax_succ p
  have hge := cwMax_ge p hp
  rw [(encoderScan_counts p hp x).full, decide_eq_true_iff]
  omega

/-- What a COMPRESS that succeeds wrote reads back as its stream, element by element (R74, R75, R148). -/
theorem exec_compress_elem {s t : State} (hp : s.params.Legal) (hm : s.mem.wf) (ht : exec .compress s = .next t)
    (hok : t.err = false) {i : Nat} (hi : i < (encodedStream s.params (sourceBytes s)).length) :
    t.mem.elem s.params s.latch.d.toNat i = (encodedStream s.params (sourceBytes s)).getD i 0 := by
  obtain ⟨hready, -, hmem⟩ := exec_compress_success ht hok
  rw [hmem]
  exact elem_writeBytes_streamBytes hm (streamBytes_in_range hp hready)
    (encodedStream_fits s.params hp _ ((sourceBytes_length s).trans_le hready.len)) hi

end Sys2Proof.Machine
end

section
/-! SUPPORT. The decoder over a run of codewords: what every accepted one keeps (R187, R190), and where the codewords of a COMPRESS
leave it (R188, `42_decoder.md`). -/

namespace Sys2Proof.Machine

/-- The decoder between two codewords: `last` is `prev`, and the seeds stand below the next free codeword (R187, R190). -/
structure DecoderOk (v : DecoderWork) : Prop where
  last : v.last = v.prev
  next : 257 ≤ v.nextFree
  seeds : ∀ k, k < 257 → dictGet v.dict k = dictGet seedDict k

/-- The first codeword is a seed (R177). -/
theorem decoderFirst_seed {h c1 : Nat} {v0 : DecoderWork} (hf : decoderFirst h c1 = .ok v0) :
    (1 ≤ c1 ∧ c1 ≤ 256) ∧ v0 = ⟨seedDict, 257, c1, c1, [BitVec.ofNat 8 (c1 - 1)], false⟩ := by
  rcases decoderFirst_cases h c1 with ⟨-, e⟩ | ⟨-, -, e⟩ | ⟨hseed, -, e⟩ <;> rw [e] at hf <;> cases hf
  exact ⟨hseed, rfl⟩

theorem decoderFirst_decoderOk {h c1 : Nat} {v0 : DecoderWork} (hf : decoderFirst h c1 = .ok v0) : DecoderOk v0 := by
  obtain ⟨-, rfl⟩ := decoderFirst_seed hf
  exact ⟨rfl, le_rfl, fun k _ => by simp only⟩

/-- An accepted codeword leaves every entry below the next free codeword as it is (R190). -/
theorem decoderElem_keeps_entry {p : Params} {h cw k : Nat} {w w' : DecoderWork} (e : decoderElem p h w cw = .ok w')
    (hk : k < w.nextFree) : dictGet w'.dict k = dictGet w.dict k := by
  rcases decoderElem_dict e with ⟨-, hdict, -, -⟩ | ⟨-, -, -, q, hdict⟩ <;> rw [hdict]
  exact (dictGet_cons _ _ _).trans (if_neg (Nat.ne_of_gt hk))

theorem decoderElem_nextFree_le {p : Params} {h cw : Nat} {w w' : DecoderWork} (e : decoderElem p h w cw = .ok w') :
    w.nextFree ≤ w'.nextFree := by
  rcases decoderElem_dict e with ⟨hnext, -⟩ | ⟨hnext, -⟩ <;> omega

theorem decoderElem_decoderOk {p : Params} {h cw : Nat} {w w' : DecoderWork} (hw : DecoderOk w)
    (e : decoderElem p h w cw = .ok w') : DecoderOk w' := by
  obtain ⟨hlast, hprev⟩ := decoderElem_last_prev e
  have hnext := hw.next
  exact ⟨hlast.trans hprev.symm, hnext.trans (decoderElem_nextFree_le e), fun k hk =>
    (decoderElem_keeps_entry e (by omega)).trans (hw.seeds k hk)⟩

/-- Every run of subsequent codewords keeps what each of them keeps. -/
theorem decoderRun_decoderOk {p : Params} {h : Nat} {cs : List Nat} {w v : DecoderWork} (hw : DecoderOk w)
    (e : cs.foldlM (decoderElem p h) w = .ok v) : DecoderOk v := by
  induction cs generalizing w with
  | nil => exact Except.ok.inj e ▸ hw
  | cons c cs ih =>
    rw [List.foldlM_cons] at e
    cases hc : decoderElem p h w c with
    | error x => rw [hc] at e; cases e
    | ok w1 =>
      rw [hc] at e
      exact ih (decoderElem_decoderOk hw hc) e

/-- The decoder of all codewords a COMPRESS of a nonempty input emits has caught up with the encoder (R188). -/
theorem encoderScan_caughtUp (p : Params) (hp : p.Legal) {x : Bytes} {h : Nat} (hx : x ≠ []) (hh : x.length ≤ h) :
    CaughtUp p h x (encoderScan p x) :=
  inStep_catches_up p h x _ (encoderScan_ok p hp x) (encoderScan_inStep p hp h x hh) (encoderScan_cand_ne p hp x hx) hh

/-- The first codeword a COMPRESS of a nonempty input emits is a seed: the decoder takes it as its first (R151, R177). -/
theorem emitted_head_seed (p : Params) (hp : p.Legal) {x : Bytes} (hx : x ≠ []) :
    1 ≤ (emitted (encoderScan p x)).headD 0 ∧ (emitted (encoderScan p x)).headD 0 ≤ 256 := by
  obtain ⟨c1, cs, v0, v, hout, hf, -⟩ := encoderScan_caughtUp p hp hx le_rfl
  rw [emitted, hout]
  exact (decoderFirst_seed hf).1

end Sys2Proof.Machine
end

section
/-! SUPPORT. The trie over one step of the machine (R54), and the word the model places for the engine. -/

namespace Sys2Proof.Machine

/-- An operation of the outside world leaves the trie, or resets it (R65, R270). -/
theorem hostForm_trie {s t : State} {op : HostOp} (f : HostForm s op t) : t.trie = s.trie ∨ t.trie = Trie.destroyed := by
  cases f with
  | wrote addr bits v r _ _ _ e =>
    obtain ⟨-, -, htrie, -⟩ := writeReg_frame s r v
    exact .inl (e ▸ htrie)
  | readReg _ _ _ _ _ _ e => exact .inl (e ▸ rfl)
  | waiting _ _ _ e => exact .inl (e ▸ rfl)
  | waited _ _ _ e => exact .inl (e ▸ rfl)
  | wroteMem _ _ _ _ _ e => exact .inl (e ▸ rfl)
  | readMem _ _ _ _ _ e => exact .inl (e ▸ rfl)
  | asserted _ e => exact .inr (e ▸ rfl)
  | deasserted _ e => exact .inl (e ▸ rfl)

/-- A step keeps the invariants of the trie: a command by `exec_trieOk`, and everything else leaves the trie or resets it. -/
theorem step_trieOk {s t : State} (hp : s.params.Legal) (hok : TrieOk s.params s.trie) (h : step s = .next t) :
    TrieOk s.params t.trie := by
  cases step_form h with
  | ran i _ _ _ e => exact exec_trieOk (s := { s with schedule := s.schedule.tail }) e hp hok
  | illegal x _ _ _ e => subst e; exact hok
  | nothing e => subst e; exact hok
  | host op rest _ _ f =>
    rcases hostForm_trie f with e | e <;> rw [e]
    · exact hok
    · exact destroyed_ok s.params

/-- The state with a command's own word placed is the one its CMD write leaves, at the engine's turn (log 18). -/
theorem withFetchWord_encode (s : State) (i : Instr) :
    s.withFetchWord 32 (encode i).toNat =
      { startCommand s (encode i) with rst := false, schedule := .engine :: s.schedule } := by
  simp [State.withFetchWord, Nat.mod_eq_of_lt (encode i).isLt]

/-- The engine's turn runs the latched command (R92, R233). -/
theorem step_of_latched {s : State} {i : Instr} (hbusy : s.mode = .busy) (hr : s.rst = false) (hturn : nextTurn s = .engine)
    (hd : decodeWord s.latch.word = .ok i) : step s = exec i { s with schedule := s.schedule.tail } := by
  rw [step_engine hturn ((engineEnabled_iff s).2 ⟨hbusy, hr⟩)]
  simp only [runLatched, hd]

end Sys2Proof.Machine
end

section
/-! SUPPORT. The obligations of the encoder's and decoder's inferences, of the trie over a step, of sample words and of reset,
settled. -/

namespace Sys2Proof.Machine

/-- Settles O57: the elements read back as the stream that was written, whose decoding is the input by `decodeStream_encodedStream`,
and a DECOMPRESS writes what its stream decodes to. -/
theorem decompressInvertsCompress : Obligations.DecompressInvertsCompress := by
  intro s t d cap hp hm ht hok hcap hready hbus
  obtain ⟨-, hsucc, -⟩ := exec_compress_success ht hok
  have hparams : t.params = s.params := (exec_sameOutside ht).params
  have htm : t.mem.wf := exec_mem_wf ht hm
  have hdec : decodeStream t.params cap.toNat (t.mem.elem t.params s.latch.d.toNat) t.result.toNat
      = ⟨.finish s.latch.n.toNat t.dictFull, t.result.toNat, sourceBytes s⟩ := by
    rw [hparams, exec_compress_result hp ht hok, hsucc.dictFull, ← sourceBytes_length s]
    exact decodeStream_encodedStream s.params hp (sourceBytes s) cap.toNat ((sourceBytes_length s).trans_le hcap) _
      fun j hj => exec_compress_elem hp hm ht hok hj
  obtain ⟨u, hu, hsuccu, -, -, -, hholds, -⟩ :=
    decompressWritesTheDecodedBytes { t with latch := ⟨encode .decompress, s.latch.d, t.result, d, cap⟩ } _ _ _ _
      htm hready hbus hdec
  exact ⟨u, hu, hsuccu, hholds⟩

/-- Settles O58: no step changes the parameters, and each keeps the invariants by `step_trieOk`. -/
theorem stepKeepsTheTrieInvariants : Obligations.StepKeepsTheTrieInvariants := by
  intro s t hp hok h
  obtain ⟨hparams, -⟩ := step_constants h
  exact ⟨hparams, hparams.symm ▸ step_trieOk hp hok h⟩

/-- Settles O43: the 256 puts leave the seeded trie, whose entries `seedTrie_cw_byte` gives. -/
theorem seedingNumbersTheBytes : Obligations.SeedingNumbersTheBytes := by
  intro p hp
  rw [seedTrie_eq_seedByPuts p hp]
  exact ⟨rfl, seedTrie_cw_byte, seedTrie_next, (seedTrie_encOk p hp).nodes_length.trans seedTrie_next⟩

/-- Settles O44: RESULT is the length of the stream, which `encodedStream_length` bounds. -/
theorem compressOutputSize : Obligations.CompressOutputSize := by
  intro s t hp ht hok
  obtain ⟨hlow, hhigh⟩ := encodedStream_length s.params hp (sourceBytes s)
  rw [sourceBytes_length] at hhigh
  rw [exec_compress_result hp ht hok]
  exact ⟨fun hn => by omega, fun hn => ⟨hlow, by omega⟩⟩

/-- Settles O45: the candidate is ε or an entry at every point of the scan, and the first codeword is the decoder's first. -/
theorem emittedCodewordsAreCodewords : Obligations.EmittedCodewordsAreCodewords := by
  intro p x hp
  have hscan := encoderScan_ok p hp x
  refine ⟨⟨fun hc => ?_, fun hx => ?_⟩, fun hx => ?_, fun hx => ?_, fun hx => ?_, fun b hc => ?_⟩
  · by_contra hx
    exact encoderScan_cand_ne p hp x hx hc
  · subst hx
    rfl
  · exact hscan.cand.resolve_left (encoderScan_cand_ne p hp x hx)
  · exact ⟨emitted_range p hp x hx, emitted_head_seed p hp hx⟩
  · subst hx
    rw [encodedStream, emitted_nil, List.length_nil]
  · rw [hc]
    exact hscan.trie.seeds b

/-- Settles O46: the path of the extended candidate lacks one node, and there are as many nodes as the counter says. -/
theorem scanNeverRunsOutOfNodes : Obligations.ScanNeverRunsOutOfNodes := by
  intro p x b hp
  have hscan := encoderScan_ok p hp x
  refine ⟨hscan.trie.nodes_length.trans_le hscan.trie.high, fun hz => ?_⟩
  rcases hscan.trie.insert hp _ b hscan.cand hz with ⟨-, e⟩ | ⟨-, e⟩ <;> rw [e]
  · exact .inl rfl
  · exact .inr rfl

/-- Settles O47: RESULT − 2 is the number of insertions of the scan, which `encoderScan_dictFull_iff` compares. -/
theorem dictFullCountsTheInsertions : Obligations.DictFullCountsTheInsertions := by
  intro s t hp ht hok _
  obtain ⟨-, hsucc, -⟩ := exec_compress_success ht hok
  rw [hsucc.dictFull, exec_compress_result hp ht hok, encodedStream_length_eq, Nat.add_sub_cancel]
  exact encoderScan_dictFull_iff s.params hp (sourceBytes s)

/-- Settles O53: `DecoderOk` holds after the first codeword and every accepted one keeps it. -/
theorem decoderKeepsItsEntries : Obligations.DecoderKeepsItsEntries := by
  intro p h c1 v0 v cs hf hrun
  obtain ⟨hlast, hnext, hseeds⟩ := decoderRun_decoderOk (decoderFirst_decoderOk hf) hrun
  exact ⟨hlast, hnext, hseeds, fun cw v' e k hk => decoderElem_keeps_entry e hk⟩

/-- Settles O56: the decoder has caught up, so its dictionary is the one of the encoder's entries. -/
theorem decoderHoldsTheEncodersEntries : Obligations.DecoderHoldsTheEncodersEntries := by
  intro p x h hp hx hh
  obtain ⟨c1, cs, v0, v, hout, hf, hrun, hsettled, ho⟩ := encoderScan_caughtUp p hp hx hh
  refine ⟨c1, cs, v0, v, hout, hf, hrun, ho, hsettled.next, fun k hk => ?_⟩
  rw [hsettled.dict]
  exact (encoderScan_ok p hp x).trie.codes.dictGet k hk

/-- Settles O2: three words of the opcode map, two with a reserved bit and one with an opcode of no row. -/
theorem sampleWordsDecode : Obligations.SampleWordsDecode :=
  ⟨decode_encode .trieInit, decode_encode .compress, decode_encode .decompress, rfl, rfl, rfl⟩

/-- Settles O4: the engine's turn runs the latched word, which `withFetchWord` latches and gives the next turn. -/
theorem stepRunsTheLatchedCommand : Obligations.StepRunsTheLatchedCommand := by
  refine ⟨fun s i => step_of_latched, fun s i => ?_⟩
  rw [withFetchWord_encode]
  exact step_of_latched rfl rfl rfl (decode_encode i)

/-- Settles O60: the default parameters are legal, and the flags, memory and trie of reset are their empty ones. -/
theorem invariantHoldsAtReset : Obligations.InvariantHoldsAtReset where
  legal := by decide
  mem := Memory.empty_wf
  trie := destroyed_ok Params.default
  status := ⟨by decide, fun herr => (by cases herr), fun hbusy => (by cases hbusy)⟩
  inReset := fun hrst => by cases hrst

end Sys2Proof.Machine
end
